-- ==== Sys2Proof/Word.lean ====
section
/-!
DEFINITION. The word types of the unit. Every value is unsigned (00_scope.md section 5).
-/

namespace Sys2Proof

/-- A byte (8 bits). -/
abbrev Byte := BitVec 8

/-- A 16-bit value: the CRC register, `RVER`, the `data` field of a response. -/
abbrev Half := BitVec 16

/-- A command word `CMD[11:0]` (30_encoding.md R68). -/
abbrev Cmd := BitVec 12

end Sys2Proof
end

