-- ==== Sys2Proof/Config.lean ====
section
/-!
DEFINITION. What is fixed when the unit is built: the constants of 00_scope.md R2 and the one parameter of R3.
-/

namespace Sys2Proof.Config

/-- Payload bytes in a block. -/
def blk : Nat := 128

/-- Filler byte for a short chunk. -/
def fill : Byte := 0x1A

/-- The CRC polynomial, the x^16 term implicit. -/
def poly : Half := 0x1021

/-- CRC register value before the first byte. -/
def crcInit : Half := 0x0000

/-- First block number. -/
def seqInit : Byte := 0x01

/-- Start-of-header. -/
def soh : Byte := 0x01

/-- End-of-transmission. -/
def eot : Byte := 0x04

/-- Acknowledge. -/
def ack : Byte := 0x06

/-- Not-acknowledge. -/
def nak : Byte := 0x15

/-- Cancel, defined but unhandled. -/
def can : Byte := 0x18

/-- CRC-request, the CRC-mode negotiation byte. -/
def crq : Byte := 0x43

/-- Bytes in a checksum-mode frame. -/
def flenSum : Nat := 132

/-- Bytes in a CRC-mode frame. -/
def flenCrc : Nat := 133

/-- `DUP_SUPPRESS` (00_scope.md R3): fixed when the unit is built. The spec's default is false and it allows both, so the
model leaves it open: no proof can see its value, and every statement holds for both settings (log 3). -/
opaque dupSuppress : Bool

end Sys2Proof.Config
end

