-- ==== Sys2Proof/Syntax.lean ====
section
/-!
DEFINITION. The unit's operation set and its wire items, one constructor per row of spec/opcode_table.json,
and the two encodings they come in (30_encoding.md Parts A and B).
-/

namespace Sys2Proof

/-- The verification mode held by register `MODE` (10_state.md R10): 0 is checksum, 1 is CRC. -/
inductive VerMode where
  | checksum
  | crc
deriving DecidableEq, Repr

/-- The half of the unit to which the host hands a byte it read from the channel (20_memory.md R40, 30_encoding.md R67):
the unpacker takes it as the operand of `RX_BYTE`, the packer as the operand of `TX_RSP`. -/
inductive Side where
  | rx
  | tx
deriving DecidableEq, Repr

/-- The rows of spec/opcode_table.json. A command carries its whole 8-bit operand field `arg`, reserved bits included,
because a reserved bit that is 1 has an effect of its own (30_encoding.md R70). -/
inductive Instr where
  /-- `INIT` (45_system.md R185): `arg[0]` is the mode, `arg[7:1]` is reserved. -/
  | init (arg : Byte)
  /-- `RD` (45_system.md R186): `r` is a register index. -/
  | rd (r : Byte)
  /-- `SUM_CLR` (40_checksum.md R92). -/
  | sumClr (arg : Byte)
  /-- `SUM_UPD` (40_checksum.md R93). -/
  | sumUpd (b : Byte)
  /-- `CRC_CLR` (41_crc16.md R105). -/
  | crcClr (arg : Byte)
  /-- `CRC_UPD` (41_crc16.md R106). -/
  | crcUpd (b : Byte)
  /-- `RX_BYTE` (43_unpacker.md R130). -/
  | rxByte (b : Byte)
  /-- `RX_TMO` (43_unpacker.md R143). -/
  | rxTmo (arg : Byte)
  /-- `RB_RD` (43_unpacker.md R144): `arg[6:0]` is the payload index, `arg[7]` is reserved. -/
  | rbRd (arg : Byte)
  /-- `PK_PUT` (44_packer.md R161). -/
  | pkPut (b : Byte)
  /-- `PK_BUILD` (44_packer.md R163). -/
  | pkBuild (arg : Byte)
  /-- `TX_NEXT` (44_packer.md R164). -/
  | txNext (arg : Byte)
  /-- `TX_RSP` (44_packer.md R165). -/
  | txRsp (b : Byte)
  /-- `TX_TMO` (44_packer.md R169). -/
  | txTmo (arg : Byte)
  /-- Reserved operation code 0xE (30_encoding.md R70). -/
  | reservedOpE (arg : Byte)
  /-- Reserved operation code 0xF (30_encoding.md R70). -/
  | reservedOpF (arg : Byte)
  /-- The checksum-mode frame (30_encoding.md R62) as it arrives: block number, complement byte, payload, checksum. -/
  | frameChecksum (n c : Byte) (payload : List Byte) (v : Byte)
  /-- The CRC-mode frame (30_encoding.md R63) as it arrives: block number, complement byte, payload, CRC high and low byte. -/
  | frameCrc (n c : Byte) (payload : List Byte) (hi lo : Byte)
  /-- The control byte 0x01 (30_encoding.md R60). -/
  | soh (side : Side)
  /-- The control byte 0x04. -/
  | eot (side : Side)
  /-- The control byte 0x06. -/
  | ack (side : Side)
  /-- The control byte 0x15. -/
  | nak (side : Side)
  /-- The control byte 0x18. -/
  | can (side : Side)
  /-- The control byte 0x43. -/
  | crq (side : Side)
deriving DecidableEq, Repr

/-- What an instruction is encoded as: a command word of the host (30_encoding.md Part B), or bytes of the channel in the
order they arrived (Part A), at least one. -/
inductive Encoded where
  | command (w : Cmd)
  | wire (side : Side) (b : Byte) (bs : List Byte)
deriving DecidableEq, Repr

end Sys2Proof
end

