-- ==== Sys2Proof/Machine/State.lean ====
section
/-!
DEFINITION. The state of the unit (10_state.md R10), its reset value (R31), and the reasons a step can stop.
-/

namespace Sys2Proof.Machine

/-- The position of the unpacker in a frame, register `PH` (10_state.md R20). Its seventh value 7 is never written. -/
inductive Phase where
  /-- 0, at a frame boundary. -/
  | idle
  /-- 1, the block-number byte is next. -/
  | num
  /-- 2, the complement byte is next. -/
  | cmp
  /-- 3, a payload byte is next. -/
  | pay
  /-- 4, the checksum or the high CRC byte is next. -/
  | ver1
  /-- 5, the low CRC byte is next. -/
  | ver2
  /-- 6, end-of-transmission was accepted. -/
  | done
deriving DecidableEq, Repr

/-- The event codes of a response and of `LEVT` (30_encoding.md R73). -/
inductive Event where
  | none
  | rxAccept
  | rxEot
  | rxDup
  | rxHdrErr
  | rxTrunc
  | rxVerErr
  | rxIgnored
  | txAdvance
  | txResend
  | txRepoll
  | txLast
deriving DecidableEq, Repr

/-- The command-error codes, the values of `ECODE` (60_exceptions.md R204). -/
inductive ErrCode where
  | none
  | opcode
  | reservedBits
  | notReady
  | reg
  | rxDone
  | noPayload
  | frameBusy
  | pkFull
  | pkEmpty
  | txState
deriving DecidableEq, Repr

/-- The response record of one command (30_encoding.md R71). -/
structure Response where
  err  : Bool
  data : Half
  txv  : Bool
  tx   : Byte
  evt  : Event
deriving DecidableEq, Repr

/-- What the outside presents to the unit: an encoded instruction, or the reset input (10_state.md R10). -/
inductive Input where
  | item (e : Encoded)
  | reset
deriving DecidableEq, Repr

/-- The bytes of a buffer, as (index, byte) cells in one canonical form (`Memory.wf` in Ops.lean). -/
abbrev Memory := List Host.Cell

/-- Everything the spec gives the unit (10_state.md R10), and two fields of the model's own, `resp` and `pending`. -/
structure State where
  /-- `READY` -/
  ready : Bool
  /-- `MODE` -/
  mode : VerMode
  /-- `ERR` -/
  err : Bool
  /-- `ECODE` -/
  ecode : ErrCode
  /-- `LEVT` -/
  levt : Event
  /-- `SUM` -/
  sum : Byte
  /-- `CRC` -/
  crc : Half
  /-- `SEQ` -/
  seq : Byte
  /-- `LAST` -/
  last : Byte
  /-- `LASTV` -/
  lastv : Bool
  /-- `PH` -/
  ph : Phase
  /-- `IDX` -/
  idx : Byte
  /-- `RBN` -/
  rbn : Byte
  /-- `RCP` -/
  rcp : Byte
  /-- `RVER` -/
  rver : Half
  /-- `RBUF` -/
  rbuf : Memory
  /-- `RVALID` -/
  rvalid : Bool
  /-- `FBUF` -/
  fbuf : Memory
  /-- `PLEN` -/
  plen : Byte
  /-- `FLEN` -/
  flen : Byte
  /-- `TXP` -/
  txp : Byte
  /-- `FVALID` -/
  fvalid : Bool
  /-- The model's own (log 2): the response records returned for the latest input, oldest first. -/
  resp : List Response
  /-- The model's own (log 1): the inputs the outside has still to present, oldest first. The unit neither stores nor changes
  them (10_state.md R11). -/
  pending : List Input
deriving DecidableEq, Repr

/-- The unit right after reset (10_state.md R31), with nothing presented to it yet. The buffers' contents are unspecified
there: no byte is listed (log 4). -/
def State.reset : State where
  ready := false
  mode := .checksum
  err := false
  ecode := .none
  levt := .none
  sum := 0x00
  crc := Config.crcInit
  seq := Config.seqInit
  last := 0x00
  lastv := false
  ph := .idle
  idx := 0
  rbn := 0x00
  rcp := 0x00
  rver := 0x0000
  rbuf := []
  rvalid := false
  fbuf := []
  plen := 0
  flen := 0
  txp := 0
  fvalid := false
  resp := []
  pending := []

/-- Why the model stops. The spec gives the unit no such stop: both are raised only in states that no run from reset reaches
(10_state.md R32 items 2, 3, 4 and 5). -/
inductive Fault where
  /-- An access to `RBUF` at an index above 127, raised by `RX_BYTE` (and the wire items it takes) in phase `PAY` when `IDX` is
  above 127. Safe: 20_memory.md R45 says that such an index cannot be formed. -/
  | rbufIndex (i : Nat)
  /-- An access to `FBUF` at an index above 132, raised by `PK_PUT` when `PLEN` is above 129 and by `TX_NEXT` when `TXP` is above
  132. Safe: 20_memory.md R45. -/
  | fbufIndex (i : Nat)
deriving DecidableEq, Repr

/-- Why an instruction has no meaning in the model. -/
inductive Refusal where
  /-- An instruction with no meaning yet, raised by `exec` alone. Safe: nothing is claimed of it. -/
  | notModelled (mnemonic : String)
deriving DecidableEq, Repr

end Sys2Proof.Machine
end

