-- ==== Sys2Proof/Machine/Codec.lean ====
section
/-!
DEFINITION. The pure functions of the unit: the additive checksum (40_checksum.md), the CRC and its two equivalent forms
(41_crc16.md), and the block-sequencing functions (42_sequencing.md).
-/

namespace Sys2Proof.Machine

/-! ### Additive checksum -/

/-- `sum_byte(s, b)` (R90): the carry out of bit 7 is dropped. -/
def sumByte (s b : Byte) : Byte :=
  s + b

/-- `checksum(B)` (R91). -/
def checksum (bs : List Byte) : Byte :=
  bs.foldl sumByte 0x00

/-! ### CRC -/

/-- `crc_bit(r)` (R100). -/
def crcBit (r : Half) : Half :=
  if r.getLsbD 15 then (r <<< 1) ^^^ Config.poly else r <<< 1

/-- `n` applications of `crc_bit`. -/
def crcBits : Nat → Half → Half
  | 0, r => r
  | n + 1, r => crcBits n (crcBit r)

/-- A byte in the high byte of a 16-bit value. -/
def inHighByte (b : Byte) : Half :=
  b.setWidth 16 <<< 8

/-- `crc_byte(r, b)` (R101). -/
def crcByte (r : Half) (b : Byte) : Half :=
  crcBits 8 (r ^^^ inHighByte b)

/-- The CRC register after a sequence of bytes, from any start. -/
def crcFold (r : Half) (bs : List Byte) : Half :=
  bs.foldl crcByte r

/-- `crc16(B)` (R102). -/
def crc16 (bs : List Byte) : Half :=
  crcFold Config.crcInit bs

/-- One data bit of the bit-serial form (R104): the register shifts toward bit 15, and the feedback bit enters at the taps 0, 5
and 12. -/
def crcSerialBit (r : Half) (d : Bool) : Half :=
  let fb := r.getLsbD 15 ^^ d
  let tap (i : Nat) := if i = 0 then fb else if i = 5 ∨ i = 12 then r.getLsbD (i - 1) ^^ fb else r.getLsbD (i - 1)
  BitVec.ofFnLE fun i : Fin 16 => tap i.val

/-- The bit-serial form of one byte (R104): data bits 7 down to 0. -/
def crcSerialByte (r : Half) (b : Byte) : Half :=
  [7, 6, 5, 4, 3, 2, 1, 0].foldl (fun r k => crcSerialBit r (b.getLsbD k)) r

/-- The byte-parallel form (R107). -/
def crcParallelByte (r : Half) (b : Byte) : Half :=
  let t0 : Byte := r.extractLsb' 8 8 ^^^ b
  let t : Byte := t0 ^^^ (t0 >>> 4)
  (r <<< 8) ^^^ (t.setWidth 16 <<< 12) ^^^ (t.setWidth 16 <<< 5) ^^^ t.setWidth 16

/-- The high byte of a 16-bit value. -/
def hiByte (v : Half) : Byte :=
  v.extractLsb' 8 8

/-- The low byte of a 16-bit value. -/
def loByte (v : Half) : Byte :=
  v.extractLsb' 0 8

/-! ### Block sequencing -/

/-- `cpl(n)` (R115). -/
def cpl (n : Byte) : Byte :=
  255 - n

/-- `hdr_ok(n, c)` (R116). -/
def hdrOk (n c : Byte) : Bool :=
  (n.toNat + c.toNat) % 256 == 255

/-- `seq_next(n)` (R117). -/
def seqNext (n : Byte) : Byte :=
  n + 1

/-! ### Frames -/

/-- The payload of a chunk, padded to one block with the filler byte (44_packer.md R162). -/
def padChunk (chunk : List Byte) : List Byte :=
  chunk ++ List.replicate (Config.blk - chunk.length) Config.fill

/-- The verification field of a payload (30_encoding.md R62 and R63). -/
def verField (mode : VerMode) (payload : List Byte) : List Byte :=
  match mode with
  | .checksum => [checksum payload]
  | .crc => [hiByte (crc16 payload), loByte (crc16 payload)]

/-- The frame of a block in wire order (20_memory.md R41, 30_encoding.md R62 and R63). -/
def frameBytes (mode : VerMode) (n : Byte) (payload : List Byte) : List Byte :=
  Config.soh :: n :: cpl n :: (payload ++ verField mode payload)

/-- The length of a frame (00_scope.md R2). -/
def frameLen (mode : VerMode) : Nat :=
  match mode with
  | .checksum => Config.flenSum
  | .crc => Config.flenCrc

end Sys2Proof.Machine
end

