-- ==== Sys2Proof/Machine/Flags.lean ====
section
/-!
DEFINITION. The numeric codes of the small registers and the `STATUS` word (10_state.md R20 and R30, 30_encoding.md R73,
60_exceptions.md R204). There are no arithmetic condition codes (10_state.md R19).
-/

namespace Sys2Proof.Machine

/-- A flag as a number. -/
def flagBit (b : Bool) : Nat :=
  if b then 1 else 0

/-- `MODE` as a number (10_state.md R10). -/
def modeBit (m : VerMode) : Nat :=
  match m with
  | .checksum => 0
  | .crc => 1

/-- `PH` as a number (10_state.md R20). -/
def phaseCode (p : Phase) : Nat :=
  match p with
  | .idle => 0
  | .num => 1
  | .cmp => 2
  | .pay => 3
  | .ver1 => 4
  | .ver2 => 5
  | .done => 6

/-- An event code (30_encoding.md R73). -/
def eventCode (e : Event) : Nat :=
  match e with
  | .none => 0
  | .rxAccept => 1
  | .rxEot => 2
  | .rxDup => 3
  | .rxHdrErr => 4
  | .rxTrunc => 5
  | .rxVerErr => 6
  | .rxIgnored => 7
  | .txAdvance => 8
  | .txResend => 9
  | .txRepoll => 10
  | .txLast => 11

/-- A command-error code (60_exceptions.md R204). -/
def errCode (e : ErrCode) : Nat :=
  match e with
  | .none => 0
  | .opcode => 1
  | .reservedBits => 2
  | .notReady => 3
  | .reg => 4
  | .rxDone => 5
  | .noPayload => 6
  | .frameBusy => 7
  | .pkFull => 8
  | .pkEmpty => 9
  | .txState => 10

/-- The `STATUS` word (10_state.md R30), by the rule's own formula. -/
def statusWord (s : State) : Half :=
  BitVec.ofNat 16 (flagBit s.ready + 2 * modeBit s.mode + 4 * flagBit s.err + 8 * flagBit s.fvalid
    + 16 * flagBit s.rvalid + 32 * flagBit s.lastv + 256 * phaseCode s.ph + 4096 * eventCode s.levt)

end Sys2Proof.Machine
end

