-- ==== Sys2Proof/Machine/Operands.lean ====
section
/-!
DEFINITION. The operand forms of the command word (30_encoding.md R68 to R70) and the register map (10_state.md R29). An operand
is always unsigned.
-/

namespace Sys2Proof.Machine

/-- The mode operand of `INIT`, `arg[0]` (45_system.md R185). -/
def modeOperand (arg : Byte) : VerMode :=
  if arg.getLsbD 0 then .crc else .checksum

/-- A reserved bit of `INIT`'s operand, `arg[7:1]`, is 1 (30_encoding.md R70). -/
def reservedAbove0 (arg : Byte) : Bool :=
  arg >>> 1 != 0

/-- A reserved bit of an operand that must be 0x00 is 1 (30_encoding.md R70). -/
def reservedWhole (arg : Byte) : Bool :=
  arg != 0

/-- The reserved bit 7 of `RB_RD`'s operand is 1 (30_encoding.md R70). -/
def reservedBit7 (arg : Byte) : Bool :=
  arg.getLsbD 7

/-- The payload index of `RB_RD`, `arg[6:0]` (43_unpacker.md R144). -/
def payloadIndex (arg : Byte) : Nat :=
  (arg.extractLsb' 0 7).toNat

/-- The highest register index of the map (10_state.md R29). -/
def lastRegister : Byte := 0x0A

/-- `reg(r)` for an index of the map (45_system.md R186): a narrower register is zero-extended. -/
def readRegister (r : Byte) (s : State) : Half :=
  match r.toNat with
  | 0x00 => statusWord s
  | 0x01 => BitVec.ofNat 16 (errCode s.ecode)
  | 0x02 => s.crc
  | 0x03 => s.sum.setWidth 16
  | 0x04 => s.seq.setWidth 16
  | 0x05 => s.rbn ++ s.rcp
  | 0x06 => s.rver
  | 0x07 => s.idx.setWidth 16
  | 0x08 => s.flen ++ s.txp
  | 0x09 => s.plen.setWidth 16
  | _ => s.last.setWidth 16

end Sys2Proof.Machine
end

