-- ==== Sys2Proof/Machine/Ops.lean ====
section
/-!
DEFINITION. The named operations over the buffers, the three ways a step ends (00_scope.md section 5), the checks common to
the operations (60_exceptions.md R206), and the reset input.
-/

namespace Sys2Proof.Machine

/-- What a step answers. -/
abbrev Result := Host.Outcome State Fault Refusal

/-- Go on from a next state; a stop stays a stop. -/
def andThen (r : Result) (k : State → Result) : Result :=
  match r with
  | .next s => k s
  | .fault f => .fault f
  | .refused f => .refused f

/-! ### The buffers -/

/-- What a byte that nothing has written reads as. DESIGN CHOICE allowed by 10_state.md R31 (log 4). -/
def Memory.unlisted : Byte := 0x00

/-- The byte at an index. -/
def Memory.read : Memory → Nat → Byte
  | [], _ => Memory.unlisted
  | (k, v) :: m, a => if k = a then v else Memory.read m a

/-- The buffer with one byte replaced, kept in canonical form. -/
def Memory.write : Memory → Nat → Byte → Memory
  | [], a, v => if v = Memory.unlisted then [] else [(a, v)]
  | (k, w) :: m, a, v =>
    if a < k then (if v = Memory.unlisted then (k, w) :: m else (a, v) :: (k, w) :: m)
    else if a = k then (if v = Memory.unlisted then m else (a, v) :: m)
    else (k, w) :: Memory.write m a v

/-- The indices rise strictly from `lo` on, and no listed byte is what an unlisted one reads as. -/
def Memory.wfFrom : Nat → Memory → Bool
  | _, [] => true
  | lo, (k, v) :: m => decide (lo ≤ k) && (v != Memory.unlisted && Memory.wfFrom (k + 1) m)

/-- The canonical form. -/
def Memory.wf (m : Memory) : Bool :=
  Memory.wfFrom 0 m

/-- Every listed index is below `size`. -/
def Memory.within (size : Nat) (m : Memory) : Bool :=
  m.all fun c => decide (c.1 < size)

/-- `n` bytes from index `a` on, in index order. -/
def Memory.readSeq (m : Memory) (a : Nat) : Nat → List Byte
  | 0 => []
  | n + 1 => Memory.read m a :: Memory.readSeq m (a + 1) n

/-- The buffer with bytes written one after the other from index `a` on. -/
def Memory.writeSeq (m : Memory) (a : Nat) : List Byte → Memory
  | [] => m
  | v :: vs => Memory.writeSeq (Memory.write m a v) (a + 1) vs

/-- The number of bytes of `RBUF` (10_state.md R22). -/
def rbufSize : Nat := 128

/-- The number of bytes of `FBUF` (10_state.md R23). -/
def fbufSize : Nat := 133

/-- The offset of the payload in a frame (30_encoding.md R62 and R63). -/
def payloadOff : Nat := 3

/-- `RBUF[i] <- b`, then go on. An index outside the buffer does not exist (20_memory.md R47). -/
def storeRbuf (i : Nat) (b : Byte) (s : State) (k : State → Result) : Result :=
  if i < rbufSize then k { s with rbuf := s.rbuf.write i b } else .fault (.rbufIndex i)

/-- `FBUF[i] <- b`, then go on. -/
def storeFbuf (i : Nat) (b : Byte) (s : State) (k : State → Result) : Result :=
  if i < fbufSize then k { s with fbuf := s.fbuf.write i b } else .fault (.fbufIndex i)

/-- Read `FBUF[i]`, then go on with the byte. -/
def loadFbuf (i : Nat) (s : State) (k : Byte → Result) : Result :=
  if i < fbufSize then k (s.fbuf.read i) else .fault (.fbufIndex i)

/-! ### The three ends of a step -/

/-- The response of a step that is not refused (30_encoding.md R72). -/
def Response.ok (data : Half) (tx : Option Byte) (evt : Event) : Response :=
  { err := false, data := data, txv := tx.isSome, tx := tx.getD 0x00, evt := evt }

/-- The response of a refused command (60_exceptions.md R205). -/
def Response.refusal : Response :=
  { err := true, data := 0, txv := false, tx := 0x00, evt := .none }

/-- The state after `respond`: the response is returned, and an event that is not `EV_NONE` goes to `LEVT` (30_encoding.md R72). -/
def State.answered (s : State) (data : Half) (tx : Option Byte) (evt : Event) : State :=
  { s with levt := if evt = .none then s.levt else evt, resp := [Response.ok data tx evt] }

/-- The state after `refuse`: nothing but the response (60_exceptions.md R205). -/
def State.turnedAway (s : State) : State :=
  { s with resp := [Response.refusal] }

/-- The state after `cmd_error(code)`: the first error is latched, a later one is not (60_exceptions.md R205). -/
def State.errored (s : State) (code : ErrCode) : State :=
  { s with
    err := true
    ecode := if s.err then s.ecode else code
    resp := [Response.refusal] }

/-- The normal end of a step (30_encoding.md R72). -/
def respond (data : Half) (tx : Option Byte) (evt : Event) (s : State) : Result :=
  .next (s.answered data tx evt)

/-- The command is refused because `ERR` is already 1 (60_exceptions.md R205). -/
def refuse (s : State) : Result :=
  .next s.turnedAway

/-- The command is refused and its code latched if it is the first (60_exceptions.md R205). This is all that stands in for
taking an exception (R209); there is no return from one (R210). -/
def cmdError (code : ErrCode) (s : State) : Result :=
  .next (s.errored code)

/-- The checks common to every operation but `RD`, in the order of 60_exceptions.md R206: `ERR`, reserved operand bits,
`READY`. -/
def gate (reserved needsReady : Bool) (s : State) (body : Result) : Result :=
  if s.err then refuse s
  else if reserved then cmdError .reservedBits s
  else if needsReady && !s.ready then cmdError .notReady s
  else body

/-! ### Reset and session start -/

/-- The reset input is asserted (70_reset_and_hazards.md R240 and R241): every register takes its reset value, no response is
returned, and what the outside still has to present is untouched. -/
def State.assertReset (s : State) : State :=
  { State.reset with pending := s.pending }

/-- The state that `INIT` leaves, before its response (45_system.md R185): every register at its reset value, then `READY` and
`MODE`; the buffers are not cleared. -/
def State.newSession (s : State) (m : VerMode) : State :=
  { State.reset with
    ready := true
    mode := m
    rbuf := s.rbuf
    fbuf := s.fbuf
    resp := s.resp
    pending := s.pending }

end Sys2Proof.Machine
end

