-- ==== Sys2Proof/Machine/Checksum.lean ====
section
/-!
DEFINITION. The additive-checksum unit: SUM_CLR, SUM_UPD (40_checksum.md).
-/

namespace Sys2Proof.Machine

/-- `SUM_CLR` (R92). -/
def execSumClr (arg : Byte) (s : State) : Result :=
  gate (reservedWhole arg) false s <|
    respond 0 none .none { s with sum := 0x00 }

/-- `SUM_UPD b` (R93). -/
def execSumUpd (b : Byte) (s : State) : Result :=
  gate false false s <|
    respond 0 none .none { s with sum := sumByte s.sum b }

end Sys2Proof.Machine
end

