-- ==== Sys2Proof/Machine/Crc.lean ====
section
/-!
DEFINITION. The CRC generator: CRC_CLR, CRC_UPD (41_crc16.md).
-/

namespace Sys2Proof.Machine

/-- `CRC_CLR` (R105). -/
def execCrcClr (arg : Byte) (s : State) : Result :=
  gate (reservedWhole arg) false s <|
    respond 0 none .none { s with crc := Config.crcInit }

/-- `CRC_UPD b` (R106). -/
def execCrcUpd (b : Byte) (s : State) : Result :=
  gate false false s <|
    respond 0 none .none { s with crc := crcByte s.crc b }

end Sys2Proof.Machine
end

