-- ==== Sys2Proof/Machine/System.lean ====
section
/-!
DEFINITION. The system operations INIT and RD (45_system.md) and the two reserved operation codes (30_encoding.md R70).
-/

namespace Sys2Proof.Machine

/-- `INIT m` (R185). -/
def execInit (arg : Byte) (s : State) : Result :=
  gate (reservedAbove0 arg) false s <|
    respond 0 none .none (s.newSession (modeOperand arg))

/-- `RD r` (R186). Neither `ERR` nor `READY` is looked at (60_exceptions.md R206). -/
def execRd (r : Byte) (s : State) : Result :=
  if lastRegister < r then cmdError .reg s
  else respond (readRegister r s) none .none s

/-- Operation code 0xE: `E_OPCODE`, whatever the operand (30_encoding.md R70, 60_exceptions.md R206). -/
def execReservedOpE (_arg : Byte) (s : State) : Result :=
  gate false false s <| cmdError .opcode s

/-- Operation code 0xF: `E_OPCODE`, whatever the operand. -/
def execReservedOpF (_arg : Byte) (s : State) : Result :=
  gate false false s <| cmdError .opcode s

end Sys2Proof.Machine
end

