-- ==== Sys2Proof/Machine/Packer.lean ====
section
/-!
DEFINITION. The frame packer: PK_PUT, PK_BUILD, TX_NEXT, TX_RSP, TX_TMO (44_packer.md).
-/

namespace Sys2Proof.Machine

/-- `PK_PUT b` (R161). -/
def execPkPut (b : Byte) (s : State) : Result :=
  gate false true s <|
    if s.fvalid then cmdError .frameBusy s
    else if s.plen = 128 then cmdError .pkFull s
    else
      storeFbuf (payloadOff + s.plen.toNat) b s fun s1 =>
        respond 0 none .none { s1 with plen := s.plen + 1 }

/-- The frame buffer with the header written and the payload padded (R162 and the first lines of R163). -/
def framed (s : State) : Memory :=
  let pad := List.replicate (Config.blk - s.plen.toNat) Config.fill
  let m := s.fbuf.writeSeq (payloadOff + s.plen.toNat) pad
  m.writeSeq 0 [Config.soh, s.seq, cpl s.seq]

/-- `PK_BUILD` once nothing stands against it (R163): the verification field goes after the padded payload, and `FLEN`, `TXP`
and `FVALID` are set. -/
def buildFrame (s : State) : State :=
  let m := framed s
  let p := m.readSeq payloadOff Config.blk
  let s1 :=
    match s.mode with
    | .checksum => { s with fbuf := m.writeSeq 131 (verField .checksum p), sum := checksum p }
    | .crc => { s with fbuf := m.writeSeq 131 (verField .crc p), crc := crc16 p }
  { s1 with flen := BitVec.ofNat 8 (frameLen s.mode), txp := 0, fvalid := true }

/-- `PK_BUILD` (R163). -/
def execPkBuild (arg : Byte) (s : State) : Result :=
  gate (reservedWhole arg) true s <|
    if s.fvalid then cmdError .frameBusy s
    else if s.plen = 0 then cmdError .pkEmpty s
    else respond ((buildFrame s).flen.setWidth 16) none .none (buildFrame s)

/-- `TX_NEXT` (R164). -/
def execTxNext (arg : Byte) (s : State) : Result :=
  gate (reservedWhole arg) true s <|
    if !s.fvalid || decide (s.flen ≤ s.txp) then cmdError .txState s
    else
      loadFbuf s.txp.toNat s fun d =>
        respond (d.setWidth 16) none (if s.txp + 1 = s.flen then .txLast else .none)
          { s with txp := s.txp + 1 }

/-- No response may be taken now (R165): no frame is outstanding, or it has not been handed out whole. -/
def notAwaiting (s : State) : Bool :=
  !s.fvalid || s.txp != s.flen

/-- `TX_RSP` with `ACK` (R166). -/
def rspAck (s : State) : Result :=
  respond 0 none .txAdvance
    { s with seq := seqNext s.seq, fvalid := false, plen := 0, txp := 0, flen := 0 }

/-- The frame is handed out again (R167 and R169). -/
def resend (s : State) : Result :=
  respond 0 none .txResend { s with txp := 0 }

/-- The packer takes one response byte (R165 to R168). -/
def takeResponse (b : Byte) (s : State) : Result :=
  gate false true s <|
    if notAwaiting s then cmdError .txState s
    else if b = Config.ack then rspAck s
    else if b = Config.nak then resend s
    else respond 0 none .txRepoll s

/-- `TX_RSP b` (R165). -/
def execTxRsp (b : Byte) (s : State) : Result :=
  takeResponse b s

/-- `TX_TMO` (R169), after the checks of R165. -/
def execTxTmo (arg : Byte) (s : State) : Result :=
  gate (reservedWhole arg) true s <|
    if notAwaiting s then cmdError .txState s else resend s

end Sys2Proof.Machine
end

