-- ==== Sys2Proof/Machine/Unpacker.lean ====
section
/-!
DEFINITION. The frame unpacker: RX_BYTE, RX_TMO, RB_RD (43_unpacker.md).
-/

namespace Sys2Proof.Machine

/-- The frame just verified repeats the last accepted block number (42_sequencing.md R121). -/
def isDuplicate (dupSuppress : Bool) (s : State) : Bool :=
  s.lastv && (s.rbn == s.last && dupSuppress)

/-- `verdict_accept` (R141) for a given setting of `DUP_SUPPRESS`. -/
def verdictAcceptWith (dupSuppress : Bool) (s : State) : Result :=
  if isDuplicate dupSuppress s then
    respond 0 (some Config.ack) .rxDup { s with ph := .idle }
  else
    respond 0 (some Config.ack) .rxAccept
      { s with rvalid := true, seq := seqNext s.seq, last := s.rbn, lastv := true, ph := .idle }

/-- `verdict_accept` (R141). -/
def verdictAccept (s : State) : Result :=
  verdictAcceptWith Config.dupSuppress s

/-- `verdict_reject` (R142). -/
def verdictReject (s : State) : Result :=
  respond 0 (some Config.nak) .rxVerErr { s with ph := .idle }

/-- The received payload, all of it (20_memory.md R45). -/
def payloadOf (s : State) : List Byte :=
  s.rbuf.readSeq 0 Config.blk

/-- `RX_BYTE` in phase `IDLE` (R132, R133, R134). -/
def rxIdle (b : Byte) (s : State) : Result :=
  if b = Config.soh then respond 0 none .none { s with ph := .num, rvalid := false }
  else if b = Config.eot then respond 0 (some Config.ack) .rxEot { s with ph := .done }
  else respond 0 none .rxIgnored s

/-- `RX_BYTE` in phase `NUM` (R135). -/
def rxNum (b : Byte) (s : State) : Result :=
  respond 0 none .none { s with rbn := b, ph := .cmp }

/-- `RX_BYTE` in phase `CMP` (R136). -/
def rxCmp (b : Byte) (s : State) : Result :=
  if hdrOk s.rbn b then respond 0 none .none { s with rcp := b, ph := .pay, idx := 0 }
  else respond 0 (some Config.nak) .rxHdrErr { s with rcp := b, ph := .idle }

/-- `RX_BYTE` in phase `PAY` (R137). -/
def rxPay (b : Byte) (s : State) : Result :=
  storeRbuf s.idx.toNat b s fun s1 =>
    if s.idx = 127 then respond 0 none .none { s1 with ph := .ver1, idx := 0 }
    else respond 0 none .none { s1 with idx := s.idx + 1 }

/-- `RX_BYTE` in phase `VER1` (R138 in checksum mode, R139 in CRC mode). -/
def rxVer1 (b : Byte) (s : State) : Result :=
  match s.mode with
  | .checksum =>
    let v := checksum (payloadOf s)
    let s1 := { s with rver := b.setWidth 16, sum := v }
    if v = b then verdictAccept s1 else verdictReject s1
  | .crc => respond 0 none .none { s with rver := inHighByte b, ph := .ver2 }

/-- `RX_BYTE` in phase `VER2` (R140). -/
def rxVer2 (b : Byte) (s : State) : Result :=
  let v := crc16 (payloadOf s)
  let r := (s.rver &&& 0xFF00) ||| b.setWidth 16
  let s1 := { s with rver := r, crc := v }
  if v = r then verdictAccept s1 else verdictReject s1

/-- The unpacker takes one received byte (R130): the checks of R131, then the case of the phase. -/
def takeRxByte (b : Byte) (s : State) : Result :=
  gate false true s <|
    match s.ph with
    | .idle => rxIdle b s
    | .num => rxNum b s
    | .cmp => rxCmp b s
    | .pay => rxPay b s
    | .ver1 => rxVer1 b s
    | .ver2 => rxVer2 b s
    | .done => cmdError .rxDone s

/-- `RX_BYTE b` (R130). -/
def execRxByte (b : Byte) (s : State) : Result :=
  takeRxByte b s

/-- `RX_TMO` (R143), after the checks of R131. -/
def execRxTmo (arg : Byte) (s : State) : Result :=
  gate (reservedWhole arg) true s <|
    match s.ph with
    | .done => cmdError .rxDone s
    | .idle => respond 0 none .none s
    | .num | .cmp | .pay | .ver1 | .ver2 =>
      respond 0 (some Config.nak) .rxTrunc { s with ph := .idle, idx := 0 }

/-- `RB_RD i` (R144). -/
def execRbRd (arg : Byte) (s : State) : Result :=
  gate (reservedBit7 arg) true s <|
    if s.rvalid then respond ((s.rbuf.read (payloadIndex arg)).setWidth 16) none .none s
    else cmdError .noPayload s

end Sys2Proof.Machine
end

