-- ==== Sys2Proof/Machine/Wire.lean ====
section
/-!
DEFINITION. The wire items of 30_encoding.md Part A: what the unit does with the bytes when the host hands them over, one
`RX_BYTE` or `TX_RSP` each (20_memory.md R40, 43_unpacker.md R130).
-/

namespace Sys2Proof.Machine

/-- One channel byte, taken by the side it is handed to (20_memory.md R40). -/
def takeByte (side : Side) (b : Byte) (s : State) : Result :=
  match side with
  | .rx => takeRxByte b s
  | .tx => takeResponse b s

/-- The bytes of a frame, one `RX_BYTE` each in wire order, with nothing in between; the responses are kept in order. -/
def feedRx : List Byte → State → Result
  | [], s => .next { s with resp := [] }
  | b :: bs, s =>
    andThen (takeRxByte b s) fun s1 =>
      andThen (feedRx bs s1) fun s2 => .next { s2 with resp := s1.resp ++ s2.resp }

/-- The checksum-mode frame (30_encoding.md R62) reaches the unpacker. -/
def execFrameChecksum (n c : Byte) (payload : List Byte) (v : Byte) (s : State) : Result :=
  feedRx (Config.soh :: n :: c :: (payload ++ [v])) s

/-- The CRC-mode frame (30_encoding.md R63) reaches the unpacker. -/
def execFrameCrc (n c : Byte) (payload : List Byte) (hi lo : Byte) (s : State) : Result :=
  feedRx (Config.soh :: n :: c :: (payload ++ [hi, lo])) s

/-- The control byte `SOH` (30_encoding.md R60). -/
def execSoh (side : Side) (s : State) : Result :=
  takeByte side Config.soh s

/-- The control byte `EOT`. -/
def execEot (side : Side) (s : State) : Result :=
  takeByte side Config.eot s

/-- The control byte `ACK`. -/
def execAck (side : Side) (s : State) : Result :=
  takeByte side Config.ack s

/-- The control byte `NAK`. -/
def execNak (side : Side) (s : State) : Result :=
  takeByte side Config.nak s

/-- The control byte `CAN`, which both sides treat as any other byte (30_encoding.md R66). -/
def execCan (side : Side) (s : State) : Result :=
  takeByte side Config.can s

/-- The control byte `CRQ`, which both sides treat as any other byte (30_encoding.md R66). -/
def execCrq (side : Side) (s : State) : Result :=
  takeByte side Config.crq s

end Sys2Proof.Machine
end

