-- ==== Sys2Proof/Machine/Dispatch.lean ====
section
/-!
DEFINITION. The dispatch of every instruction to its meaning.
-/

namespace Sys2Proof.Machine

def exec (i : Instr) (s : State) : Host.Outcome State Fault Refusal :=
  match i with
  | .init arg => Sys2Proof.Machine.execInit arg s
  | .rd r => Sys2Proof.Machine.execRd r s
  | .sumClr arg => Sys2Proof.Machine.execSumClr arg s
  | .sumUpd b => Sys2Proof.Machine.execSumUpd b s
  | .crcClr arg => Sys2Proof.Machine.execCrcClr arg s
  | .crcUpd b => Sys2Proof.Machine.execCrcUpd b s
  | .rxByte b => Sys2Proof.Machine.execRxByte b s
  | .rxTmo arg => Sys2Proof.Machine.execRxTmo arg s
  | .rbRd arg => Sys2Proof.Machine.execRbRd arg s
  | .pkPut b => Sys2Proof.Machine.execPkPut b s
  | .pkBuild arg => Sys2Proof.Machine.execPkBuild arg s
  | .txNext arg => Sys2Proof.Machine.execTxNext arg s
  | .txRsp b => Sys2Proof.Machine.execTxRsp b s
  | .txTmo arg => Sys2Proof.Machine.execTxTmo arg s
  | .reservedOpE arg => Sys2Proof.Machine.execReservedOpE arg s
  | .reservedOpF arg => Sys2Proof.Machine.execReservedOpF arg s
  | .frameChecksum n c payload v => Sys2Proof.Machine.execFrameChecksum n c payload v s
  | .frameCrc n c payload hi lo => Sys2Proof.Machine.execFrameCrc n c payload hi lo s
  | .soh side => Sys2Proof.Machine.execSoh side s
  | .eot side => Sys2Proof.Machine.execEot side s
  | .ack side => Sys2Proof.Machine.execAck side s
  | .nak side => Sys2Proof.Machine.execNak side s
  | .can side => Sys2Proof.Machine.execCan side s
  | .crq side => Sys2Proof.Machine.execCrq side s

end Sys2Proof.Machine
end

