-- ==== Sys2Proof/WellFormed.lean ====
section
/-!
DEFINITION. Which terms of `Instr` an encoding can carry, and which commands use only operand bits the spec defines.
-/

namespace Sys2Proof

/-- A frame carries exactly one block of payload (30_encoding.md R62 and R63). -/
def payloadOk (payload : List Byte) : Bool :=
  payload.length == Config.blk

/-- The instruction has an encoding: every command does (30_encoding.md R68), and a frame does when its payload is one
block. The header complement and the verification field may hold anything: a corrupt frame is still a frame on the wire,
and the unpacker answers it (43_unpacker.md R136 and R142). -/
def Instr.wellFormed : Instr → Bool
  | .init _ | .rd _ | .sumClr _ | .sumUpd _ | .crcClr _ | .crcUpd _ | .rxByte _ | .rxTmo _ => true
  | .rbRd _ | .pkPut _ | .pkBuild _ | .txNext _ | .txRsp _ | .txTmo _ => true
  | .reservedOpE _ | .reservedOpF _ => true
  | .frameChecksum _ _ payload _ => payloadOk payload
  | .frameCrc _ _ payload _ _ => payloadOk payload
  | .soh _ | .eot _ | .ack _ | .nak _ | .can _ | .crq _ => true

/-- Every reserved operand bit of the command is 0 (30_encoding.md R70, clause 2). Wire items have no such bits, and a
reserved operation code has no operand at all. -/
def Instr.reservedClear : Instr → Bool
  | .init arg => arg >>> 1 == 0
  | .sumClr arg | .crcClr arg | .rxTmo arg | .pkBuild arg | .txNext arg | .txTmo arg => arg == 0
  | .rbRd arg => !arg.getLsbD 7
  | .rd _ | .sumUpd _ | .crcUpd _ | .rxByte _ | .pkPut _ | .txRsp _ => true
  | .reservedOpE _ | .reservedOpF _ => true
  | .frameChecksum _ _ _ _ | .frameCrc _ _ _ _ _ => true
  | .soh _ | .eot _ | .ack _ | .nak _ | .can _ | .crq _ => true

/-- The instruction is one of the fourteen operations or two reserved codes of the command interface, not a wire item
(30_encoding.md Part B). -/
def Instr.isCommand : Instr → Bool
  | .frameChecksum _ _ _ _ | .frameCrc _ _ _ _ _ => false
  | .soh _ | .eot _ | .ack _ | .nak _ | .can _ | .crq _ => false
  | .init _ | .rd _ | .sumClr _ | .sumUpd _ | .crcClr _ | .crcUpd _ | .rxByte _ | .rxTmo _ => true
  | .rbRd _ | .pkPut _ | .pkBuild _ | .txNext _ | .txRsp _ | .txTmo _ => true
  | .reservedOpE _ | .reservedOpF _ => true

/-- The operation is refused before `INIT` (30_encoding.md R69, column "needs READY"). Wire items are taken by `RX_BYTE` and
`TX_RSP`, which need it. -/
def Instr.needsReady : Instr → Bool
  | .rxByte _ | .rxTmo _ | .rbRd _ | .pkPut _ | .pkBuild _ | .txNext _ | .txRsp _ | .txTmo _ => true
  | .frameChecksum _ _ _ _ | .frameCrc _ _ _ _ _ => true
  | .soh _ | .eot _ | .ack _ | .nak _ | .can _ | .crq _ => true
  | .init _ | .rd _ | .sumClr _ | .sumUpd _ | .crcClr _ | .crcUpd _ => false
  | .reservedOpE _ | .reservedOpF _ => false

/-- How many byte or command steps the instruction is: one, or the length of a frame (30_encoding.md R62 and R63). -/
def Instr.steps : Instr → Nat
  | .frameChecksum _ _ payload _ => payload.length + 4
  | .frameCrc _ _ payload _ _ => payload.length + 5
  | .init _ | .rd _ | .sumClr _ | .sumUpd _ | .crcClr _ | .crcUpd _ | .rxByte _ | .rxTmo _ => 1
  | .rbRd _ | .pkPut _ | .pkBuild _ | .txNext _ | .txRsp _ | .txTmo _ => 1
  | .reservedOpE _ | .reservedOpF _ => 1
  | .soh _ | .eot _ | .ack _ | .nak _ | .can _ | .crq _ => 1

end Sys2Proof
end

