-- ==== Sys2Proof/Decode.lean ====
section
/-!
DEFINITION. The decoder of both encodings, total, and the encoder (30_encoding.md R60 to R69).
-/

namespace Sys2Proof

/-- The `op` field of a command word, bits 11:8 (R68). -/
def cmdOp (w : Cmd) : BitVec 4 :=
  w.extractLsb' 8 4

/-- The `arg` field of a command word, bits 7:0 (R68). -/
def cmdArg (w : Cmd) : Byte :=
  w.extractLsb' 0 8

/-- The command word with the given fields. -/
def cmdWord (op : BitVec 4) (arg : Byte) : Cmd :=
  op ++ arg

/-- The command a word names. A decoder needs only `op` (R69), so every word is some command: a word with a reserved operand
bit set is that operation with that operand, and the operation's meaning raises the error (R70). -/
def decodeCommand (w : Cmd) : Instr :=
  let arg := cmdArg w
  match (cmdOp w).toNat with
  | 0x0 => .init arg
  | 0x1 => .rd arg
  | 0x2 => .sumClr arg
  | 0x3 => .sumUpd arg
  | 0x4 => .crcClr arg
  | 0x5 => .crcUpd arg
  | 0x6 => .rxByte arg
  | 0x7 => .rxTmo arg
  | 0x8 => .rbRd arg
  | 0x9 => .pkPut arg
  | 0xA => .pkBuild arg
  | 0xB => .txNext arg
  | 0xC => .txRsp arg
  | 0xD => .txTmo arg
  | 0xE => .reservedOpE arg
  | _ => .reservedOpF arg

/-- The command by which the host hands one channel byte to a side of the unit (20_memory.md R40). -/
def byteCommand (side : Side) (b : Byte) : Instr :=
  match side with
  | .rx => .rxByte b
  | .tx => .txRsp b

/-- The control byte `b` names, if it is one of the six (R60). -/
def controlByte (side : Side) (b : Byte) : Option Instr :=
  if b = Config.soh then some (.soh side)
  else if b = Config.eot then some (.eot side)
  else if b = Config.ack then some (.ack side)
  else if b = Config.nak then some (.nak side)
  else if b = Config.can then some (.can side)
  else if b = Config.crq then some (.crq side)
  else none

/-- The frame whose header byte has been read and whose other bytes are at the front of `bs`, with the bytes after it; none
while the whole frame is not there. `MODE` alone gives the layout (R65). -/
def takeFrame (mode : VerMode) (bs : List Byte) : Option (Instr × List Byte) :=
  match bs with
  | n :: c :: rest =>
    match mode, rest.drop Config.blk with
    | .checksum, v :: left => some (.frameChecksum n c (rest.take Config.blk) v, left)
    | .crc, hi :: lo :: left => some (.frameCrc n c (rest.take Config.blk) hi lo, left)
    | _, _ => none
  | _ => none

/-- The item at the front of the channel bytes `b :: bs`, and the bytes after it (R65). Away from a frame boundary a byte is
never looked at as a control byte (R61), so it is the plain `RX_BYTE` or `TX_RSP` of that byte; so is a byte that is none
of the six at a boundary (R66). -/
def decodeWire (boundary : Bool) (mode : VerMode) (side : Side) (b : Byte) (bs : List Byte) : Instr × List Byte :=
  if boundary then
    match (if side = .rx ∧ b = Config.soh then takeFrame mode bs else none) with
    | some r => r
    | none => ((controlByte side b).getD (byteCommand side b), bs)
  else (byteCommand side b, bs)

/-- The instruction at the front of an encoding, and the channel bytes left over. -/
def decode (boundary : Bool) (mode : VerMode) : Encoded → Instr × List Byte
  | .command w => (decodeCommand w, [])
  | .wire side b bs => decodeWire boundary mode side b bs

/-- The encoding of an instruction: R69's code and the operand for a command, R60's byte for a control byte, R62's and R63's
layout for a frame. -/
def encode : Instr → Encoded
  | .init arg => .command (cmdWord 0x0 arg)
  | .rd r => .command (cmdWord 0x1 r)
  | .sumClr arg => .command (cmdWord 0x2 arg)
  | .sumUpd b => .command (cmdWord 0x3 b)
  | .crcClr arg => .command (cmdWord 0x4 arg)
  | .crcUpd b => .command (cmdWord 0x5 b)
  | .rxByte b => .command (cmdWord 0x6 b)
  | .rxTmo arg => .command (cmdWord 0x7 arg)
  | .rbRd arg => .command (cmdWord 0x8 arg)
  | .pkPut b => .command (cmdWord 0x9 b)
  | .pkBuild arg => .command (cmdWord 0xA arg)
  | .txNext arg => .command (cmdWord 0xB arg)
  | .txRsp b => .command (cmdWord 0xC b)
  | .txTmo arg => .command (cmdWord 0xD arg)
  | .reservedOpE arg => .command (cmdWord 0xE arg)
  | .reservedOpF arg => .command (cmdWord 0xF arg)
  | .frameChecksum n c payload v => .wire .rx Config.soh (n :: c :: (payload ++ [v]))
  | .frameCrc n c payload hi lo => .wire .rx Config.soh (n :: c :: (payload ++ [hi, lo]))
  | .soh side => .wire side Config.soh []
  | .eot side => .wire side Config.eot []
  | .ack side => .wire side Config.ack []
  | .nak side => .wire side Config.nak []
  | .can side => .wire side Config.can []
  | .crq side => .wire side Config.crq []

/-- The mode in which the wire layout of the instruction is read; none for an item that every mode reads alike (R65). -/
def Instr.layoutMode : Instr → Option VerMode
  | .frameChecksum _ _ _ _ => some .checksum
  | .frameCrc _ _ _ _ _ => some .crc
  | .init _ | .rd _ | .sumClr _ | .sumUpd _ | .crcClr _ | .crcUpd _ | .rxByte _ | .rxTmo _ => none
  | .rbRd _ | .pkPut _ | .pkBuild _ | .txNext _ | .txRsp _ | .txTmo _ => none
  | .reservedOpE _ | .reservedOpF _ => none
  | .soh _ | .eot _ | .ack _ | .nak _ | .can _ | .crq _ => none

/-- Why a number of bits is no encoding of the unit. -/
inductive DecodeError where
  /-- More bits than a command word has are 1. -/
  | commandTooWide
  /-- A one-byte item with a bit above bit 7. -/
  | byteTooWide
  /-- A length that is neither a byte, nor a command word, nor a frame. -/
  | noSuchLength
  /-- As many bits as a frame, but the first byte is not 0x01. -/
  | notAFrame
deriving DecidableEq, Repr

/-- The `n` bytes of `w`, the first the least significant. -/
def bytesOf : Nat → Nat → List Byte
  | 0, _ => []
  | n + 1, w => BitVec.ofNat 8 w :: bytesOf n (w / 256)

/-- The side on which a control byte arrives when nothing else says so: the bytes the receiver sends (R60: `ACK`, `NAK`, `CRQ`)
reach the sender's packer, the others the unpacker. DESIGN CHOICE, log 6. -/
def defaultSide (b : Byte) : Side :=
  if b = Config.ack ∨ b = Config.nak ∨ b = Config.crq then .tx else .rx

/-- The mode whose frame has `nbits` bits. -/
def frameMode (nbits : Nat) : Option VerMode :=
  if nbits = 8 * Config.flenSum then some .checksum
  else if nbits = 8 * Config.flenCrc then some .crc
  else none

/-- An instruction given as `nbits` bits numbered as spec/opcode_table.json numbers them, laid out as the unit takes it: up to
8 bits one channel byte, up to 16 bits a command word, the length of a frame a whole frame. -/
def layOut (nbits w : Nat) : Except DecodeError Encoded :=
  if nbits ≤ 8 then
    if w < 256 then .ok (.wire (defaultSide (BitVec.ofNat 8 w)) (BitVec.ofNat 8 w) []) else .error .byteTooWide
  else if nbits ≤ 16 then
    if w < 4096 then .ok (.command (BitVec.ofNat 12 w)) else .error .commandTooWide
  else
    match frameMode nbits with
    | none => .error .noSuchLength
    | some _ =>
      if BitVec.ofNat 8 w = Config.soh then .ok (.wire .rx Config.soh (bytesOf (nbits / 8 - 1) (w / 256)))
      else .error .notAFrame

/-- The instruction those bits are, or the name of what is wrong with them. -/
def decodeRaw (nbits w : Nat) : Except DecodeError Instr :=
  match layOut nbits w with
  | .ok e => .ok (decode true ((frameMode nbits).getD .checksum) e).1
  | .error r => .error r

/-- The instruction the decoder reads from a row's bits, none where it rejects them. -/
def decodeTableWord (nbits w : Nat) : Option Instr :=
  match decodeRaw nbits w with
  | .ok i => some i
  | .error _ => none

end Sys2Proof
end

