-- ==== Sys2Proof/Machine/Fetch.lean ====
section
/-!
DEFINITION. What the outside presents next, and placing an instruction there. The unit fetches nothing itself (10_state.md R18,
20_memory.md R51): a command is the word the host presents, and channel bytes are handed over in order.
-/

namespace Sys2Proof.Machine

/-- What the next input is: nothing, the reset input, or an instruction; with the state once that input has been taken off the
list. -/
inductive Fetched where
  | idle
  | reset (s : State)
  | instr (i : Instr) (s : State)
deriving DecidableEq, Repr

/-- The side is at a frame boundary, the only place where a control byte has its meaning (30_encoding.md R61): phase `IDLE` for
the unpacker, `TXP` = `FLEN` for the packer. With no frame outstanding both are 0, and the response byte is an error all the same
(44_packer.md R165). -/
def atBoundary (side : Side) (s : State) : Bool :=
  match side with
  | .rx => s.ph == .idle
  | .tx => s.txp == s.flen

/-- The channel bytes that remain, put back in front of the other inputs. -/
def putBack (side : Side) (left : List Byte) (rest : List Input) : List Input :=
  match left with
  | [] => rest
  | b :: bs => .item (.wire side b bs) :: rest

/-- Take the next input. -/
def fetch (s : State) : Fetched :=
  match s.pending with
  | [] => .idle
  | .reset :: rest => .reset { s with pending := rest }
  | .item (.command w) :: rest => .instr (decodeCommand w) { s with pending := rest }
  | .item (.wire side b bs) :: rest =>
    let r := decodeWire (atBoundary side s) s.mode side b bs
    .instr r.1 { s with pending := putBack side r.2 rest }

/-- `s` with one encoded instruction as the next input. A whole frame is read as a frame only at a frame boundary and in its own
mode (30_encoding.md R65), so both are set for one. -/
def placeItem (s : State) (frame : Option VerMode) (e : Encoded) : State :=
  match frame with
  | none => { s with pending := .item e :: s.pending }
  | some m => { s with ph := .idle, mode := m, pending := .item e :: s.pending }

/-- `s` with the instruction of those bits as the next input; `s` itself where they are no instruction. -/
def placeWord (s : State) (nbits w : Nat) : State :=
  match layOut nbits w with
  | .ok e => placeItem s (if nbits ≤ 16 then none else frameMode nbits) e
  | .error _ => s

end Sys2Proof.Machine
end

