-- ==== Sys2Proof/Machine/Step.lean ====
section
/-!
DEFINITION. One step: the next input is taken and acted on. Between inputs the unit holds its state and does nothing
(60_exceptions.md R219).
-/

namespace Sys2Proof.Machine

/-- One step of the unit. -/
def step (s : State) : Host.Outcome State Fault Refusal :=
  match fetch s with
  | .idle => .next s
  | .reset s' => .next s'.assertReset
  | .instr i s' => exec i s'

/-- `s` with the instruction whose bits are `w` presented next (log 11). -/
def State.withFetchWord (s : State) (nbits w : Nat) : State :=
  placeWord s nbits w

end Sys2Proof.Machine
end

