-- ==== Sys2Proof/Safety.lean ====
section
/-!
DEFINITION. The terms in which claims about runs are stated: the invariants of 10_state.md R32, a run in good order, and what of
the buffers the outside can ever see.
-/

namespace Sys2Proof

open Machine

/-- What holds in every state a run from reset reaches (10_state.md R32), less the clause of item 6 that R32 itself tells a model
to drop (`FBUF[1]` = `SEQ`), and with the canonical form of the two buffers. Item 1 is the type `Phase`. -/
structure StateInv (s : State) : Prop where
  /-- Item 2. -/
  idx_bound : s.idx.toNat ≤ 127
  /-- Item 2. -/
  idx_zero : s.ph ≠ .pay → s.idx = 0
  /-- Item 3. -/
  plen_bound : s.plen.toNat ≤ 128
  /-- Item 4. -/
  flen_values : s.flen = 0 ∨ s.flen = 132 ∨ s.flen = 133
  /-- Item 5. -/
  txp_bound : s.txp.toNat ≤ s.flen.toNat
  /-- Item 6. -/
  fvalid_flen : s.fvalid = true ↔ s.flen ≠ 0
  /-- Item 6. -/
  frame_len : s.fvalid = true → s.flen = BitVec.ofNat 8 (frameLen s.mode)
  /-- Item 6. -/
  frame_soh : s.fvalid = true → s.fbuf.read 0 = Config.soh
  /-- Item 6. -/
  frame_cpl : s.fvalid = true → s.fbuf.read 2 = cpl (s.fbuf.read 1)
  /-- Item 7. -/
  not_ready : s.ready = false → s.ph = .idle ∧ s.plen = 0 ∧ s.fvalid = false ∧ s.rvalid = false ∧ s.lastv = false ∧
    s.levt = .none ∧ s.seq = 1
  /-- Item 8. -/
  err_ecode : s.err = false ↔ s.ecode = .none
  /-- Item 9. -/
  ver2_mode : s.ph = .ver2 → s.mode = .crc
  /-- Item 10. -/
  rvalid_lastv : s.rvalid = true → s.lastv = true ∧ (s.ph = .idle ∨ s.ph = .done)
  /-- `RBUF` is in canonical form. -/
  rbuf_wf : s.rbuf.wf = true
  /-- `RBUF` has no byte above index 127. -/
  rbuf_within : s.rbuf.within rbufSize = true
  /-- `FBUF` is in canonical form. -/
  fbuf_wf : s.fbuf.wf = true
  /-- `FBUF` has no byte above index 132. -/
  fbuf_within : s.fbuf.within fbufSize = true

/-- No command error since reset: a state with `ERR` = 1 is never part of a good run (60_exceptions.md R205 and R231). -/
def InGoodOrder (s : State) : Prop :=
  s.err = false

/-- A receiver's run is over, and well (60_exceptions.md R231). -/
def ReceiverOver (s : State) : Prop :=
  s.ph = .done ∧ InGoodOrder s

/-- A byte of `RBUF` that some later step may read before it is written again (10_state.md R22, 93_implementation_defined.md V6). -/
def rbufLive (s : State) (i : Nat) : Prop :=
  match s.ph with
  | .pay => i < s.idx.toNat
  | .ver1 | .ver2 => i < rbufSize
  | .idle | .num | .cmp | .done => s.rvalid = true ∧ i < rbufSize

/-- A byte of `FBUF` that some later step may read before it is written again (10_state.md R23, 93_implementation_defined.md V6 and
V8). -/
def fbufLive (s : State) (i : Nat) : Prop :=
  if s.fvalid then i < s.flen.toNat else payloadOff ≤ i ∧ i < payloadOff + s.plen.toNat

/-- Two states that differ only in bytes of the buffers that no later step reads. -/
def SameVisible (s t : State) : Prop :=
  t = { s with rbuf := t.rbuf, fbuf := t.fbuf } ∧
    (∀ i, rbufLive s i → t.rbuf.read i = s.rbuf.read i) ∧ (∀ i, fbufLive s i → t.fbuf.read i = s.fbuf.read i)

/-- The instructions one after the other, with nothing in between: all responses in order, and the last state; none if one of
them stops. -/
def execAll : List Instr → State → Option (List Response × State)
  | [], s => some ([], s)
  | i :: is, s =>
    match exec i s with
    | .next t => (execAll is t).map fun r => (t.resp ++ r.1, r.2)
    | .fault _ => none
    | .refused _ => none

end Sys2Proof
end

