-- ==== Sys2Proof/Certificates/Slice0/Obligations.lean ====
section
/-!
DEFINITION. The statements for the provers. Each docstring names the rule of spec/ it formalises. Next states are written out as
records over the state before, so that everything not named is unchanged.
-/

namespace Sys2Proof.Claims

open Sys2Proof Sys2Proof.Machine

/-- `{err=0, data=0, txv=0, tx=0, evt=0}`. -/
def okResp : Response :=
  { err := false, data := 0, txv := false, tx := 0, evt := .none }

/-- `{err=1, data=0, txv=0, tx=0, evt=0}` (R205). -/
def errResp : Response :=
  { err := true, data := 0, txv := false, tx := 0, evt := .none }

/-- A response that carries data. -/
def dataResp (d : Half) : Response :=
  { okResp with data := d }

/-- A response that only reports an event. -/
def evtResp (e : Event) : Response :=
  { okResp with evt := e }

/-- A response with a byte for the channel. -/
def txResp (b : Byte) (e : Event) : Response :=
  { okResp with txv := true, tx := b, evt := e }

/-- `exec i s` is a command error that records `code` (R205), for a state with `ERR` = 0. -/
def ErrsWith (i : Instr) (s : State) (code : ErrCode) : Prop :=
  exec i s = .next { s with err := true, ecode := code, resp := [errResp] }

/-- `exec i s` changes nothing and answers `err` = 1 (R205, `refuse`). -/
def Refuses (i : Instr) (s : State) : Prop :=
  exec i s = .next { s with resp := [errResp] }

/-- The command word of `i` is the 12-bit word `w` (R68, R69). -/
def EncodedAs (i : Instr) (w : Nat) : Prop :=
  encode i = .command (BitVec.ofNat 12 w)

/-- `READY` = 1 and `ERR` = 0: the state in which the codec operations are not refused by the common checks (R206). -/
def Open (s : State) : Prop :=
  s.err = false ∧ s.ready = true

/-- The 128 bytes of `RBUF`, in index order. -/
def payload (s : State) : List Byte :=
  (List.range 128).map fun i => s.rbuf.read i

/-- The payload in `FBUF[3..130]`. -/
def framePayload (s : State) : List Byte :=
  (List.range 128).map fun i => s.fbuf.read (3 + i)

/-- The state that `verdict_accept` leaves (R141). -/
def acceptedState (s : State) : State :=
  if Config.dupSuppress = true ∧ s.lastv = true ∧ s.rbn = s.last then
    { s with ph := .idle, levt := .rxDup, resp := [txResp 0x06 .rxDup] }
  else
    { s with
      rvalid := true, seq := s.seq + 1, last := s.rbn, lastv := true, ph := .idle, levt := .rxAccept,
      resp := [txResp 0x06 .rxAccept] }

/-- The state that `verdict_reject` leaves (R142). -/
def rejectedState (s : State) : State :=
  { s with ph := .idle, levt := .rxVerErr, resp := [txResp 0x15 .rxVerErr] }

/-- The block with bit `k` flipped: bit `k mod 8` of byte `k div 8`. -/
def flipBit (bs : List Byte) (k : Nat) : List Byte :=
  bs.modify (k / 8) fun b => b ^^^ BitVec.twoPow 8 (k % 8)

/-- The instruction hands bytes to the unpacker or reports a timeout to it. -/
def receives : Instr → Bool
  | .rxByte _ | .rxTmo _ => true
  | .frameChecksum _ _ _ _ | .frameCrc _ _ _ _ _ => true
  | .soh side | .eot side | .ack side | .nak side | .can side | .crq side => side == .rx
  | .init _ | .rd _ | .sumClr _ | .sumUpd _ | .crcClr _ | .crcUpd _ => false
  | .rbRd _ | .pkPut _ | .pkBuild _ | .txNext _ | .txRsp _ | .txTmo _ => false
  | .reservedOpE _ | .reservedOpF _ => false

/-- The instruction drives the packer. -/
def sends : Instr → Bool
  | .pkPut _ | .pkBuild _ | .txNext _ | .txRsp _ | .txTmo _ => true
  | .soh side | .eot side | .ack side | .nak side | .can side | .crq side => side == .tx
  | .init _ | .rd _ | .sumClr _ | .sumUpd _ | .crcClr _ | .crcUpd _ => false
  | .rxByte _ | .rxTmo _ | .rbRd _ | .reservedOpE _ | .reservedOpF _ => false
  | .frameChecksum _ _ _ _ | .frameCrc _ _ _ _ _ => false

/-- The instruction is `INIT`. -/
def isInit : Instr → Bool
  | .init _ => true
  | .rd _ | .sumClr _ | .sumUpd _ | .crcClr _ | .crcUpd _ | .rxByte _ | .rxTmo _ => false
  | .rbRd _ | .pkPut _ | .pkBuild _ | .txNext _ | .txRsp _ | .txTmo _ => false
  | .reservedOpE _ | .reservedOpF _ => false
  | .frameChecksum _ _ _ _ | .frameCrc _ _ _ _ _ => false
  | .soh _ | .eot _ | .ack _ | .nak _ | .can _ | .crq _ => false

/-- The instruction is `RD`. -/
def isRd : Instr → Bool
  | .rd _ => true
  | .init _ | .sumClr _ | .sumUpd _ | .crcClr _ | .crcUpd _ | .rxByte _ | .rxTmo _ => false
  | .rbRd _ | .pkPut _ | .pkBuild _ | .txNext _ | .txRsp _ | .txTmo _ => false
  | .reservedOpE _ | .reservedOpF _ => false
  | .frameChecksum _ _ _ _ | .frameCrc _ _ _ _ _ => false
  | .soh _ | .eot _ | .ack _ | .nak _ | .can _ | .crq _ => false

/-- The instruction can return data (R71). -/
def returnsData : Instr → Bool
  | .rd _ | .rbRd _ | .txNext _ | .pkBuild _ => true
  | .init _ | .sumClr _ | .sumUpd _ | .crcClr _ | .crcUpd _ | .rxByte _ | .rxTmo _ => false
  | .pkPut _ | .txRsp _ | .txTmo _ | .reservedOpE _ | .reservedOpF _ => false
  | .frameChecksum _ _ _ _ | .frameCrc _ _ _ _ _ => false
  | .soh _ | .eot _ | .ack _ | .nak _ | .can _ | .crq _ => false

/-- The responses that report an accepted or an acknowledged block. -/
def blocksDone (rs : List Response) : Nat :=
  rs.countP fun r => r.evt == .rxAccept || r.evt == .txAdvance

/-- A `STATUS` field of one bit or more, read out of the word. -/
def field (w : Half) (lo len : Nat) : Nat :=
  (w.extractLsb' lo len).toNat

end Sys2Proof.Claims

open Sys2Proof Sys2Proof.Machine Sys2Proof.Claims

/-! ### Encodings and the step -/

/-- A step performs exactly the command word the host presents (R51, R68). -/
def Obligations.StepRunsThePresentedCommand : Prop :=
  ∀ (s : State) (w : Cmd) (rest : List Input), s.pending = .item (.command w) :: rest →
    step s = exec (decodeCommand w) { s with pending := rest }

/-- A step on the encoding of a well-formed instruction runs that instruction and takes nothing else off the list; a wire item is
read as itself at the frame boundary of its side and in its own mode (R61, R65). -/
def Obligations.StepRunsTheEncodedInstruction : Prop :=
  ∀ (s : State) (i : Instr) (rest : List Input), i.wellFormed = true →
    (i.layoutMode = none ∨ i.layoutMode = some s.mode) →
    (∀ side b bs, encode i = .wire side b bs → atBoundary side s = true) →
    s.pending = .item (encode i) :: rest →
    step s = exec i { s with pending := rest }

/-- Away from a frame boundary the next channel byte is taken alone, as the plain byte operation of its side, whatever its value
(R61). -/
def Obligations.BytesInsideAFrameAreNeverControlBytes : Prop :=
  ∀ (s : State) (side : Side) (b : Byte) (bs : List Byte) (rest : List Input),
    s.pending = .item (.wire side b bs) :: rest → atBoundary side s = false →
    ∃ left : List Input,
      ((bs = [] ∧ left = rest) ∨ (∃ c cs, bs = c :: cs ∧ left = .item (.wire side c cs) :: rest)) ∧
      ((side = .rx ∧ step s = exec (.rxByte b) { s with pending := left }) ∨
        (side = .tx ∧ step s = exec (.txRsp b) { s with pending := left }))

/-- The reset input is never ignored and sets every register to its reset value, with no response record; what it is followed by
is untouched (R240, R241). With no input the unit holds its state (R219). -/
def Obligations.ResetInputAndIdleStep : Prop :=
  (∀ (s : State) (rest : List Input), s.pending = .reset :: rest →
    ∃ t, step s = .next t ∧ t.pending = rest ∧ t.resp = [] ∧
      t.ready = false ∧ t.mode = .checksum ∧ t.err = false ∧ t.ecode = .none ∧ t.levt = .none ∧
      t.sum = 0 ∧ t.crc = 0 ∧ t.seq = 1 ∧ t.last = 0 ∧ t.lastv = false ∧ t.ph = .idle ∧ t.idx = 0 ∧
      t.rbn = 0 ∧ t.rcp = 0 ∧ t.rver = 0 ∧ t.rvalid = false ∧ t.plen = 0 ∧ t.flen = 0 ∧ t.txp = 0 ∧
      t.fvalid = false ∧ statusWord t = 0) ∧
  ∀ s : State, s.pending = [] → step s = .next s

/-- Decoding the encoding of a well-formed instruction gives it back, every operand at every value, with nothing left over. -/
def Obligations.DecodeEncodeAgree : Prop :=
  ∀ (i : Instr) (mode : VerMode), i.wellFormed = true → (i.layoutMode = none ∨ i.layoutMode = some mode) →
    decode true mode (encode i) = (i, [])

/-- Every 12-bit word is the encoding of the command it decodes to (R69: each operation has exactly one code). -/
def Obligations.EncodeDecodeAgreeOnCommandWords : Prop :=
  ∀ w : Cmd, encode (decodeCommand w) = .command w

/-- Words of the opcode table, written out from R68 and R69, decode to the row's instruction. -/
def Obligations.OpcodeTableWordsDecode : Prop :=
  decodeTableWord 16 0x001 = some (.init 1) ∧ decodeTableWord 16 0x10A = some (.rd 0x0A) ∧
  decodeTableWord 16 0x200 = some (.sumClr 0) ∧ decodeTableWord 16 0x335 = some (.sumUpd 0x35) ∧
  decodeTableWord 16 0x400 = some (.crcClr 0) ∧ decodeTableWord 16 0x531 = some (.crcUpd 0x31) ∧
  decodeTableWord 16 0x6FE = some (.rxByte 0xFE) ∧ decodeTableWord 16 0x700 = some (.rxTmo 0) ∧
  decodeTableWord 16 0x87F = some (.rbRd 127) ∧ decodeTableWord 16 0x948 = some (.pkPut 0x48) ∧
  decodeTableWord 16 0xA00 = some (.pkBuild 0) ∧ decodeTableWord 16 0xB00 = some (.txNext 0) ∧
  decodeTableWord 16 0xC15 = some (.txRsp 0x15) ∧ decodeTableWord 16 0xD00 = some (.txTmo 0) ∧
  decodeTableWord 16 0xE00 = some (.reservedOpE 0) ∧ decodeTableWord 16 0xFFF = some (.reservedOpF 0xFF) ∧
  decodeTableWord 8 0x01 = some (.soh .rx) ∧ decodeTableWord 8 0x04 = some (.eot .rx) ∧
  decodeTableWord 8 0x06 = some (.ack .tx) ∧ decodeTableWord 8 0x15 = some (.nak .tx) ∧
  decodeTableWord 8 0x18 = some (.can .rx) ∧ decodeTableWord 8 0x43 = some (.crq .tx)

/-- The length of a wire item is told from its first byte and `MODE` (R65): at a boundary 0x01 starts a frame of 132 or 133 bytes
(once they are there), every other byte is an item of its own. -/
def Obligations.WireItemLengthFromFirstByteAndMode : Prop :=
  (∀ bs : List Byte, 131 ≤ bs.length → ∃ n c p v,
    decodeWire true .checksum .rx 0x01 bs = (.frameChecksum n c p v, bs.drop 131) ∧
    n :: c :: (p ++ [v]) = bs.take 131 ∧ p.length = 128) ∧
  (∀ bs : List Byte, 132 ≤ bs.length → ∃ n c p hi lo,
    decodeWire true .crc .rx 0x01 bs = (.frameCrc n c p hi lo, bs.drop 132) ∧
    n :: c :: (p ++ [hi, lo]) = bs.take 132 ∧ p.length = 128) ∧
  (∀ (mode : VerMode) (b : Byte) (bs : List Byte), b ≠ 0x01 → (decodeWire true mode .rx b bs).2 = bs) ∧
  ∀ (mode : VerMode) (b : Byte) (bs : List Byte), (decodeWire true mode .tx b bs).2 = bs

/-! ### The pure functions -/

/-- `sum_byte` and `checksum` are sums modulo 256 (R90, R91), for sequences of any length. -/
def Obligations.ChecksumIsTheSumModulo256 : Prop :=
  (∀ s b : Byte, (sumByte s b).toNat = (s.toNat + b.toNat) % 256) ∧
  ∀ bs : List Byte, (checksum bs).toNat = (bs.map fun b => b.toNat).sum % 256

/-- The arithmetic laws of the checksum (R95, items 1 to 6). -/
def Obligations.ChecksumArithmeticLaws : Prop :=
  (∀ a : List Byte, (checksum a).toNat ≤ 0xFF) ∧
  (∀ a b : List Byte, a.Perm b → checksum a = checksum b) ∧
  (∀ a b : List Byte, checksum (a ++ b) = sumByte (checksum a) (checksum b)) ∧
  (∀ (a c : List Byte) (x y : Byte), checksum (a ++ y :: c) = checksum (a ++ x :: c) + (y - x) ∧
    (x ≠ y → checksum (a ++ y :: c) ≠ checksum (a ++ x :: c))) ∧
  (∀ (a b c : List Byte) (x y d : Byte),
    checksum (a ++ (x + d) :: (b ++ (y - d) :: c)) = checksum (a ++ x :: (b ++ y :: c))) ∧
  ∀ v : Byte, checksum (List.replicate 128 v) = if v.getLsbD 0 then 0x80 else 0x00

/-- The CRC as the rules give it (R100, R101, R102): `crc_bit` moves every bit up one place, drops bit 15, and when that was 1 inverts the
bits 12, 5 and 0; `crc_byte` is eight such steps on the register with the byte XORed into its high byte; `crc16` folds it over a sequence
from 0x0000. -/
def Obligations.CrcStepsAreAsTheRulesGive : Prop :=
  (∀ (r : Half) (k : Nat), k < 16 → (crcBit r).getLsbD k =
    ((k != 0 && r.getLsbD (k - 1)) ^^ (r.getLsbD 15 && (k == 0 || k == 5 || k == 12)))) ∧
  (∀ (r : Half) (b : Byte), crcByte r b =
    crcBit (crcBit (crcBit (crcBit (crcBit (crcBit (crcBit (crcBit (r ^^^ (b ++ (0 : Byte)))))))))) ) ∧
  crc16 [] = 0x0000 ∧ ∀ (bs : List Byte) (b : Byte), crc16 (bs ++ [b]) = crcByte (crc16 bs) b

/-- The bit-serial form (R104): one step inserts the feedback bit at taps 0, 5 and 12 and moves every other bit up; eight steps,
data bit 7 first, are `crc_byte`. -/
def Obligations.CrcBitSerialFormAgrees : Prop :=
  (∀ (r : Half) (d : Bool) (k : Nat), k < 16 → (crcSerialBit r d).getLsbD k =
    if k = 0 then r.getLsbD 15 ^^ d
    else if k = 5 ∨ k = 12 then r.getLsbD (k - 1) ^^ (r.getLsbD 15 ^^ d)
    else r.getLsbD (k - 1)) ∧
  ∀ (r : Half) (b : Byte),
    ([7, 6, 5, 4, 3, 2, 1, 0].foldl (fun r k => crcSerialBit r (b.getLsbD k)) r) = crcByte r b

/-- The byte-parallel form and the table form (R107). -/
def Obligations.CrcByteParallelFormAgrees : Prop :=
  (∀ (r : Half) (b : Byte),
    let t0 : Byte := r.extractLsb' 8 8 ^^^ b
    let t : Byte := t0 ^^^ (t0 >>> 4)
    crcByte r b = (r <<< 8) ^^^ (t.setWidth 16 <<< 12) ^^^ (t.setWidth 16 <<< 5) ^^^ t.setWidth 16) ∧
  (∀ (r : Half) (b : Byte), crcByte r b = (r <<< 8) ^^^ crcByte 0x0000 (r.extractLsb' 8 8 ^^^ b)) ∧
  ((List.range 16).map fun k => crcByte 0x0000 (BitVec.ofNat 8 k)) =
    [0x0000, 0x1021, 0x2042, 0x3063, 0x4084, 0x50A5, 0x60C6, 0x70E7,
     0x8108, 0x9129, 0xA14A, 0xB16B, 0xC18C, 0xD1AD, 0xE1CE, 0xF1EF] ∧
  crcByte 0x0000 0x80 = 0x9188 ∧ crcByte 0x0000 0xFF = 0x1EF0

/-- Linearity (R109), of the byte step and of `crc16` on sequences of one length. -/
def Obligations.CrcIsLinear : Prop :=
  (∀ (r1 r2 : Half) (b1 b2 : Byte), crcByte (r1 ^^^ r2) (b1 ^^^ b2) = crcByte r1 b1 ^^^ crcByte r2 b2) ∧
  ∀ a b : List Byte, a.length = b.length → crc16 (List.zipWith (fun x y => x ^^^ y) a b) = crc16 a ^^^ crc16 b

/-- Zero input (R110): zero bytes in front leave no trace, and an all-zero sequence, the block of 128 among them, has CRC 0x0000. -/
def Obligations.CrcOfLeadingZeros : Prop :=
  crcByte 0x0000 0x00 = 0x0000 ∧
  (∀ (k : Nat) (bs : List Byte), crc16 (List.replicate k 0x00 ++ bs) = crc16 bs) ∧
  (∀ k : Nat, crc16 (List.replicate k 0x00) = 0x0000) ∧ crc16 (List.replicate 128 0x00) = 0x0000

/-- The residue (R111): appending the CRC, high byte first, gives 0x0000, and appending any other two bytes does not, so the residue
check and the compare give the same verdict. -/
def Obligations.CrcResidueIsZero : Prop :=
  (∀ bs : List Byte, crc16 (bs ++ [(crc16 bs).extractLsb' 8 8, (crc16 bs).extractLsb' 0 8]) = 0x0000) ∧
  ∀ (bs : List Byte) (hi lo : Byte), crc16 (bs ++ [hi, lo]) = 0x0000 ↔ crc16 bs = hi ++ lo

/-- Error detection (R112): on a 128-byte block every one-bit error and every two-bit error changes the CRC; the CRC of each of the
1024 one-bit blocks is not 0x0000, and no two of them are equal. -/
def Obligations.CrcDetectsOneAndTwoBitErrors : Prop :=
  (∀ (bs : List Byte) (k : Nat), bs.length = 128 → k < 1024 → crc16 (flipBit bs k) ≠ crc16 bs) ∧
  (∀ (bs : List Byte) (k l : Nat), bs.length = 128 → k < 1024 → l < 1024 → k ≠ l →
    crc16 (flipBit (flipBit bs k) l) ≠ crc16 bs) ∧
  (∀ k : Nat, k < 1024 → crc16 (flipBit (List.replicate 128 0x00) k) ≠ 0x0000) ∧
  ∀ k l : Nat, k < 1024 → l < 1024 → k ≠ l →
    crc16 (flipBit (List.replicate 128 0x00) k) ≠ crc16 (flipBit (List.replicate 128 0x00) l)

/-- `cpl`, `hdr_ok` and `seq_next` (R115, R116, R117), with the equivalent forms the rules give. -/
def Obligations.SequencingFunctions : Prop :=
  (∀ n : Byte, (cpl n).toNat = 255 - n.toNat ∧ cpl n = n ^^^ 0xFF ∧ cpl (cpl n) = n) ∧
  (∀ n c : Byte, (hdrOk n c = true ↔ (n.toNat + c.toNat) % 256 = 255) ∧ (hdrOk n c = true ↔ c = cpl n) ∧
    (hdrOk n c = true ↔ n ^^^ c = 0xFF) ∧ (hdrOk n c = true ↔ n.toNat + c.toNat = 255)) ∧
  ∀ n : Byte, (seqNext n).toNat = (n.toNat + 1) % 256

/-! ### The common checks, command errors and responses -/

/-- The order of checks (R206): `RD` apart; then `ERR`, operation code, reserved operand bits, `READY`, and the operation's own
checks in the order its rule lists them. -/
def Obligations.OrderOfCommandChecks : Prop :=
  (∀ (r : Byte) (s : State),
    (0x0A < r.toNat → exec (.rd r) s =
      .next { s with err := true, ecode := if s.err then s.ecode else .reg, resp := [errResp] }) ∧
    (r.toNat ≤ 0x0A → ∃ d, exec (.rd r) s = .next { s with resp := [dataResp d] })) ∧
  (∀ (i : Instr) (s : State), i.isCommand = true → isRd i = false → s.err = true → Refuses i s) ∧
  (∀ (a : Byte) (s : State), s.err = false → ErrsWith (.reservedOpE a) s .opcode ∧ ErrsWith (.reservedOpF a) s .opcode) ∧
  (∀ (i : Instr) (s : State), i.isCommand = true → s.err = false → i.reservedClear = false →
    ErrsWith i s .reservedBits) ∧
  (∀ (i : Instr) (s : State), i.isCommand = true → s.err = false → i.reservedClear = true → i.needsReady = true →
    s.ready = false → ErrsWith i s .notReady) ∧
  ∀ s : State, Open s →
    (∀ b : Byte, s.ph = .done → ErrsWith (.rxByte b) s .rxDone ∧ ErrsWith (.rxTmo 0) s .rxDone) ∧
    (∀ a : Byte, a.getLsbD 7 = false → s.rvalid = false → ErrsWith (.rbRd a) s .noPayload) ∧
    (∀ b : Byte, s.fvalid = true → ErrsWith (.pkPut b) s .frameBusy ∧ ErrsWith (.pkBuild 0) s .frameBusy) ∧
    (∀ b : Byte, s.fvalid = false → s.plen = 128 → ErrsWith (.pkPut b) s .pkFull) ∧
    (s.fvalid = false → s.plen = 0 → ErrsWith (.pkBuild 0) s .pkEmpty) ∧
    (s.fvalid = false ∨ s.flen.toNat ≤ s.txp.toNat → ErrsWith (.txNext 0) s .txState) ∧
    ∀ b : Byte, s.fvalid = false ∨ s.txp ≠ s.flen → ErrsWith (.txRsp b) s .txState ∧ ErrsWith (.txTmo 0) s .txState

/-- With `ERR` = 1 the unit is frozen: whatever is presented, wire items among them, nothing changes but the responses, and all of
those are refusals unless it was `RD` (R205, R256). -/
def Obligations.FrozenWhileErrIsSet : Prop :=
  ∀ (i : Instr) (s : State), s.err = true →
    ∃ rs, exec i s = .next { s with resp := rs } ∧ (isRd i = false → rs = List.replicate i.steps errResp)

/-- `ERR` and `ECODE` (R28): `ERR` is 0 after reset; `cmd_error` latches its code only when `ERR` was 0; an instruction that sets `ERR`
leaves a code that is not `E_NONE`; once set, no instruction changes either, and in a step only the reset input clears `ERR`. -/
def Obligations.FirstErrorIsKeptUntilReset : Prop :=
  State.reset.err = false ∧
  (∀ (c : ErrCode) (s : State), cmdError c s = .next { s with
    err := true, ecode := if s.err then s.ecode else c, resp := [errResp] }) ∧
  (∀ (i : Instr) (s t : State), exec i s = .next t → s.err = true → t.err = true ∧ t.ecode = s.ecode) ∧
  (∀ (i : Instr) (s t : State), exec i s = .next t → s.err = false → t.err = true → t.ecode ≠ .none) ∧
  ∀ (s t : State), step s = .next t → s.err = true → t.err = false → ∃ rest, s.pending = .reset :: rest

/-- Every command returns one response (R71): a refused one has every other field 0; `tx` is 0 unless `txv`, and then `ACK` or `NAK`;
only unpacker steps transmit; `data` is what the operation reads, or `FLEN`, or 0. That a wire item leaves one response for each of its
bytes is no rule of the spec but the model's choice (DESIGN CHOICE, log 5). -/
def Obligations.OneResponseForEachCommand : Prop :=
  ∀ (i : Instr) (s t : State), exec i s = .next t → t.resp.length = i.steps ∧ ∀ r ∈ t.resp,
    (r.err = true → r = errResp) ∧
    (r.txv = false → r.tx = 0x00) ∧
    (r.txv = true → (r.tx = 0x06 ∨ r.tx = 0x15) ∧ receives i = true) ∧
    (returnsData i = false → r.data = 0) ∧
    (∀ x, i = .rd x → r.err = false → r.data = readRegister x s) ∧
    (∀ a, i = .rbRd a → r.err = false → r.data = (s.rbuf.read a.toNat).setWidth 16) ∧
    (∀ a, i = .txNext a → r.err = false → r.data = (s.fbuf.read s.txp.toNat).setWidth 16) ∧
    (∀ a, i = .pkBuild a → r.err = false → r.data = t.flen.setWidth 16)

/-- `LEVT` is the event of the latest response whose event was not 0 (R27): other responses leave it alone, and `INIT` clears it. -/
def Obligations.LatestEventIsLatched : Prop :=
  (∀ (i : Instr) (s t : State), isInit i = false → exec i s = .next t →
    t.levt = (((t.resp.map fun r => r.evt).filter fun e => e != .none).getLast?).getD s.levt) ∧
  ∀ (s t : State) (a : Byte), exec (.init a) s = .next t → t.err = false → t.levt = .none

/-- The register map of `RD` (R29): each index returns its register zero-extended or packed, and nothing changes. -/
def Obligations.RegisterMapOfRd : Prop :=
  (∀ x : Byte, EncodedAs (.rd x) (0x100 + x.toNat)) ∧
  ∀ s : State,
    exec (.rd 0x00) s = .next { s with resp := [dataResp (statusWord s)] } ∧
    exec (.rd 0x01) s = .next { s with resp := [dataResp (BitVec.ofNat 16 (errCode s.ecode))] } ∧
    exec (.rd 0x02) s = .next { s with resp := [dataResp s.crc] } ∧
    exec (.rd 0x03) s = .next { s with resp := [dataResp (BitVec.ofNat 16 s.sum.toNat)] } ∧
    exec (.rd 0x04) s = .next { s with resp := [dataResp (BitVec.ofNat 16 s.seq.toNat)] } ∧
    exec (.rd 0x05) s = .next { s with resp := [dataResp (BitVec.ofNat 16 (256 * s.rbn.toNat + s.rcp.toNat))] } ∧
    exec (.rd 0x06) s = .next { s with resp := [dataResp s.rver] } ∧
    exec (.rd 0x07) s = .next { s with resp := [dataResp (BitVec.ofNat 16 s.idx.toNat)] } ∧
    exec (.rd 0x08) s = .next { s with resp := [dataResp (BitVec.ofNat 16 (256 * s.flen.toNat + s.txp.toNat))] } ∧
    exec (.rd 0x09) s = .next { s with resp := [dataResp (BitVec.ofNat 16 s.plen.toNat)] } ∧
    exec (.rd 0x0A) s = .next { s with resp := [dataResp (BitVec.ofNat 16 s.last.toNat)] } ∧
    ∀ r : Byte, 0x0A < r.toNat → exec (.rd r) s =
      .next { s with err := true, ecode := if s.err then s.ecode else .reg, resp := [errResp] }

/-- The fields of the `STATUS` word (R30). -/
def Obligations.StatusWordFields : Prop :=
  ∀ s : State,
    (statusWord s).getLsbD 0 = s.ready ∧ (statusWord s).getLsbD 1 = (s.mode == .crc) ∧
    (statusWord s).getLsbD 2 = s.err ∧ (statusWord s).getLsbD 3 = s.fvalid ∧
    (statusWord s).getLsbD 4 = s.rvalid ∧ (statusWord s).getLsbD 5 = s.lastv ∧
    field (statusWord s) 6 2 = 0 ∧ field (statusWord s) 8 3 = phaseCode s.ph ∧
    (statusWord s).getLsbD 11 = false ∧ field (statusWord s) 12 4 = eventCode s.levt

/-! ### System, checksum and CRC operations -/

/-- `INIT` (R185): refused while `ERR` = 1, an error on a reserved bit, else every register at its reset value, then `READY` and `MODE`,
the buffers kept. -/
def Obligations.InitStartsASession : Prop :=
  EncodedAs (.init 0) 0x000 ∧ EncodedAs (.init 1) 0x001 ∧
  ∀ s : State,
    (∀ a : Byte, s.err = true → Refuses (.init a) s) ∧
    (∀ a : Byte, s.err = false → 1 < a.toNat → ErrsWith (.init a) s .reservedBits) ∧
    (∀ m : VerMode, s.err = false → exec (.init (if m = .crc then 1 else 0)) s = .next
      { ready := true, mode := m, err := false, ecode := .none, levt := .none, sum := 0, crc := 0, seq := 1, last := 0,
        lastv := false, ph := .idle, idx := 0, rbn := 0, rcp := 0, rver := 0, rbuf := s.rbuf, rvalid := false,
        fbuf := s.fbuf, plen := 0, flen := 0, txp := 0, fvalid := false, resp := [okResp], pending := s.pending })

/-- `SUM_CLR` and `SUM_UPD` (R92, R93). -/
def Obligations.SumOperations : Prop :=
  EncodedAs (.sumClr 0) 0x200 ∧ (∀ b : Byte, EncodedAs (.sumUpd b) (0x300 + b.toNat)) ∧
  ∀ s : State,
    (s.err = true → (∀ a : Byte, Refuses (.sumClr a) s) ∧ ∀ b : Byte, Refuses (.sumUpd b) s) ∧
    (s.err = false →
      exec (.sumClr 0) s = .next { s with sum := 0x00, resp := [okResp] } ∧
      (∀ a : Byte, a ≠ 0 → ErrsWith (.sumClr a) s .reservedBits) ∧
      ∀ b : Byte, exec (.sumUpd b) s =
        .next { s with sum := BitVec.ofNat 8 ((s.sum.toNat + b.toNat) % 256), resp := [okResp] })

/-- `CRC_CLR` and `CRC_UPD` (R105, R106). -/
def Obligations.CrcOperations : Prop :=
  EncodedAs (.crcClr 0) 0x400 ∧ (∀ b : Byte, EncodedAs (.crcUpd b) (0x500 + b.toNat)) ∧
  ∀ s : State,
    (s.err = true → (∀ a : Byte, Refuses (.crcClr a) s) ∧ ∀ b : Byte, Refuses (.crcUpd b) s) ∧
    (s.err = false →
      exec (.crcClr 0) s = .next { s with crc := 0x0000, resp := [okResp] } ∧
      (∀ a : Byte, a ≠ 0 → ErrsWith (.crcClr a) s .reservedBits) ∧
      ∀ b : Byte, exec (.crcUpd b) s = .next { s with crc := crcByte s.crc b, resp := [okResp] })

/-- Clearing and then updating with a sequence of bytes leaves its checksum in `SUM`, its CRC in `CRC`, and nothing else changed (R94,
R108). -/
def Obligations.StandaloneSumAndCrcOfASequence : Prop :=
  ∀ (s : State) (bs : List Byte), s.err = false →
    (∃ rs u, execAll (.sumClr 0 :: bs.map .sumUpd) s = some (rs, { s with sum := checksum bs, resp := u })) ∧
    ∃ rs u, execAll (.crcClr 0 :: bs.map .crcUpd) s = some (rs, { s with crc := crc16 bs, resp := u })

/-- The reserved operation codes complete as a command error, whatever their operand (R70 clause 1, R206). -/
def Obligations.ReservedOperationCodes : Prop :=
  ∀ (s : State) (a : Byte),
    (s.err = false →
      exec (.reservedOpE a) s = .next { s with err := true, ecode := .opcode, resp := [errResp] } ∧
      exec (.reservedOpF a) s = .next { s with err := true, ecode := .opcode, resp := [errResp] }) ∧
    (s.err = true → Refuses (.reservedOpE a) s ∧ Refuses (.reservedOpF a) s)

/-! ### The unpacker -/

/-- `RX_BYTE` in phase `IDLE` (R132, R133, R134). -/
def Obligations.RxByteAtTheBoundary : Prop :=
  ∀ s : State, Open s → s.ph = .idle →
    exec (.rxByte 0x01) s = .next { s with ph := .num, rvalid := false, resp := [okResp] } ∧
    exec (.rxByte 0x04) s = .next { s with ph := .done, levt := .rxEot, resp := [txResp 0x06 .rxEot] } ∧
    ∀ b : Byte, b ≠ 0x01 → b ≠ 0x04 →
      exec (.rxByte b) s = .next { s with levt := .rxIgnored, resp := [evtResp .rxIgnored] }

/-- `RX_BYTE` in phases `NUM` and `CMP` (R135, R136). -/
def Obligations.RxByteInTheHeader : Prop :=
  ∀ (s : State) (b : Byte), Open s →
    (s.ph = .num → exec (.rxByte b) s = .next { s with rbn := b, ph := .cmp, resp := [okResp] }) ∧
    (s.ph = .cmp → (s.rbn.toNat + b.toNat) % 256 = 255 →
      exec (.rxByte b) s = .next { s with rcp := b, ph := .pay, idx := 0, resp := [okResp] }) ∧
    (s.ph = .cmp → (s.rbn.toNat + b.toNat) % 256 ≠ 255 →
      exec (.rxByte b) s =
        .next { s with rcp := b, ph := .idle, levt := .rxHdrErr, resp := [txResp 0x15 .rxHdrErr] })

/-- `RX_BYTE` in phase `PAY` (R137): `RBUF[IDX]` holds the byte, every other byte of the buffer is as before, and the position
advances. -/
def Obligations.RxByteInThePayload : Prop :=
  ∀ (s : State) (b : Byte), Open s → s.ph = .pay → s.idx.toNat ≤ 127 → s.rbuf.wf = true →
    ∃ m : Memory, m.read s.idx.toNat = b ∧ (∀ a, a ≠ s.idx.toNat → m.read a = s.rbuf.read a) ∧
      exec (.rxByte b) s =
        if s.idx = 127 then .next { s with rbuf := m, ph := .ver1, idx := 0, resp := [okResp] }
        else .next { s with rbuf := m, idx := s.idx + 1, resp := [okResp] }

/-- `RX_BYTE` in phase `VER1` in checksum mode, with both verdicts (R138, R141, R142). -/
def Obligations.RxChecksumVerdict : Prop :=
  ∀ (s : State) (b : Byte), Open s → s.ph = .ver1 → s.mode = .checksum →
    exec (.rxByte b) s =
      let s1 := { s with rver := BitVec.ofNat 16 b.toNat, sum := checksum (payload s) }
      if checksum (payload s) = b then .next (acceptedState s1) else .next (rejectedState s1)

/-- `RX_BYTE` in phases `VER1` and `VER2` in CRC mode, high byte first, with both verdicts (R139, R140, R141, R142). -/
def Obligations.RxCrcVerdict : Prop :=
  ∀ (s : State) (b : Byte), Open s →
    (s.ph = .ver1 → s.mode = .crc →
      exec (.rxByte b) s = .next { s with rver := b ++ (0 : Byte), ph := .ver2, resp := [okResp] }) ∧
    (s.ph = .ver2 →
      exec (.rxByte b) s =
        let v : Half := s.rver.extractLsb' 8 8 ++ b
        let s1 := { s with rver := v, crc := crc16 (payload s) }
        if crc16 (payload s) = v then .next (acceptedState s1) else .next (rejectedState s1))

/-- `RX_TMO` (R143, with the checks of R131 in their order): nothing at a boundary, a truncation inside a frame, an error after
end-of-transmission. -/
def Obligations.RxTimeout : Prop :=
  EncodedAs (.rxTmo 0) 0x700 ∧
  (∀ (s : State) (a : Byte), s.err = true → Refuses (.rxTmo a) s) ∧
  (∀ (s : State) (a : Byte), s.err = false → a ≠ 0 → ErrsWith (.rxTmo a) s .reservedBits) ∧
  (∀ s : State, s.err = false → s.ready = false → ErrsWith (.rxTmo 0) s .notReady) ∧
  ∀ s : State, Open s →
    (s.ph = .idle → exec (.rxTmo 0) s = .next { s with resp := [okResp] }) ∧
    (s.ph ≠ .idle → s.ph ≠ .done →
      exec (.rxTmo 0) s = .next { s with ph := .idle, idx := 0, levt := .rxTrunc, resp := [txResp 0x15 .rxTrunc] }) ∧
    (s.ph = .done → ErrsWith (.rxTmo 0) s .rxDone)

/-- `RB_RD` (R144): the byte comes back zero-extended, nothing changes, and each check has its error. -/
def Obligations.PayloadRead : Prop :=
  (∀ a : Byte, EncodedAs (.rbRd a) (0x800 + a.toNat)) ∧
  ∀ (s : State) (a : Byte),
    (s.err = true → Refuses (.rbRd a) s) ∧
    (s.err = false → 128 ≤ a.toNat → ErrsWith (.rbRd a) s .reservedBits) ∧
    (s.err = false → a.toNat < 128 → s.ready = false → ErrsWith (.rbRd a) s .notReady) ∧
    (Open s → a.toNat < 128 → s.rvalid = false → ErrsWith (.rbRd a) s .noPayload) ∧
    (Open s → a.toNat < 128 → s.rvalid = true →
      exec (.rbRd a) s = .next { s with resp := [dataResp (BitVec.ofNat 16 (s.rbuf.read a.toNat).toNat)] })

/-- Phase `DONE` is left only by `INIT` (R131): every other instruction keeps it, and receive input there is an error. -/
def Obligations.DoneIsLeftOnlyByInit : Prop :=
  (∀ (i : Instr) (s t : State), s.ph = .done → isInit i = false → exec i s = .next t → t.ph = .done) ∧
  ∀ (s : State) (b : Byte), ReceiverOver s → s.ready = true →
    ErrsWith (.rxByte b) s .rxDone ∧ ErrsWith (.rxTmo 0) s .rxDone

/-! ### The packer -/

/-- `PK_PUT` (R161): the byte goes to `FBUF[3 + PLEN]`, every other byte of the buffer is as before, and `PLEN` advances. -/
def Obligations.ChunkByteIsLoaded : Prop :=
  (∀ b : Byte, EncodedAs (.pkPut b) (0x900 + b.toNat)) ∧
  ∀ (s : State) (b : Byte),
    (s.err = true → Refuses (.pkPut b) s) ∧
    (s.err = false → s.ready = false → ErrsWith (.pkPut b) s .notReady) ∧
    (Open s → s.fvalid = true → ErrsWith (.pkPut b) s .frameBusy) ∧
    (Open s → s.fvalid = false → s.plen = 128 → ErrsWith (.pkPut b) s .pkFull) ∧
    (Open s → s.fvalid = false → s.plen.toNat < 128 → s.fbuf.wf = true →
      ∃ m : Memory, m.read (3 + s.plen.toNat) = b ∧ (∀ a, a ≠ 3 + s.plen.toNat → m.read a = s.fbuf.read a) ∧
        exec (.pkPut b) s = .next { s with fbuf := m, plen := s.plen + 1, resp := [okResp] })

/-- `PK_BUILD` (R162, R163, R170): the layout of the built frame byte by byte, the padding, and every byte that is not written unchanged;
the verification register of the other mode is not touched. -/
def Obligations.FrameIsBuilt : Prop :=
  EncodedAs (.pkBuild 0) 0xA00 ∧
  (∀ (s : State) (a : Byte), s.err = true → Refuses (.pkBuild a) s) ∧
  (∀ (s : State) (a : Byte), s.err = false → a ≠ 0 → ErrsWith (.pkBuild a) s .reservedBits) ∧
  (∀ s : State, s.err = false → s.ready = false → ErrsWith (.pkBuild 0) s .notReady) ∧
  (∀ s : State, Open s → s.fvalid = true → ErrsWith (.pkBuild 0) s .frameBusy) ∧
  (∀ s : State, Open s → s.fvalid = false → s.plen = 0 → ErrsWith (.pkBuild 0) s .pkEmpty) ∧
  ∀ s : State, Open s → s.fvalid = false → s.plen ≠ 0 → s.plen.toNat ≤ 128 → s.fbuf.wf = true →
    ∃ t : State, exec (.pkBuild 0) s = .next t ∧
      t.fbuf.read 0 = 0x01 ∧ t.fbuf.read 1 = s.seq ∧ t.fbuf.read 2 = 255 - s.seq ∧
      (∀ k, k < s.plen.toNat → t.fbuf.read (3 + k) = s.fbuf.read (3 + k)) ∧
      (∀ k, s.plen.toNat ≤ k → k < 128 → t.fbuf.read (3 + k) = 0x1A) ∧
      (∀ a, 133 ≤ a → t.fbuf.read a = s.fbuf.read a) ∧
      (s.mode = .checksum →
        t.fbuf.read 131 = checksum (framePayload t) ∧ t.fbuf.read 132 = s.fbuf.read 132 ∧
        t = { s with
          fbuf := t.fbuf, sum := checksum (framePayload t), flen := 132, txp := 0, fvalid := true,
          resp := [dataResp 132] }) ∧
      (s.mode = .crc →
        t.fbuf.read 131 = (crc16 (framePayload t)).extractLsb' 8 8 ∧
        t.fbuf.read 132 = (crc16 (framePayload t)).extractLsb' 0 8 ∧
        t = { s with
          fbuf := t.fbuf, crc := crc16 (framePayload t), flen := 133, txp := 0, fvalid := true,
          resp := [dataResp 133] })

/-- `TX_NEXT` (R164): the byte at `TXP` comes back, `TXP` advances, and the last byte is reported. -/
def Obligations.NextFrameByte : Prop :=
  EncodedAs (.txNext 0) 0xB00 ∧
  (∀ (s : State) (a : Byte), s.err = true → Refuses (.txNext a) s) ∧
  (∀ (s : State) (a : Byte), s.err = false → a ≠ 0 → ErrsWith (.txNext a) s .reservedBits) ∧
  (∀ s : State, s.err = false → s.ready = false → ErrsWith (.txNext 0) s .notReady) ∧
  (∀ s : State, Open s → s.fvalid = false ∨ s.flen.toNat ≤ s.txp.toNat → ErrsWith (.txNext 0) s .txState) ∧
  ∀ s : State, Open s → s.fvalid = true → s.txp.toNat < s.flen.toNat → s.flen.toNat ≤ 133 →
    exec (.txNext 0) s =
      let d := BitVec.ofNat 16 (s.fbuf.read s.txp.toNat).toNat
      if s.txp.toNat = s.flen.toNat - 1 then
        .next { s with
          txp := s.txp + 1, levt := .txLast,
          resp := [{ err := false, data := d, txv := false, tx := 0, evt := .txLast }] }
      else .next { s with txp := s.txp + 1, resp := [dataResp d] }

/-- `TX_RSP` (R165, R166, R167, R168): `ACK` ends the block, `NAK` rewinds the frame, any other byte changes nothing but `LEVT`; with no
whole frame handed out it is an error. -/
def Obligations.ResponseByteTaken : Prop :=
  (∀ b : Byte, EncodedAs (.txRsp b) (0xC00 + b.toNat)) ∧
  ∀ (s : State) (b : Byte),
    (s.err = true → Refuses (.txRsp b) s) ∧
    (s.err = false → s.ready = false → ErrsWith (.txRsp b) s .notReady) ∧
    (Open s → s.fvalid = false ∨ s.txp ≠ s.flen → ErrsWith (.txRsp b) s .txState) ∧
    (Open s → s.fvalid = true → s.txp = s.flen → exec (.txRsp b) s =
      if b = 0x06 then
        .next { s with
          seq := s.seq + 1, fvalid := false, plen := 0, txp := 0, flen := 0, levt := .txAdvance,
          resp := [evtResp .txAdvance] }
      else if b = 0x15 then .next { s with txp := 0, levt := .txResend, resp := [evtResp .txResend] }
      else .next { s with levt := .txRepoll, resp := [evtResp .txRepoll] })

/-- `TX_TMO` (R165, R169): the frame is rewound; with no whole frame handed out it is an error. -/
def Obligations.ResponseTimeout : Prop :=
  EncodedAs (.txTmo 0) 0xD00 ∧
  (∀ (s : State) (a : Byte), s.err = true → Refuses (.txTmo a) s) ∧
  (∀ (s : State) (a : Byte), s.err = false → a ≠ 0 → ErrsWith (.txTmo a) s .reservedBits) ∧
  (∀ s : State, s.err = false → s.ready = false → ErrsWith (.txTmo 0) s .notReady) ∧
  (∀ s : State, Open s → s.fvalid = false ∨ s.txp ≠ s.flen → ErrsWith (.txTmo 0) s .txState) ∧
  ∀ s : State, Open s → s.fvalid = true → s.txp = s.flen →
    exec (.txTmo 0) s = .next { s with txp := 0, levt := .txResend, resp := [evtResp .txResend] }

/-- One pass of `FLEN` `TX_NEXT` steps hands out the whole frame in order and changes only `TXP`, `LEVT` and the responses, so every pass
hands out the same bytes (R164, R171). -/
def Obligations.OnePassHandsOutTheFrame : Prop :=
  ∀ s : State, Open s → s.fvalid = true → s.txp = 0 → 0 < s.flen.toNat → s.flen.toNat ≤ 133 →
    ∃ rs u, execAll (List.replicate s.flen.toNat (.txNext 0)) s =
        some (rs, { s with txp := s.flen, levt := .txLast, resp := u }) ∧
      (rs.map fun r => r.data) = (List.range s.flen.toNat).map fun k => (s.fbuf.read k).setWidth 16

/-- Resend identity and lock-step (R171, R124): while a frame is outstanding, no instruction but `INIT` and the `ACK` that ends the block
changes its length or the fact that it is outstanding, and no instruction at all changes a byte of it; on a unit used for sending only,
the block number in the frame stays `SEQ`. -/
def Obligations.OutstandingFrameIsKept : Prop :=
  ∀ (i : Instr) (s t : State), s.fvalid = true → exec i s = .next t →
    (∀ a, t.fbuf.read a = s.fbuf.read a) ∧
    (isInit i = false → i ≠ .txRsp 0x06 → i ≠ .ack .tx →
      t.flen = s.flen ∧ t.fvalid = true ∧ t.plen = s.plen ∧ (receives i = false → t.seq = s.seq))

/-! ### Wire items -/

/-- The six control bytes handed to the unpacker at a frame boundary (R60, R66, R132 to R134): `SOH` starts a frame, `EOT` ends the session,
the others are ignored. -/
def Obligations.ControlBytesAtTheUnpacker : Prop :=
  ∀ s : State, Open s → s.ph = .idle →
    exec (.soh .rx) s = .next { s with ph := .num, rvalid := false, resp := [okResp] } ∧
    exec (.eot .rx) s = .next { s with ph := .done, levt := .rxEot, resp := [txResp 0x06 .rxEot] } ∧
    exec (.ack .rx) s = .next { s with levt := .rxIgnored, resp := [evtResp .rxIgnored] } ∧
    exec (.nak .rx) s = .next { s with levt := .rxIgnored, resp := [evtResp .rxIgnored] } ∧
    exec (.can .rx) s = .next { s with levt := .rxIgnored, resp := [evtResp .rxIgnored] } ∧
    exec (.crq .rx) s = .next { s with levt := .rxIgnored, resp := [evtResp .rxIgnored] }

/-- The six control bytes handed to the packer once the whole frame is out (R60, R66, R166 to R168): `ACK` ends the block, `NAK` rewinds, the
others re-poll. -/
def Obligations.ControlBytesAtThePacker : Prop :=
  ∀ s : State, Open s → s.fvalid = true → s.txp = s.flen →
    exec (.ack .tx) s = .next { s with
      seq := s.seq + 1, fvalid := false, plen := 0, txp := 0, flen := 0, levt := .txAdvance,
      resp := [evtResp .txAdvance] } ∧
    exec (.nak .tx) s = .next { s with txp := 0, levt := .txResend, resp := [evtResp .txResend] } ∧
    exec (.soh .tx) s = .next { s with levt := .txRepoll, resp := [evtResp .txRepoll] } ∧
    exec (.eot .tx) s = .next { s with levt := .txRepoll, resp := [evtResp .txRepoll] } ∧
    exec (.can .tx) s = .next { s with levt := .txRepoll, resp := [evtResp .txRepoll] } ∧
    exec (.crq .tx) s = .next { s with levt := .txRepoll, resp := [evtResp .txRepoll] }

/-- In every state a control byte is exactly the byte operation of its side (R61: it has no other meaning away from a boundary), and a frame
is its bytes one `RX_BYTE` each with nothing in between (R130). -/
def Obligations.WireItemsAreTheirBytes : Prop :=
  (∀ s : State,
    exec (.soh .rx) s = exec (.rxByte 0x01) s ∧ exec (.soh .tx) s = exec (.txRsp 0x01) s ∧
    exec (.eot .rx) s = exec (.rxByte 0x04) s ∧ exec (.eot .tx) s = exec (.txRsp 0x04) s ∧
    exec (.ack .rx) s = exec (.rxByte 0x06) s ∧ exec (.ack .tx) s = exec (.txRsp 0x06) s ∧
    exec (.nak .rx) s = exec (.rxByte 0x15) s ∧ exec (.nak .tx) s = exec (.txRsp 0x15) s ∧
    exec (.can .rx) s = exec (.rxByte 0x18) s ∧ exec (.can .tx) s = exec (.txRsp 0x18) s ∧
    exec (.crq .rx) s = exec (.rxByte 0x43) s ∧ exec (.crq .tx) s = exec (.txRsp 0x43) s) ∧
  (∀ (s t : State) (n c v : Byte) (p : List Byte), exec (.frameChecksum n c p v) s = .next t ↔
    ∃ u, execAll ((0x01 :: n :: c :: (p ++ [v])).map .rxByte) s = some (t.resp, u) ∧ t = { u with resp := t.resp }) ∧
  ∀ (s t : State) (n c hi lo : Byte) (p : List Byte), exec (.frameCrc n c p hi lo) s = .next t ↔
    ∃ u, execAll ((0x01 :: n :: c :: (p ++ [hi, lo])).map .rxByte) s = some (t.resp, u) ∧
      t = { u with resp := t.resp }

/-- A checksum-mode frame with a consistent header (R62, R132 to R142): the whole frame is taken, the payload is in `RBUF` byte by byte, no
response before the last transmits, and the verdict is on the checksum alone: a match is accepted (or is a duplicate), a mismatch is
answered with `NAK` and advances nothing. Nothing else changes. -/
def Obligations.ChecksumFrameIsJudged : Prop :=
  ∀ (s : State) (n v : Byte) (p : List Byte), Open s → s.ph = .idle → s.mode = .checksum → s.idx = 0 →
    p.length = 128 → s.rbuf.wf = true →
    ∃ m : Memory, (∀ k (h : k < p.length), m.read k = p[k]) ∧ (∀ a, 128 ≤ a → m.read a = s.rbuf.read a) ∧
      let s1 := { s with
        rbuf := m, rvalid := false, rbn := n, rcp := 255 - n, rver := BitVec.ofNat 16 v.toNat, sum := checksum p }
      let t := if checksum p = v then acceptedState s1 else rejectedState s1
      exec (.frameChecksum n (255 - n) p v) s = .next { t with resp := List.replicate 131 okResp ++ t.resp }

/-- A CRC-mode frame with a consistent header (R63, R132 to R142), the verification field high byte first. -/
def Obligations.CrcFrameIsJudged : Prop :=
  ∀ (s : State) (n hi lo : Byte) (p : List Byte), Open s → s.ph = .idle → s.mode = .crc → s.idx = 0 →
    p.length = 128 → s.rbuf.wf = true →
    ∃ m : Memory, (∀ k (h : k < p.length), m.read k = p[k]) ∧ (∀ a, 128 ≤ a → m.read a = s.rbuf.read a) ∧
      let s1 := { s with
        rbuf := m, rvalid := false, rbn := n, rcp := 255 - n, rver := hi ++ lo, crc := crc16 p }
      let t := if crc16 p = hi ++ lo then acceptedState s1 else rejectedState s1
      exec (.frameCrc n (255 - n) p hi lo) s = .next { t with resp := List.replicate 132 okResp ++ t.resp }

/-- The round trip (R147): the bytes a unit hands out after `PK_BUILD`, fed in order to a unit in the same mode at a frame boundary, are
accepted at the last byte and not before, and give back the block number, its complement and the padded chunk. -/
def Obligations.PackedFrameIsUnpacked : Prop :=
  ∀ s r : State, Open s → s.fvalid = false → s.plen ≠ 0 → s.plen.toNat ≤ 128 → s.fbuf.wf = true →
    Open r → r.mode = s.mode → r.ph = .idle → r.idx = 0 → r.rbuf.wf = true →
    (Config.dupSuppress = false ∨ r.lastv = false ∨ r.last ≠ s.seq) →
    ∃ rs t us u,
      execAll (.pkBuild 0 :: List.replicate (frameLen s.mode) (.txNext 0)) s = some (rs, t) ∧
      execAll (rs.tail.map fun x => .rxByte (x.data.setWidth 8)) r = some (us, u) ∧
      (∀ x ∈ us.dropLast, x.txv = false) ∧ us.getLast? = some (txResp 0x06 .rxAccept) ∧
      u.rbn = s.seq ∧ u.rcp = 255 - s.seq ∧ u.rvalid = true ∧ u.seq = r.seq + 1 ∧
      (∀ k, k < s.plen.toNat → u.rbuf.read k = s.fbuf.read (3 + k)) ∧
      ∀ k, s.plen.toNat ≤ k → k < 128 → u.rbuf.read k = 0x1A

/-! ### What instructions leave alone -/

/-- An unpacker step changes nothing of the send side, nor `READY`, `MODE`, nor what is still to be presented (R201), and only
the active mode's register of `SUM` and `CRC` (R251). -/
def Obligations.UnpackerLeavesTheSendSide : Prop :=
  ∀ (i : Instr) (s t : State), receives i = true → exec i s = .next t →
    (∀ a, t.fbuf.read a = s.fbuf.read a) ∧ t.plen = s.plen ∧ t.flen = s.flen ∧ t.txp = s.txp ∧ t.fvalid = s.fvalid ∧
    t.ready = s.ready ∧ t.mode = s.mode ∧ t.pending = s.pending ∧
    (s.mode = .checksum → s.ph ≠ .ver2 → t.crc = s.crc) ∧ (s.mode = .crc → t.sum = s.sum)

/-- A packer step changes nothing of the receive side, nor `READY`, `MODE`, nor what is still to be presented (R163, R166). -/
def Obligations.PackerLeavesTheReceiveSide : Prop :=
  ∀ (i : Instr) (s t : State), sends i = true → exec i s = .next t →
    (∀ a, t.rbuf.read a = s.rbuf.read a) ∧ t.ph = s.ph ∧ t.idx = s.idx ∧ t.rbn = s.rbn ∧ t.rcp = s.rcp ∧ t.rver = s.rver ∧
    t.rvalid = s.rvalid ∧ t.last = s.last ∧ t.lastv = s.lastv ∧
    t.ready = s.ready ∧ t.mode = s.mode ∧ t.pending = s.pending

/-- Only `INIT` writes `MODE` and `READY` (R185), and only commands of the two codecs and `INIT` change a byte of a buffer or a position:
`RD`, `RB_RD`, the checksum and CRC operations and the reserved codes leave everything but `SUM`, `CRC`, `ERR`, `ECODE` and the response. -/
def Obligations.ModeIsFixedForTheSession : Prop :=
  (∀ (i : Instr) (s t : State), isInit i = false → exec i s = .next t → t.mode = s.mode ∧ t.ready = s.ready) ∧
  ∀ (i : Instr) (s t : State), isInit i = false → receives i = false → sends i = false → exec i s = .next t →
    t = { s with sum := t.sum, crc := t.crc, err := t.err, ecode := t.ecode, resp := t.resp }

/-- `SEQ` advances by one for each accepted or acknowledged block and for nothing else; `INIT` sets it to 1 (R118). -/
def Obligations.BlockCounterAdvancesOnAcceptanceOnly : Prop :=
  (∀ (i : Instr) (s t : State), isInit i = false → exec i s = .next t →
    t.seq = s.seq + BitVec.ofNat 8 (blocksDone t.resp)) ∧
  ∀ (s t : State) (a : Byte), exec (.init a) s = .next t → t.err = false → t.seq = 0x01

/-- The unit neither reads nor changes what is still to be presented (R11, R51): an instruction does the same whatever follows it. -/
def Obligations.PendingInputsDoNotInterfere : Prop :=
  ∀ (i : Instr) (s : State) (ps : List Input),
    exec i { s with pending := ps } =
      match exec i s with
      | .next t => .next { t with pending := ps }
      | .fault f => .fault f
      | .refused f => .refused f

/-! ### Invariants -/

/-- The invariants of R32 hold at reset. -/
def Obligations.ReachableFactsHoldAtReset : Prop :=
  StateInv State.reset

/-- Every step, whatever is presented, keeps the invariants of R32. -/
def Obligations.StepKeepsReachableFacts : Prop :=
  ∀ s t : State, StateInv s → step s = .next t → StateInv t

/-- Under the invariants every instruction and every step answers a next state: nothing faults and nothing is refused by the model (R6: the
rules give a result for every command in every state). -/
def Obligations.EveryCommandHasAResult : Prop :=
  (∀ (i : Instr) (s : State), StateInv s → ∃ t, exec i s = .next t) ∧ ∀ s : State, StateInv s → ∃ t, step s = .next t

/-- The unspecified contents of the buffers are never observed (R31): two states that differ only in bytes no later step reads take the same
step, with the same responses, to two such states. -/
def Obligations.UnwrittenBufferBytesAreUnobservable : Prop :=
  ∀ s t s' : State, StateInv s → StateInv t → SameVisible s t → step s = .next s' → ∃ t', step t = .next t' ∧ SameVisible s' t'
end

