-- ==== Sys2Proof/Laws/Codec.lean ====
section
/-!
SUPPORT. What the checksum and the CRC do with a byte more, and that the CRC step is linear and loses nothing.
-/

namespace Sys2Proof.Machine

/-! ### Additive checksum -/

theorem foldl_sumByte (s : Byte) (bs : List Byte) : bs.foldl sumByte s = s + checksum bs := by
  induction bs generalizing s with
  | nil => simp [checksum]
  | cons b bs ih =>
    simp only [checksum, List.foldl_cons]
    rw [ih, ih]
    simp [sumByte, BitVec.add_assoc]

theorem checksum_cons (b : Byte) (bs : List Byte) : checksum (b :: bs) = b + checksum bs := by
  simp only [checksum, List.foldl_cons]
  rw [foldl_sumByte]
  simp [sumByte, checksum]

/-! ### CRC -/

theorem inHighByte_xor (a b : Byte) : inHighByte (a ^^^ b) = inHighByte a ^^^ inHighByte b := by
  simp [inHighByte, BitVec.shiftLeft_xor_distrib]

theorem crcBit_xor (r q : Half) : crcBit (r ^^^ q) = crcBit r ^^^ crcBit q := by
  have hx : (r ^^^ q).getLsbD 15 = (r.getLsbD 15 ^^ q.getLsbD 15) := BitVec.getLsbD_xor
  have hs : (r ^^^ q) <<< 1 = r <<< 1 ^^^ q <<< 1 := BitVec.shiftLeft_xor_distrib ..
  unfold crcBit
  rw [hx, hs]
  generalize r.getLsbD 15 = x
  generalize q.getLsbD 15 = y
  generalize r <<< 1 = a
  generalize q <<< 1 = b
  cases x <;> cases y <;> simp
  · ac_rfl
  · ac_rfl
  · rw [show a ^^^ Config.poly ^^^ (b ^^^ Config.poly) = a ^^^ b ^^^ (Config.poly ^^^ Config.poly) by ac_rfl]
    simp

theorem crcBits_xor (n : Nat) (r q : Half) : crcBits n (r ^^^ q) = crcBits n r ^^^ crcBits n q := by
  induction n generalizing r q with
  | zero => rfl
  | succ n ih => simp only [crcBits, crcBit_xor, ih]

theorem crcBits_crcBits (m n : Nat) (r : Half) : crcBits m (crcBits n r) = crcBits (n + m) r := by
  induction n generalizing r with
  | zero => simp [crcBits]
  | succ n ih =>
    rw [show n + 1 + m = (n + m) + 1 by omega]
    simp only [crcBits, ih]

/-- Each bit of one step: bit 15 goes out, and where it was 1 it comes back at the taps 0, 5 and 12. -/
theorem crcBit_getLsbD (r : Half) {k : Nat} (hk : k < 16) : (crcBit r).getLsbD k =
    ((k != 0 && r.getLsbD (k - 1)) ^^ (r.getLsbD 15 && (k == 0 || k == 5 || k == 12))) := by
  unfold crcBit Config.poly
  cases h : r.getLsbD 15 <;> simp [hk] <;> interval_cases k <;> simp

/-- A step loses nothing: only 0 goes to 0. -/
theorem crcBit_eq_zero {r : Half} (h : crcBit r = 0) : r = 0 := by
  have hb : ∀ k, k < 16 → _ := fun k hk => crcBit_getLsbD r (k := k) hk
  rw [h] at hb
  have h15 : r.getLsbD 15 = false := by simpa using hb 0 (by omega)
  apply BitVec.eq_of_getLsbD_eq
  intro k hk
  by_cases hk15 : k = 15
  · rw [hk15, h15]
    simp
  · have := hb (k + 1) (by omega)
    rw [h15] at this
    simpa using this.symm

theorem crcBits_eq_zero {n : Nat} {r : Half} (h : crcBits n r = 0) : r = 0 := by
  induction n generalizing r with
  | zero => exact h
  | succ n ih => exact crcBit_eq_zero (ih h)

/-- A byte in the low half moves to the high half untouched. -/
theorem crcBits_low : ∀ b : Byte, crcBits 8 (b.setWidth 16) = inHighByte b := by
  decide +kernel

/-- A 16-bit value is its high byte and its low byte. -/
theorem eq_high_xor_low (r : Half) : r = inHighByte (hiByte r) ^^^ (loByte r).setWidth 16 := by
  apply BitVec.eq_of_getLsbD_eq
  intro k hk
  simp only [inHighByte, hiByte, loByte]
  by_cases h : k < 8
  · simp [h, hk]
  · have h1 : 8 + (k - 8) = k := by omega
    have h2 : k - 8 < 8 := by omega
    simp [h, hk, h1, h2]

end Sys2Proof.Machine
end

