-- ==== Sys2Proof/Laws/Decode.lean ====
section
/-!
SUPPORT. The fields of a command word, and the layouts of a frame.
-/

namespace Sys2Proof

@[simp] theorem cmdOp_cmdWord (op : BitVec 4) (arg : Byte) : cmdOp (cmdWord op arg) = op := by
  change BitVec.extractLsb' 8 4 (op ++ arg : BitVec (4 + 8)) = op
  apply BitVec.eq_of_getLsbD_eq
  intro k hk
  rw [BitVec.getLsbD_extractLsb', BitVec.getLsbD_append]
  simp [hk]

@[simp] theorem cmdArg_cmdWord (op : BitVec 4) (arg : Byte) : cmdArg (cmdWord op arg) = arg := by
  change BitVec.extractLsb' 0 8 (op ++ arg : BitVec (4 + 8)) = arg
  apply BitVec.eq_of_getLsbD_eq
  intro k hk
  rw [BitVec.getLsbD_extractLsb', BitVec.getLsbD_append]
  simp [hk]

/-- A command word is its two fields. -/
theorem cmdWord_fields (w : Cmd) : cmdWord (cmdOp w) (cmdArg w) = w := by
  change (w.extractLsb' 8 4 ++ w.extractLsb' 0 8 : BitVec (4 + 8)) = w
  apply BitVec.eq_of_getLsbD_eq
  intro k hk
  rw [BitVec.getLsbD_append]
  split
  · simp [*]
  · have h1 : 8 + (k - 8) = k := by omega
    have h2 : k - 8 < 4 := by omega
    simp [h1, h2]

@[simp] theorem takeFrame_nil (mode : VerMode) : takeFrame mode [] = none := by
  cases mode <;> rfl

theorem takeFrame_checksum {n c v : Byte} {payload left : List Byte} (h : payload.length = Config.blk) :
    takeFrame .checksum (n :: c :: (payload ++ v :: left)) = some (.frameChecksum n c payload v, left) := by
  simp [takeFrame, ← h]

theorem takeFrame_crc {n c hi lo : Byte} {payload left : List Byte} (h : payload.length = Config.blk) :
    takeFrame .crc (n :: c :: (payload ++ hi :: lo :: left)) = some (.frameCrc n c payload hi lo, left) := by
  simp [takeFrame, ← h]

end Sys2Proof
end

