-- ==== Sys2Proof/Laws/Memory.lean ====
section
/-!
SUPPORT. What the operations over the buffers do: a read after a write, and that every write keeps the canonical form and the size.
-/

namespace Sys2Proof.Machine

theorem Memory.wfFrom_mono {lo lo' : Nat} {m : Memory} (h : Memory.wfFrom lo m = true) (hl : lo' ≤ lo) :
    Memory.wfFrom lo' m = true := by
  cases m with
  | nil => rfl
  | cons c m =>
    simp only [Memory.wfFrom, Bool.and_eq_true, decide_eq_true_eq] at h ⊢
    exact ⟨hl.trans h.1, h.2⟩

theorem Memory.wfFrom_wf {lo : Nat} {m : Memory} (h : Memory.wfFrom lo m = true) : m.wf = true :=
  Memory.wfFrom_mono h (Nat.zero_le lo)

/-- Below its first possible index a canonical buffer lists nothing. -/
theorem Memory.read_below {lo a : Nat} {m : Memory} (h : Memory.wfFrom lo m = true) (ha : a < lo) :
    Memory.read m a = Memory.unlisted := by
  induction m generalizing lo with
  | nil => rfl
  | cons c m ih =>
    obtain ⟨k, v⟩ := c
    simp only [Memory.wfFrom, Bool.and_eq_true, decide_eq_true_eq] at h
    have hk : k ≠ a := by omega
    simp only [Memory.read, if_neg hk]
    exact ih h.2.2 (by omega)

theorem Memory.wfFrom_write {lo a : Nat} {m : Memory} (v : Byte) (h : Memory.wfFrom lo m = true) (ha : lo ≤ a) :
    Memory.wfFrom lo (Memory.write m a v) = true := by
  induction m generalizing lo with
  | nil =>
    by_cases hv : v = Memory.unlisted <;> simp [Memory.write, Memory.wfFrom, hv, ha]
  | cons c m ih =>
    obtain ⟨k, w⟩ := c
    simp only [Memory.wfFrom, Bool.and_eq_true, decide_eq_true_eq, bne_iff_ne] at h
    obtain ⟨hlo, hw, hm⟩ := h
    by_cases hlt : a < k
    · by_cases hv : v = Memory.unlisted
      · simp [Memory.write, hlt, hv, Memory.wfFrom, hlo, hw, hm]
      · simp [Memory.write, hlt, hv, Memory.wfFrom, ha, hw, hm, Nat.succ_le_of_lt hlt]
    · by_cases heq : a = k
      · subst heq
        by_cases hv : v = Memory.unlisted
        · simpa [Memory.write, hv] using Memory.wfFrom_mono hm (by omega)
        · simp [Memory.write, hv, Memory.wfFrom, hlo, hm]
      · simp [Memory.write, hlt, heq, Memory.wfFrom, hlo, hw, ih hm (by omega)]

/-- A write keeps the canonical form. -/
theorem Memory.write_wf {m : Memory} (a : Nat) (v : Byte) (h : m.wf = true) : (m.write a v).wf = true :=
  Memory.wfFrom_write v h (Nat.zero_le a)

theorem Memory.read_write_from {lo a : Nat} {m : Memory} (v : Byte) (b : Nat) (h : Memory.wfFrom lo m = true) :
    Memory.read (Memory.write m a v) b = if b = a then v else Memory.read m b := by
  induction m generalizing lo with
  | nil =>
    by_cases hb : b = a
    · subst hb
      by_cases hv : v = Memory.unlisted <;> simp [Memory.write, Memory.read, hv]
    · by_cases hv : v = Memory.unlisted <;> simp [Memory.write, Memory.read, hv, hb, Ne.symm hb]
  | cons c m ih =>
    obtain ⟨k, w⟩ := c
    simp only [Memory.wfFrom, Bool.and_eq_true, decide_eq_true_eq] at h
    obtain ⟨_, _, hm⟩ := h
    by_cases hlt : a < k
    · by_cases hv : v = Memory.unlisted
      · simp only [Memory.write, if_pos hlt, if_pos hv]
        by_cases hb : b = a
        · subst hb
          have hk : k ≠ b := by omega
          simp [Memory.read, if_neg hk, hv, Memory.read_below hm (show b < k + 1 by omega)]
        · simp [hb]
      · simp only [Memory.write, if_pos hlt, if_neg hv]
        by_cases hb : b = a
        · simp [Memory.read, hb]
        · simp only [Memory.read, if_neg (Ne.symm hb), if_neg hb]
    · by_cases heq : a = k
      · subst heq
        simp only [Memory.write, lt_irrefl, if_false, if_true]
        by_cases hv : v = Memory.unlisted
        · simp only [if_pos hv]
          by_cases hb : b = a
          · subst hb
            simp [hv, Memory.read_below hm (Nat.lt_succ_self b)]
          · simp [hb, Memory.read, Ne.symm hb]
        · simp only [if_neg hv]
          by_cases hb : b = a
          · simp [Memory.read, hb]
          · simp [Memory.read, hb, Ne.symm hb]
      · simp only [Memory.write, if_neg hlt, if_neg heq, Memory.read, ih hm]
        by_cases hk : k = b
        · have hb : b ≠ a := fun hba => heq (hba ▸ hk.symm)
          simp [hk, hb]
        · simp [hk]

/-- Reading after a write gives the byte written at its index, and what was there everywhere else. -/
theorem Memory.read_write {m : Memory} (a : Nat) (v : Byte) (b : Nat) (h : m.wf = true) :
    (m.write a v).read b = if b = a then v else m.read b :=
  Memory.read_write_from v b h

theorem Memory.read_write_same {m : Memory} (a : Nat) (v : Byte) (h : m.wf = true) : (m.write a v).read a = v := by
  simp [Memory.read_write a v a h]

theorem Memory.read_write_other {m : Memory} {a b : Nat} (v : Byte) (h : m.wf = true) (hb : b ≠ a) :
    (m.write a v).read b = m.read b := by
  simp [Memory.read_write a v b h, hb]

theorem Memory.within_cons {n k : Nat} {v : Byte} {m : Memory} :
    Memory.within n ((k, v) :: m) = true ↔ k < n ∧ m.within n = true := by
  simp [Memory.within]

/-- A write below the size keeps every listed index below it. -/
theorem Memory.write_within {n a : Nat} {m : Memory} (v : Byte) (h : m.within n = true) (ha : a < n) :
    (m.write a v).within n = true := by
  induction m with
  | nil =>
    by_cases hv : v = Memory.unlisted <;> simp [Memory.write, hv, Memory.within, ha]
  | cons c m ih =>
    obtain ⟨k, w⟩ := c
    obtain ⟨hk, hm⟩ := Memory.within_cons.mp h
    by_cases hlt : a < k
    · by_cases hv : v = Memory.unlisted <;>
        simp [Memory.write, hlt, hv, Memory.within_cons, ha, hk, hm]
    · by_cases heq : a = k
      · by_cases hv : v = Memory.unlisted <;>
          simp [Memory.write, heq, hv, Memory.within_cons, hk, hm]
      · simp [Memory.write, hlt, heq, Memory.within_cons, hk, ih hm]

theorem Memory.writeSeq_wf {m : Memory} (a : Nat) (vs : List Byte) (h : m.wf = true) : (m.writeSeq a vs).wf = true := by
  induction vs generalizing m a with
  | nil => exact h
  | cons v vs ih => exact ih (a + 1) (Memory.write_wf a v h)

theorem Memory.writeSeq_within {n a : Nat} {m : Memory} (vs : List Byte) (h : m.within n = true)
    (ha : a + vs.length ≤ n) : (m.writeSeq a vs).within n = true := by
  induction vs generalizing m a with
  | nil => exact h
  | cons v vs ih =>
    simp only [List.length_cons] at ha
    exact ih (Memory.write_within v h (by omega)) (by omega)

/-- Reading after a sequence of writes: the byte of the sequence inside it, what was there outside it. -/
theorem Memory.read_writeSeq {m : Memory} (a : Nat) (vs : List Byte) (b : Nat) (h : m.wf = true) :
    (m.writeSeq a vs).read b =
      if a ≤ b ∧ b < a + vs.length then vs.getD (b - a) Memory.unlisted else m.read b := by
  induction vs generalizing m a with
  | nil =>
    have hn : ¬ (a ≤ b ∧ b < a) := by omega
    simp [Memory.writeSeq, hn]
  | cons v vs ih =>
    rw [Memory.writeSeq, ih (a + 1) (Memory.write_wf a v h), Memory.read_write a v b h]
    by_cases hab : b = a
    · subst hab
      simp
    · by_cases hin : a + 1 ≤ b ∧ b < a + 1 + vs.length
      · obtain ⟨d, hd⟩ : ∃ d, b = a + 1 + d := ⟨b - (a + 1), by omega⟩
        subst hd
        have h1 : a + 1 + d - (a + 1) = d := by omega
        have h2 : a + 1 + d - a = d + 1 := by omega
        rw [if_pos hin, if_pos (by simp only [List.length_cons]; omega), h1, h2]
        simp
      · rw [if_neg hin, if_neg hab, if_neg (by simp only [List.length_cons]; omega)]

theorem Memory.readSeq_length (m : Memory) (a n : Nat) : (m.readSeq a n).length = n := by
  induction n generalizing a with
  | zero => rfl
  | succ n ih => simp [Memory.readSeq, ih]

/-- A sequence of reads is the list of the single reads. -/
theorem Memory.readSeq_eq_map (m : Memory) (a n : Nat) :
    m.readSeq a n = (List.range n).map fun k => m.read (a + k) := by
  induction n generalizing a with
  | zero => rfl
  | succ n ih =>
    rw [List.range_succ_eq_map, List.map_cons, List.map_map, Memory.readSeq, ih]
    simp [Function.comp_def, Nat.add_comm, Nat.add_left_comm]

/-- Two buffers that agree on a range give the same sequence of reads. -/
theorem Memory.readSeq_congr {m m' : Memory} {a n : Nat} (h : ∀ k, k < n → m.read (a + k) = m'.read (a + k)) :
    m.readSeq a n = m'.readSeq a n := by
  rw [Memory.readSeq_eq_map, Memory.readSeq_eq_map]
  exact List.map_congr_left fun k hk => h k (List.mem_range.mp hk)

/-- What has been written in sequence is read back in sequence. -/
theorem Memory.readSeq_writeSeq {m : Memory} (a : Nat) (vs : List Byte) (h : m.wf = true) :
    (m.writeSeq a vs).readSeq a vs.length = vs := by
  apply List.ext_getElem (Memory.readSeq_length _ _ _)
  intro k hk hk'
  simp [Memory.readSeq_eq_map, Memory.read_writeSeq a vs _ h, hk']

theorem Memory.reset_wf : State.reset.rbuf.wf = true ∧ State.reset.fbuf.wf = true :=
  ⟨rfl, rfl⟩

end Sys2Proof.Machine
end

