-- ==== Sys2Proof/Laws/State.lean ====
section
/-!
SUPPORT. The fields of the state after each named update of Ops.lean, so that no proof unfolds one.
-/

namespace Sys2Proof.Machine

variable (s : State)

/-! ### `State.answered` -/

@[simp] theorem State.answered_ready (d : Half) (x : Option Byte) (e : Event) : (s.answered d x e).ready = s.ready :=
  rfl

@[simp] theorem State.answered_mode (d : Half) (x : Option Byte) (e : Event) : (s.answered d x e).mode = s.mode :=
  rfl

@[simp] theorem State.answered_err (d : Half) (x : Option Byte) (e : Event) : (s.answered d x e).err = s.err :=
  rfl

@[simp] theorem State.answered_ecode (d : Half) (x : Option Byte) (e : Event) : (s.answered d x e).ecode = s.ecode :=
  rfl

@[simp] theorem State.answered_levt (d : Half) (x : Option Byte) (e : Event) : (s.answered d x e).levt = (if e = .none then s.levt else e) :=
  rfl

@[simp] theorem State.answered_sum (d : Half) (x : Option Byte) (e : Event) : (s.answered d x e).sum = s.sum :=
  rfl

@[simp] theorem State.answered_crc (d : Half) (x : Option Byte) (e : Event) : (s.answered d x e).crc = s.crc :=
  rfl

@[simp] theorem State.answered_seq (d : Half) (x : Option Byte) (e : Event) : (s.answered d x e).seq = s.seq :=
  rfl

@[simp] theorem State.answered_last (d : Half) (x : Option Byte) (e : Event) : (s.answered d x e).last = s.last :=
  rfl

@[simp] theorem State.answered_lastv (d : Half) (x : Option Byte) (e : Event) : (s.answered d x e).lastv = s.lastv :=
  rfl

@[simp] theorem State.answered_ph (d : Half) (x : Option Byte) (e : Event) : (s.answered d x e).ph = s.ph :=
  rfl

@[simp] theorem State.answered_idx (d : Half) (x : Option Byte) (e : Event) : (s.answered d x e).idx = s.idx :=
  rfl

@[simp] theorem State.answered_rbn (d : Half) (x : Option Byte) (e : Event) : (s.answered d x e).rbn = s.rbn :=
  rfl

@[simp] theorem State.answered_rcp (d : Half) (x : Option Byte) (e : Event) : (s.answered d x e).rcp = s.rcp :=
  rfl

@[simp] theorem State.answered_rver (d : Half) (x : Option Byte) (e : Event) : (s.answered d x e).rver = s.rver :=
  rfl

@[simp] theorem State.answered_rbuf (d : Half) (x : Option Byte) (e : Event) : (s.answered d x e).rbuf = s.rbuf :=
  rfl

@[simp] theorem State.answered_rvalid (d : Half) (x : Option Byte) (e : Event) : (s.answered d x e).rvalid = s.rvalid :=
  rfl

@[simp] theorem State.answered_fbuf (d : Half) (x : Option Byte) (e : Event) : (s.answered d x e).fbuf = s.fbuf :=
  rfl

@[simp] theorem State.answered_plen (d : Half) (x : Option Byte) (e : Event) : (s.answered d x e).plen = s.plen :=
  rfl

@[simp] theorem State.answered_flen (d : Half) (x : Option Byte) (e : Event) : (s.answered d x e).flen = s.flen :=
  rfl

@[simp] theorem State.answered_txp (d : Half) (x : Option Byte) (e : Event) : (s.answered d x e).txp = s.txp :=
  rfl

@[simp] theorem State.answered_fvalid (d : Half) (x : Option Byte) (e : Event) : (s.answered d x e).fvalid = s.fvalid :=
  rfl

@[simp] theorem State.answered_resp (d : Half) (x : Option Byte) (e : Event) : (s.answered d x e).resp = [Response.ok d x e] :=
  rfl

@[simp] theorem State.answered_pending (d : Half) (x : Option Byte) (e : Event) : (s.answered d x e).pending = s.pending :=
  rfl

/-! ### `State.turnedAway` -/

@[simp] theorem State.turnedAway_ready : (s.turnedAway).ready = s.ready :=
  rfl

@[simp] theorem State.turnedAway_mode : (s.turnedAway).mode = s.mode :=
  rfl

@[simp] theorem State.turnedAway_err : (s.turnedAway).err = s.err :=
  rfl

@[simp] theorem State.turnedAway_ecode : (s.turnedAway).ecode = s.ecode :=
  rfl

@[simp] theorem State.turnedAway_levt : (s.turnedAway).levt = s.levt :=
  rfl

@[simp] theorem State.turnedAway_sum : (s.turnedAway).sum = s.sum :=
  rfl

@[simp] theorem State.turnedAway_crc : (s.turnedAway).crc = s.crc :=
  rfl

@[simp] theorem State.turnedAway_seq : (s.turnedAway).seq = s.seq :=
  rfl

@[simp] theorem State.turnedAway_last : (s.turnedAway).last = s.last :=
  rfl

@[simp] theorem State.turnedAway_lastv : (s.turnedAway).lastv = s.lastv :=
  rfl

@[simp] theorem State.turnedAway_ph : (s.turnedAway).ph = s.ph :=
  rfl

@[simp] theorem State.turnedAway_idx : (s.turnedAway).idx = s.idx :=
  rfl

@[simp] theorem State.turnedAway_rbn : (s.turnedAway).rbn = s.rbn :=
  rfl

@[simp] theorem State.turnedAway_rcp : (s.turnedAway).rcp = s.rcp :=
  rfl

@[simp] theorem State.turnedAway_rver : (s.turnedAway).rver = s.rver :=
  rfl

@[simp] theorem State.turnedAway_rbuf : (s.turnedAway).rbuf = s.rbuf :=
  rfl

@[simp] theorem State.turnedAway_rvalid : (s.turnedAway).rvalid = s.rvalid :=
  rfl

@[simp] theorem State.turnedAway_fbuf : (s.turnedAway).fbuf = s.fbuf :=
  rfl

@[simp] theorem State.turnedAway_plen : (s.turnedAway).plen = s.plen :=
  rfl

@[simp] theorem State.turnedAway_flen : (s.turnedAway).flen = s.flen :=
  rfl

@[simp] theorem State.turnedAway_txp : (s.turnedAway).txp = s.txp :=
  rfl

@[simp] theorem State.turnedAway_fvalid : (s.turnedAway).fvalid = s.fvalid :=
  rfl

@[simp] theorem State.turnedAway_resp : (s.turnedAway).resp = [Response.refusal] :=
  rfl

@[simp] theorem State.turnedAway_pending : (s.turnedAway).pending = s.pending :=
  rfl

/-! ### `State.errored` -/

@[simp] theorem State.errored_ready (c : ErrCode) : (s.errored c).ready = s.ready :=
  rfl

@[simp] theorem State.errored_mode (c : ErrCode) : (s.errored c).mode = s.mode :=
  rfl

@[simp] theorem State.errored_err (c : ErrCode) : (s.errored c).err = true :=
  rfl

@[simp] theorem State.errored_ecode (c : ErrCode) : (s.errored c).ecode = (if s.err then s.ecode else c) :=
  rfl

@[simp] theorem State.errored_levt (c : ErrCode) : (s.errored c).levt = s.levt :=
  rfl

@[simp] theorem State.errored_sum (c : ErrCode) : (s.errored c).sum = s.sum :=
  rfl

@[simp] theorem State.errored_crc (c : ErrCode) : (s.errored c).crc = s.crc :=
  rfl

@[simp] theorem State.errored_seq (c : ErrCode) : (s.errored c).seq = s.seq :=
  rfl

@[simp] theorem State.errored_last (c : ErrCode) : (s.errored c).last = s.last :=
  rfl

@[simp] theorem State.errored_lastv (c : ErrCode) : (s.errored c).lastv = s.lastv :=
  rfl

@[simp] theorem State.errored_ph (c : ErrCode) : (s.errored c).ph = s.ph :=
  rfl

@[simp] theorem State.errored_idx (c : ErrCode) : (s.errored c).idx = s.idx :=
  rfl

@[simp] theorem State.errored_rbn (c : ErrCode) : (s.errored c).rbn = s.rbn :=
  rfl

@[simp] theorem State.errored_rcp (c : ErrCode) : (s.errored c).rcp = s.rcp :=
  rfl

@[simp] theorem State.errored_rver (c : ErrCode) : (s.errored c).rver = s.rver :=
  rfl

@[simp] theorem State.errored_rbuf (c : ErrCode) : (s.errored c).rbuf = s.rbuf :=
  rfl

@[simp] theorem State.errored_rvalid (c : ErrCode) : (s.errored c).rvalid = s.rvalid :=
  rfl

@[simp] theorem State.errored_fbuf (c : ErrCode) : (s.errored c).fbuf = s.fbuf :=
  rfl

@[simp] theorem State.errored_plen (c : ErrCode) : (s.errored c).plen = s.plen :=
  rfl

@[simp] theorem State.errored_flen (c : ErrCode) : (s.errored c).flen = s.flen :=
  rfl

@[simp] theorem State.errored_txp (c : ErrCode) : (s.errored c).txp = s.txp :=
  rfl

@[simp] theorem State.errored_fvalid (c : ErrCode) : (s.errored c).fvalid = s.fvalid :=
  rfl

@[simp] theorem State.errored_resp (c : ErrCode) : (s.errored c).resp = [Response.refusal] :=
  rfl

@[simp] theorem State.errored_pending (c : ErrCode) : (s.errored c).pending = s.pending :=
  rfl

/-! ### `State.assertReset` -/

@[simp] theorem State.assertReset_ready : (s.assertReset).ready = false :=
  rfl

@[simp] theorem State.assertReset_mode : (s.assertReset).mode = .checksum :=
  rfl

@[simp] theorem State.assertReset_err : (s.assertReset).err = false :=
  rfl

@[simp] theorem State.assertReset_ecode : (s.assertReset).ecode = .none :=
  rfl

@[simp] theorem State.assertReset_levt : (s.assertReset).levt = .none :=
  rfl

@[simp] theorem State.assertReset_sum : (s.assertReset).sum = 0x00 :=
  rfl

@[simp] theorem State.assertReset_crc : (s.assertReset).crc = Config.crcInit :=
  rfl

@[simp] theorem State.assertReset_seq : (s.assertReset).seq = Config.seqInit :=
  rfl

@[simp] theorem State.assertReset_last : (s.assertReset).last = 0x00 :=
  rfl

@[simp] theorem State.assertReset_lastv : (s.assertReset).lastv = false :=
  rfl

@[simp] theorem State.assertReset_ph : (s.assertReset).ph = .idle :=
  rfl

@[simp] theorem State.assertReset_idx : (s.assertReset).idx = 0 :=
  rfl

@[simp] theorem State.assertReset_rbn : (s.assertReset).rbn = 0x00 :=
  rfl

@[simp] theorem State.assertReset_rcp : (s.assertReset).rcp = 0x00 :=
  rfl

@[simp] theorem State.assertReset_rver : (s.assertReset).rver = 0x0000 :=
  rfl

@[simp] theorem State.assertReset_rbuf : (s.assertReset).rbuf = [] :=
  rfl

@[simp] theorem State.assertReset_rvalid : (s.assertReset).rvalid = false :=
  rfl

@[simp] theorem State.assertReset_fbuf : (s.assertReset).fbuf = [] :=
  rfl

@[simp] theorem State.assertReset_plen : (s.assertReset).plen = 0 :=
  rfl

@[simp] theorem State.assertReset_flen : (s.assertReset).flen = 0 :=
  rfl

@[simp] theorem State.assertReset_txp : (s.assertReset).txp = 0 :=
  rfl

@[simp] theorem State.assertReset_fvalid : (s.assertReset).fvalid = false :=
  rfl

@[simp] theorem State.assertReset_resp : (s.assertReset).resp = [] :=
  rfl

@[simp] theorem State.assertReset_pending : (s.assertReset).pending = s.pending :=
  rfl

/-! ### `State.newSession` -/

@[simp] theorem State.newSession_ready (m : VerMode) : (s.newSession m).ready = true :=
  rfl

@[simp] theorem State.newSession_mode (m : VerMode) : (s.newSession m).mode = m :=
  rfl

@[simp] theorem State.newSession_err (m : VerMode) : (s.newSession m).err = false :=
  rfl

@[simp] theorem State.newSession_ecode (m : VerMode) : (s.newSession m).ecode = .none :=
  rfl

@[simp] theorem State.newSession_levt (m : VerMode) : (s.newSession m).levt = .none :=
  rfl

@[simp] theorem State.newSession_sum (m : VerMode) : (s.newSession m).sum = 0x00 :=
  rfl

@[simp] theorem State.newSession_crc (m : VerMode) : (s.newSession m).crc = Config.crcInit :=
  rfl

@[simp] theorem State.newSession_seq (m : VerMode) : (s.newSession m).seq = Config.seqInit :=
  rfl

@[simp] theorem State.newSession_last (m : VerMode) : (s.newSession m).last = 0x00 :=
  rfl

@[simp] theorem State.newSession_lastv (m : VerMode) : (s.newSession m).lastv = false :=
  rfl

@[simp] theorem State.newSession_ph (m : VerMode) : (s.newSession m).ph = .idle :=
  rfl

@[simp] theorem State.newSession_idx (m : VerMode) : (s.newSession m).idx = 0 :=
  rfl

@[simp] theorem State.newSession_rbn (m : VerMode) : (s.newSession m).rbn = 0x00 :=
  rfl

@[simp] theorem State.newSession_rcp (m : VerMode) : (s.newSession m).rcp = 0x00 :=
  rfl

@[simp] theorem State.newSession_rver (m : VerMode) : (s.newSession m).rver = 0x0000 :=
  rfl

@[simp] theorem State.newSession_rbuf (m : VerMode) : (s.newSession m).rbuf = s.rbuf :=
  rfl

@[simp] theorem State.newSession_rvalid (m : VerMode) : (s.newSession m).rvalid = false :=
  rfl

@[simp] theorem State.newSession_fbuf (m : VerMode) : (s.newSession m).fbuf = s.fbuf :=
  rfl

@[simp] theorem State.newSession_plen (m : VerMode) : (s.newSession m).plen = 0 :=
  rfl

@[simp] theorem State.newSession_flen (m : VerMode) : (s.newSession m).flen = 0 :=
  rfl

@[simp] theorem State.newSession_txp (m : VerMode) : (s.newSession m).txp = 0 :=
  rfl

@[simp] theorem State.newSession_fvalid (m : VerMode) : (s.newSession m).fvalid = false :=
  rfl

@[simp] theorem State.newSession_resp (m : VerMode) : (s.newSession m).resp = s.resp :=
  rfl

@[simp] theorem State.newSession_pending (m : VerMode) : (s.newSession m).pending = s.pending :=
  rfl

end Sys2Proof.Machine
end

