-- ==== Sys2Proof/Laws/Ops.lean ====
section
/-!
SUPPORT. What the shared operations can do, each said once: the three ends of a step, the common checks, one received byte, one
response byte, and a sequence of received bytes.
-/

namespace Sys2Proof.Machine

variable {s t u : State}

@[simp] theorem andThen_next (k : State → Result) : andThen (.next s) k = k s :=
  rfl

/-- Going on answers a next state exactly when the first part does and the second part does from there. -/
theorem andThen_eq_next {r : Result} {k : State → Result} :
    andThen r k = .next t ↔ ∃ u, r = .next u ∧ k u = .next t := by
  cases r <;> simp [andThen]

@[simp] theorem respond_eq_next {d : Half} {x : Option Byte} {e : Event} :
    respond d x e s = .next t ↔ t = s.answered d x e := by
  simp [respond, eq_comm]

@[simp] theorem cmdError_eq_next {c : ErrCode} : cmdError c s = .next t ↔ t = s.errored c := by
  simp [cmdError, eq_comm]

@[simp] theorem refuse_eq_next : refuse s = .next t ↔ t = s.turnedAway := by
  simp [refuse, eq_comm]

/-! ### The common checks (60_exceptions.md R206) -/

theorem gate_of_err {r n : Bool} {body : Result} (he : s.err = true) : gate r n s body = .next s.turnedAway := by
  simp [gate, he, refuse]

theorem gate_of_reserved {n : Bool} {body : Result} (he : s.err = false) :
    gate true n s body = .next (s.errored .reservedBits) := by
  simp [gate, he, cmdError]

theorem gate_of_notReady {body : Result} (he : s.err = false) (hr : s.ready = false) :
    gate false true s body = .next (s.errored .notReady) := by
  simp [gate, he, hr, cmdError]

theorem gate_of_open {n : Bool} {body : Result} (he : s.err = false) (hr : n = true → s.ready = true) :
    gate false n s body = body := by
  cases n <;> simp_all [gate]

/-- Everything the common checks can do. -/
theorem gate_eq_next {r n : Bool} {body : Result} : gate r n s body = .next t ↔
    (s.err = true ∧ t = s.turnedAway) ∨
    (s.err = false ∧ r = true ∧ t = s.errored .reservedBits) ∨
    (s.err = false ∧ r = false ∧ n = true ∧ s.ready = false ∧ t = s.errored .notReady) ∨
    (s.err = false ∧ r = false ∧ (n = true → s.ready = true) ∧ body = .next t) := by
  unfold gate
  cases hs : s.err <;> cases r <;> cases n <;> cases hr : s.ready <;> simp

/-! ### Buffer accesses -/

theorem storeRbuf_of_lt {i : Nat} {b : Byte} {k : State → Result} (h : i < rbufSize) :
    storeRbuf i b s k = k { s with rbuf := s.rbuf.write i b } := by
  simp [storeRbuf, h]

theorem storeFbuf_of_lt {i : Nat} {b : Byte} {k : State → Result} (h : i < fbufSize) :
    storeFbuf i b s k = k { s with fbuf := s.fbuf.write i b } := by
  simp [storeFbuf, h]

theorem loadFbuf_of_lt {i : Nat} {k : Byte → Result} (h : i < fbufSize) : loadFbuf i s k = k (s.fbuf.read i) := by
  simp [loadFbuf, h]

/-! ### One received byte (43_unpacker.md R130 to R142) -/

/-- The state that an accepting verdict leaves, for either setting of `DUP_SUPPRESS` (R141). -/
theorem verdictAcceptWith_eq (d : Bool) : verdictAcceptWith d s = .next
    (if isDuplicate d s then { s with ph := .idle }.answered 0 (some Config.ack) .rxDup
     else { s with rvalid := true, seq := seqNext s.seq, last := s.rbn, lastv := true, ph := .idle }.answered 0
       (some Config.ack) .rxAccept) := by
  unfold verdictAcceptWith
  split <;> simp [respond]

/-- The two verdicts (R141 and R142): a match is a duplicate or is accepted, a mismatch is rejected. -/
inductive Verdict (p : Prop) (s : State) : State → Prop
  | duplicate (h : p) (hd : isDuplicate Config.dupSuppress s = true) :
      Verdict p s ({ s with ph := .idle }.answered 0 (some Config.ack) .rxDup)
  | accept (h : p) (hd : isDuplicate Config.dupSuppress s = false) :
      Verdict p s ({ s with
        rvalid := true, seq := seqNext s.seq, last := s.rbn, lastv := true, ph := .idle }.answered 0
          (some Config.ack) .rxAccept)
  | reject (h : ¬p) : Verdict p s ({ s with ph := .idle }.answered 0 (some Config.nak) .rxVerErr)

theorem verdict_of_eq_next {p : Prop} [Decidable p]
    (h : (if p then verdictAccept s else verdictReject s) = .next t) : Verdict p s t := by
  split at h
  · rw [verdictAccept, verdictAcceptWith_eq] at h
    split at h <;> cases h
    · exact .duplicate ‹_› ‹_›
    · exact .accept ‹_› (by simpa using ‹¬isDuplicate _ _ = true›)
  · obtain rfl := respond_eq_next.mp h
    exact .reject ‹_›

/-- Everything one received byte can do (R130 to R142). -/
inductive RxOutcome (b : Byte) (s : State) : State → Prop
  | frozen (he : s.err = true) : RxOutcome b s s.turnedAway
  | notReady (he : s.err = false) (hr : s.ready = false) : RxOutcome b s (s.errored .notReady)
  | overrun (he : s.err = false) (hr : s.ready = true) (hp : s.ph = .done) : RxOutcome b s (s.errored .rxDone)
  | start (he : s.err = false) (hr : s.ready = true) (hp : s.ph = .idle) (hb : b = Config.soh) :
      RxOutcome b s ({ s with ph := .num, rvalid := false }.answered 0 none .none)
  | finish (he : s.err = false) (hr : s.ready = true) (hp : s.ph = .idle) (hb : b = Config.eot) :
      RxOutcome b s ({ s with ph := .done }.answered 0 (some Config.ack) .rxEot)
  | ignored (he : s.err = false) (hr : s.ready = true) (hp : s.ph = .idle) (hs : b ≠ Config.soh) (ht : b ≠ Config.eot) :
      RxOutcome b s (s.answered 0 none .rxIgnored)
  | number (he : s.err = false) (hr : s.ready = true) (hp : s.ph = .num) :
      RxOutcome b s ({ s with rbn := b, ph := .cmp }.answered 0 none .none)
  | header (he : s.err = false) (hr : s.ready = true) (hp : s.ph = .cmp) (hc : hdrOk s.rbn b = true) :
      RxOutcome b s ({ s with rcp := b, ph := .pay, idx := 0 }.answered 0 none .none)
  | badHeader (he : s.err = false) (hr : s.ready = true) (hp : s.ph = .cmp) (hc : hdrOk s.rbn b = false) :
      RxOutcome b s ({ s with rcp := b, ph := .idle }.answered 0 (some Config.nak) .rxHdrErr)
  | lastPayload (he : s.err = false) (hr : s.ready = true) (hp : s.ph = .pay) (hi : s.idx = 127) :
      RxOutcome b s ({ s with rbuf := s.rbuf.write 127 b, ph := .ver1, idx := 0 }.answered 0 none .none)
  | payload (he : s.err = false) (hr : s.ready = true) (hp : s.ph = .pay) (hi : s.idx.toNat < 127) :
      RxOutcome b s ({ s with rbuf := s.rbuf.write s.idx.toNat b, idx := s.idx + 1 }.answered 0 none .none)
  | high (he : s.err = false) (hr : s.ready = true) (hp : s.ph = .ver1) (hm : s.mode = .crc) :
      RxOutcome b s ({ s with rver := inHighByte b, ph := .ver2 }.answered 0 none .none)
  | judgedSum {v : State} (he : s.err = false) (hr : s.ready = true) (hp : s.ph = .ver1) (hm : s.mode = .checksum)
      (hj : Verdict (checksum (payloadOf s) = b) { s with rver := b.setWidth 16, sum := checksum (payloadOf s) } v) :
      RxOutcome b s v
  | judgedCrc {v : State} (he : s.err = false) (hr : s.ready = true) (hp : s.ph = .ver2)
      (hj : Verdict (crc16 (payloadOf s) = (s.rver &&& 0xFF00) ||| b.setWidth 16)
        { s with rver := (s.rver &&& 0xFF00) ||| b.setWidth 16, crc := crc16 (payloadOf s) } v) : RxOutcome b s v

theorem takeRxByte_outcome {b : Byte} (h : takeRxByte b s = .next t) : RxOutcome b s t := by
  rcases gate_eq_next.mp h with ⟨he, rfl⟩ | ⟨_, hf, _⟩ | ⟨he, _, _, hr, rfl⟩ | ⟨he, _, hr, hb⟩
  · exact .frozen he
  · cases hf
  · exact .notReady he hr
  · have hr := hr rfl
    split at hb
    · rename_i hp
      unfold rxIdle at hb
      split at hb
      · obtain rfl := respond_eq_next.mp hb
        exact .start he hr hp ‹_›
      · split at hb <;> obtain rfl := respond_eq_next.mp hb
        · exact .finish he hr hp ‹_›
        · exact .ignored he hr hp ‹_› ‹_›
    · obtain rfl := respond_eq_next.mp hb
      exact .number he hr ‹_›
    · unfold rxCmp at hb
      split at hb <;> obtain rfl := respond_eq_next.mp hb
      · exact .header he hr ‹_› ‹_›
      · exact .badHeader he hr ‹_› (by simpa using ‹¬hdrOk _ _ = true›)
    · rename_i hp
      unfold rxPay storeRbuf at hb
      split at hb
      · rename_i hlt
        split at hb <;> obtain rfl := respond_eq_next.mp hb
        · rename_i hi
          have := RxOutcome.lastPayload (b := b) he hr hp hi
          simpa [hi] using this
        · rename_i hi
          refine .payload he hr hp ?_
          simp only [rbufSize] at hlt
          have : s.idx.toNat ≠ 127 := fun h => hi (BitVec.eq_of_toNat_eq h)
          omega
      · cases hb
    · rename_i hp
      unfold rxVer1 at hb
      split at hb
      · exact .judgedSum he hr hp ‹_› (verdict_of_eq_next hb)
      · obtain rfl := respond_eq_next.mp hb
        exact .high he hr hp ‹_›
    · exact .judgedCrc he hr ‹_› (verdict_of_eq_next hb)
    · obtain rfl := cmdError_eq_next.mp hb
      exact .overrun he hr ‹_›

/-! ### A sequence of received bytes -/

theorem feedRx_nil : feedRx [] s = .next { s with resp := [] } :=
  rfl

/-- A sequence of bytes answers when its first byte and then the others do; the responses are kept in order. -/
theorem feedRx_cons_eq_next {b : Byte} {bs : List Byte} : feedRx (b :: bs) s = .next t ↔
    ∃ s1 s2, takeRxByte b s = .next s1 ∧ feedRx bs s1 = .next s2 ∧ t = { s2 with resp := s1.resp ++ s2.resp } := by
  simp only [feedRx, andThen_eq_next]
  constructor
  · rintro ⟨s1, h1, s2, h2, h3⟩
    exact ⟨s1, s2, h1, h2, by simpa using h3.symm⟩
  · rintro ⟨s1, s2, h1, h2, rfl⟩
    exact ⟨s1, h1, s2, h2, rfl⟩

/-- A fact that one received byte keeps, and that does not look at the responses, is kept by a sequence of them. -/
theorem feedRx_induction {P : State → Prop} (hresp : ∀ s rs, P s → P { s with resp := rs })
    (hbyte : ∀ b s t, P s → takeRxByte b s = .next t → P t) {bs : List Byte} (hs : P s) (h : feedRx bs s = .next t) : P t := by
  induction bs generalizing s t with
  | nil =>
    rw [feedRx_nil] at h
    cases h
    exact hresp s [] hs
  | cons b bs ih =>
    obtain ⟨s1, s2, h1, h2, rfl⟩ := feedRx_cons_eq_next.mp h
    exact hresp s2 _ (ih (hbyte b s s1 hs h1) h2)

/-- A reflexive and transitive relation that one received byte keeps, and that does not look at the later state's responses, is kept
by a sequence of them. -/
theorem feedRx_rel {R : State → State → Prop} (hrefl : ∀ s rs, R s { s with resp := rs })
    (htrans : ∀ s t u, R s t → R t u → R s u) (hbyte : ∀ b s t, takeRxByte b s = .next t → R s t) {bs : List Byte}
    (h : feedRx bs s = .next t) : R s t :=
  feedRx_induction (P := R s) (fun u rs hu => htrans s u _ hu (hrefl u rs))
    (fun b u v hu hb => htrans s u v hu (hbyte b u v hb)) (hrefl s s.resp) h

/-- While `ERR` is 1 a sequence of bytes is turned away byte by byte. -/
theorem feedRx_of_err {bs : List Byte} (he : s.err = true) :
    feedRx bs s = .next { s with resp := List.replicate bs.length Response.refusal } := by
  induction bs generalizing s with
  | nil => rfl
  | cons b bs ih =>
    rw [feedRx_cons_eq_next]
    exact ⟨s.turnedAway, _, gate_of_err he, ih he, rfl⟩

/-! ### The step -/

/-- Everything a step can do. -/
theorem step_eq_next (h : step s = .next t) :
    (s.pending = [] ∧ t = s) ∨
    (∃ rest, s.pending = .reset :: rest ∧ t = { State.reset with pending := rest }) ∨
    (∃ i ps, s.pending ≠ [] ∧ (∀ rest, s.pending ≠ .reset :: rest) ∧ exec i { s with pending := ps } = .next t) := by
  unfold step at h
  split at h
  · rename_i hf
    unfold fetch at hf
    split at hf <;> simp_all
  · rename_i s' hf
    unfold fetch at hf
    split at hf <;> simp_all
    subst hf
    simp [State.assertReset, ← h]
  · rename_i i s' hf
    unfold fetch at hf
    split at hf <;> simp_all
    · obtain ⟨rfl, rfl⟩ := hf
      exact ⟨_, _, h⟩
    · obtain ⟨rfl, rfl⟩ := hf
      exact ⟨_, _, h⟩

end Sys2Proof.Machine
end

