-- ==== Sys2Proof/Laws/Meanings.lean ====
section
/-!
SUPPORT. Everything each meaning can do when it answers a next state, one lemma per meaning, for states at large.
-/

namespace Sys2Proof.Machine

variable {s t : State}

/-! ### System, checksum and CRC operations -/

theorem execInit_eq_next {a : Byte} : execInit a s = .next t ↔
    (s.err = true ∧ t = s.turnedAway) ∨
    (s.err = false ∧ reservedAbove0 a = true ∧ t = s.errored .reservedBits) ∨
    (s.err = false ∧ reservedAbove0 a = false ∧ t = (s.newSession (modeOperand a)).answered 0 none .none) := by
  unfold execInit
  rw [gate_eq_next]
  simp

theorem execRd_eq_next {r : Byte} : execRd r s = .next t ↔
    (lastRegister < r ∧ t = s.errored .reg) ∨
    (¬lastRegister < r ∧ t = s.answered (readRegister r s) none .none) := by
  unfold execRd
  split <;> simp [*]

theorem execSumClr_eq_next {a : Byte} : execSumClr a s = .next t ↔
    (s.err = true ∧ t = s.turnedAway) ∨
    (s.err = false ∧ reservedWhole a = true ∧ t = s.errored .reservedBits) ∨
    (s.err = false ∧ reservedWhole a = false ∧ t = { s with sum := 0x00 }.answered 0 none .none) := by
  unfold execSumClr
  rw [gate_eq_next]
  simp

theorem execSumUpd_eq_next {b : Byte} : execSumUpd b s = .next t ↔
    (s.err = true ∧ t = s.turnedAway) ∨
    (s.err = false ∧ t = { s with sum := sumByte s.sum b }.answered 0 none .none) := by
  unfold execSumUpd
  rw [gate_eq_next]
  simp

theorem execCrcClr_eq_next {a : Byte} : execCrcClr a s = .next t ↔
    (s.err = true ∧ t = s.turnedAway) ∨
    (s.err = false ∧ reservedWhole a = true ∧ t = s.errored .reservedBits) ∨
    (s.err = false ∧ reservedWhole a = false ∧ t = { s with crc := Config.crcInit }.answered 0 none .none) := by
  unfold execCrcClr
  rw [gate_eq_next]
  simp

theorem execCrcUpd_eq_next {b : Byte} : execCrcUpd b s = .next t ↔
    (s.err = true ∧ t = s.turnedAway) ∨
    (s.err = false ∧ t = { s with crc := crcByte s.crc b }.answered 0 none .none) := by
  unfold execCrcUpd
  rw [gate_eq_next]
  simp

theorem execReservedOpE_eq_next (a : Byte) : execReservedOpE a s = .next t ↔
    (s.err = true ∧ t = s.turnedAway) ∨ (s.err = false ∧ t = s.errored .opcode) := by
  unfold execReservedOpE
  rw [gate_eq_next]
  simp

theorem execReservedOpF_eq_next (a : Byte) : execReservedOpF a s = .next t ↔
    (s.err = true ∧ t = s.turnedAway) ∨ (s.err = false ∧ t = s.errored .opcode) := by
  unfold execReservedOpF
  rw [gate_eq_next]
  simp

/-! ### Unpacker operations -/

/-- Everything `RX_TMO` can do (43_unpacker.md R143). -/
inductive TmoOutcome (a : Byte) (s : State) : State → Prop
  | frozen (he : s.err = true) : TmoOutcome a s s.turnedAway
  | badOperand (he : s.err = false) (ha : reservedWhole a = true) : TmoOutcome a s (s.errored .reservedBits)
  | notReady (he : s.err = false) (ha : reservedWhole a = false) (hr : s.ready = false) : TmoOutcome a s (s.errored .notReady)
  | overrun (he : s.err = false) (hr : s.ready = true) (hp : s.ph = .done) : TmoOutcome a s (s.errored .rxDone)
  | atBoundary (he : s.err = false) (hr : s.ready = true) (hp : s.ph = .idle) : TmoOutcome a s (s.answered 0 none .none)
  | truncated (he : s.err = false) (hr : s.ready = true) (hi : s.ph ≠ .idle) (hd : s.ph ≠ .done) :
      TmoOutcome a s ({ s with ph := .idle, idx := 0 }.answered 0 (some Config.nak) .rxTrunc)

theorem execRxTmo_outcome {a : Byte} (h : execRxTmo a s = .next t) : TmoOutcome a s t := by
  rcases gate_eq_next.mp h with ⟨he, rfl⟩ | ⟨he, ha, rfl⟩ | ⟨he, ha, _, hr, rfl⟩ | ⟨he, _, hr, hb⟩
  · exact .frozen he
  · exact .badOperand he ha
  · exact .notReady he ha hr
  · have hr := hr rfl
    split at hb
    · obtain rfl := cmdError_eq_next.mp hb
      exact .overrun he hr ‹_›
    · obtain rfl := respond_eq_next.mp hb
      exact .atBoundary he hr ‹_›
    all_goals
      obtain rfl := respond_eq_next.mp hb
      exact .truncated he hr (by simp_all) (by simp_all)

theorem execRbRd_eq_next {a : Byte} : execRbRd a s = .next t ↔
    (s.err = true ∧ t = s.turnedAway) ∨
    (s.err = false ∧ reservedBit7 a = true ∧ t = s.errored .reservedBits) ∨
    (s.err = false ∧ reservedBit7 a = false ∧ s.ready = false ∧ t = s.errored .notReady) ∨
    (s.err = false ∧ reservedBit7 a = false ∧ s.ready = true ∧ s.rvalid = false ∧ t = s.errored .noPayload) ∨
    (s.err = false ∧ reservedBit7 a = false ∧ s.ready = true ∧ s.rvalid = true ∧
      t = s.answered ((s.rbuf.read (payloadIndex a)).setWidth 16) none .none) := by
  unfold execRbRd
  rw [gate_eq_next]
  cases hv : s.rvalid <;> simp

/-! ### Packer operations -/

/-- Everything `PK_PUT` can do (44_packer.md R161). -/
inductive PutOutcome (b : Byte) (s : State) : State → Prop
  | frozen (he : s.err = true) : PutOutcome b s s.turnedAway
  | notReady (he : s.err = false) (hr : s.ready = false) : PutOutcome b s (s.errored .notReady)
  | busy (he : s.err = false) (hr : s.ready = true) (hf : s.fvalid = true) : PutOutcome b s (s.errored .frameBusy)
  | full (he : s.err = false) (hr : s.ready = true) (hf : s.fvalid = false) (hl : s.plen = 128) :
      PutOutcome b s (s.errored .pkFull)
  | put (he : s.err = false) (hr : s.ready = true) (hf : s.fvalid = false) (hl : s.plen ≠ 128)
      (hi : payloadOff + s.plen.toNat < fbufSize) :
      PutOutcome b s ({ s with
        fbuf := s.fbuf.write (payloadOff + s.plen.toNat) b, plen := s.plen + 1 }.answered 0 none .none)

theorem execPkPut_outcome {b : Byte} (h : execPkPut b s = .next t) : PutOutcome b s t := by
  rcases gate_eq_next.mp h with ⟨he, rfl⟩ | ⟨_, hf, _⟩ | ⟨he, _, _, hr, rfl⟩ | ⟨he, _, hr, hb⟩
  · exact .frozen he
  · cases hf
  · exact .notReady he hr
  · have hr := hr rfl
    split at hb
    · obtain rfl := cmdError_eq_next.mp hb
      exact .busy he hr ‹_›
    · have hf : s.fvalid = false := by simpa using ‹¬s.fvalid = true›
      split at hb
      · obtain rfl := cmdError_eq_next.mp hb
        exact .full he hr hf ‹_›
      · unfold storeFbuf at hb
        split at hb
        · obtain rfl := respond_eq_next.mp hb
          exact .put he hr hf ‹_› ‹_›
        · cases hb

theorem execPkBuild_eq_next {a : Byte} : execPkBuild a s = .next t ↔
    (s.err = true ∧ t = s.turnedAway) ∨
    (s.err = false ∧ reservedWhole a = true ∧ t = s.errored .reservedBits) ∨
    (s.err = false ∧ reservedWhole a = false ∧ s.ready = false ∧ t = s.errored .notReady) ∨
    (s.err = false ∧ reservedWhole a = false ∧ s.ready = true ∧ s.fvalid = true ∧ t = s.errored .frameBusy) ∨
    (s.err = false ∧ reservedWhole a = false ∧ s.ready = true ∧ s.fvalid = false ∧ s.plen = 0 ∧ t = s.errored .pkEmpty) ∨
    (s.err = false ∧ reservedWhole a = false ∧ s.ready = true ∧ s.fvalid = false ∧ s.plen ≠ 0 ∧
      t = (buildFrame s).answered ((buildFrame s).flen.setWidth 16) none .none) := by
  unfold execPkBuild
  rw [gate_eq_next]
  by_cases hp : s.plen = 0
  · cases hv : s.fvalid <;> simp [hp]
  · have hp' : s.plen ≠ 0#8 := hp
    cases hv : s.fvalid <;> simp [hp']

/-- Everything `TX_NEXT` can do (44_packer.md R164). -/
inductive NextOutcome (a : Byte) (s : State) : State → Prop
  | frozen (he : s.err = true) : NextOutcome a s s.turnedAway
  | badOperand (he : s.err = false) (ha : reservedWhole a = true) : NextOutcome a s (s.errored .reservedBits)
  | notReady (he : s.err = false) (ha : reservedWhole a = false) (hr : s.ready = false) : NextOutcome a s (s.errored .notReady)
  | nothing (he : s.err = false) (hr : s.ready = true) (hf : s.fvalid = false ∨ s.flen ≤ s.txp) :
      NextOutcome a s (s.errored .txState)
  | out (he : s.err = false) (hr : s.ready = true) (hf : s.fvalid = true) (hl : ¬s.flen ≤ s.txp) (hi : s.txp.toNat < fbufSize) :
      NextOutcome a s ({ s with txp := s.txp + 1 }.answered ((s.fbuf.read s.txp.toNat).setWidth 16) none
        (if s.txp + 1 = s.flen then .txLast else .none))

theorem execTxNext_outcome {a : Byte} (h : execTxNext a s = .next t) : NextOutcome a s t := by
  rcases gate_eq_next.mp h with ⟨he, rfl⟩ | ⟨he, ha, rfl⟩ | ⟨he, ha, _, hr, rfl⟩ | ⟨he, _, hr, hb⟩
  · exact .frozen he
  · exact .badOperand he ha
  · exact .notReady he ha hr
  · have hr := hr rfl
    split at hb
    · obtain rfl := cmdError_eq_next.mp hb
      exact .nothing he hr (by simp_all)
    · rename_i hc
      obtain ⟨hf, hl⟩ : s.fvalid = true ∧ ¬s.flen ≤ s.txp := by simp_all
      unfold loadFbuf at hb
      split at hb
      · obtain rfl := respond_eq_next.mp hb
        exact .out he hr hf hl ‹_›
      · cases hb

theorem notAwaiting_eq_false : notAwaiting s = false ↔ s.fvalid = true ∧ s.txp = s.flen := by
  simp [notAwaiting]

theorem notAwaiting_eq_true : notAwaiting s = true ↔ s.fvalid = false ∨ s.txp ≠ s.flen := by
  simp [notAwaiting]

/-- Everything one response byte can do (44_packer.md R165 to R168). -/
inductive RspOutcome (b : Byte) (s : State) : State → Prop
  | frozen (he : s.err = true) : RspOutcome b s s.turnedAway
  | notReady (he : s.err = false) (hr : s.ready = false) : RspOutcome b s (s.errored .notReady)
  | unexpected (he : s.err = false) (hr : s.ready = true) (hw : s.fvalid = false ∨ s.txp ≠ s.flen) :
      RspOutcome b s (s.errored .txState)
  | ack (he : s.err = false) (hr : s.ready = true) (hf : s.fvalid = true) (hl : s.txp = s.flen) (hb : b = Config.ack) :
      RspOutcome b s ({ s with
        seq := seqNext s.seq, fvalid := false, plen := 0, txp := 0, flen := 0 }.answered 0 none .txAdvance)
  | nak (he : s.err = false) (hr : s.ready = true) (hf : s.fvalid = true) (hl : s.txp = s.flen) (hb : b = Config.nak) :
      RspOutcome b s ({ s with txp := 0 }.answered 0 none .txResend)
  | other (he : s.err = false) (hr : s.ready = true) (hf : s.fvalid = true) (hl : s.txp = s.flen) (ha : b ≠ Config.ack)
      (hn : b ≠ Config.nak) : RspOutcome b s (s.answered 0 none .txRepoll)

theorem takeResponse_outcome {b : Byte} (h : takeResponse b s = .next t) : RspOutcome b s t := by
  rcases gate_eq_next.mp h with ⟨he, rfl⟩ | ⟨_, hf, _⟩ | ⟨he, _, _, hr, rfl⟩ | ⟨he, _, hr, hb⟩
  · exact .frozen he
  · cases hf
  · exact .notReady he hr
  · have hr := hr rfl
    split at hb
    · obtain rfl := cmdError_eq_next.mp hb
      exact .unexpected he hr (notAwaiting_eq_true.mp ‹_›)
    · obtain ⟨hf, hl⟩ := notAwaiting_eq_false.mp (by simpa using ‹¬notAwaiting s = true›)
      split at hb
      · obtain rfl := respond_eq_next.mp hb
        exact .ack he hr hf hl ‹_›
      · split at hb <;> obtain rfl := respond_eq_next.mp hb
        · exact .nak he hr hf hl ‹_›
        · exact .other he hr hf hl ‹_› ‹_›

theorem execTxTmo_eq_next {a : Byte} : execTxTmo a s = .next t ↔
    (s.err = true ∧ t = s.turnedAway) ∨
    (s.err = false ∧ reservedWhole a = true ∧ t = s.errored .reservedBits) ∨
    (s.err = false ∧ reservedWhole a = false ∧ s.ready = false ∧ t = s.errored .notReady) ∨
    (s.err = false ∧ reservedWhole a = false ∧ s.ready = true ∧ notAwaiting s = true ∧ t = s.errored .txState) ∨
    (s.err = false ∧ reservedWhole a = false ∧ s.ready = true ∧ notAwaiting s = false ∧
      t = { s with txp := 0 }.answered 0 none .txResend) := by
  unfold execTxTmo
  rw [gate_eq_next]
  cases hv : notAwaiting s <;> simp [resend]

/-! ### The frame that `PK_BUILD` leaves (44_packer.md R162 and R163) -/

@[simp] theorem buildFrame_flen : (buildFrame s).flen = BitVec.ofNat 8 (frameLen s.mode) :=
  rfl

@[simp] theorem buildFrame_txp : (buildFrame s).txp = 0 :=
  rfl

@[simp] theorem buildFrame_fvalid : (buildFrame s).fvalid = true :=
  rfl

@[simp] theorem buildFrame_ready : (buildFrame s).ready = s.ready := by
  unfold buildFrame
  cases s.mode <;> rfl

@[simp] theorem buildFrame_mode : (buildFrame s).mode = s.mode := by
  unfold buildFrame
  cases s.mode <;> rfl

@[simp] theorem buildFrame_err : (buildFrame s).err = s.err := by
  unfold buildFrame
  cases s.mode <;> rfl

@[simp] theorem buildFrame_ecode : (buildFrame s).ecode = s.ecode := by
  unfold buildFrame
  cases s.mode <;> rfl

@[simp] theorem buildFrame_levt : (buildFrame s).levt = s.levt := by
  unfold buildFrame
  cases s.mode <;> rfl

@[simp] theorem buildFrame_seq : (buildFrame s).seq = s.seq := by
  unfold buildFrame
  cases s.mode <;> rfl

@[simp] theorem buildFrame_last : (buildFrame s).last = s.last := by
  unfold buildFrame
  cases s.mode <;> rfl

@[simp] theorem buildFrame_lastv : (buildFrame s).lastv = s.lastv := by
  unfold buildFrame
  cases s.mode <;> rfl

@[simp] theorem buildFrame_ph : (buildFrame s).ph = s.ph := by
  unfold buildFrame
  cases s.mode <;> rfl

@[simp] theorem buildFrame_idx : (buildFrame s).idx = s.idx := by
  unfold buildFrame
  cases s.mode <;> rfl

@[simp] theorem buildFrame_rbn : (buildFrame s).rbn = s.rbn := by
  unfold buildFrame
  cases s.mode <;> rfl

@[simp] theorem buildFrame_rcp : (buildFrame s).rcp = s.rcp := by
  unfold buildFrame
  cases s.mode <;> rfl

@[simp] theorem buildFrame_rver : (buildFrame s).rver = s.rver := by
  unfold buildFrame
  cases s.mode <;> rfl

@[simp] theorem buildFrame_rbuf : (buildFrame s).rbuf = s.rbuf := by
  unfold buildFrame
  cases s.mode <;> rfl

@[simp] theorem buildFrame_rvalid : (buildFrame s).rvalid = s.rvalid := by
  unfold buildFrame
  cases s.mode <;> rfl

@[simp] theorem buildFrame_plen : (buildFrame s).plen = s.plen := by
  unfold buildFrame
  cases s.mode <;> rfl

@[simp] theorem buildFrame_resp : (buildFrame s).resp = s.resp := by
  unfold buildFrame
  cases s.mode <;> rfl

@[simp] theorem buildFrame_pending : (buildFrame s).pending = s.pending := by
  unfold buildFrame
  cases s.mode <;> rfl

/-- The bytes that the header and the padding leave at each index. -/
theorem framed_read (hp : s.plen.toNat ≤ 128) (hw : s.fbuf.wf = true) (a : Nat) : (framed s).read a =
    if a = 0 then Config.soh
    else if a = 1 then s.seq
    else if a = 2 then cpl s.seq
    else if payloadOff + s.plen.toNat ≤ a ∧ a < payloadOff + 128 then Config.fill
    else s.fbuf.read a := by
  unfold framed
  rw [Memory.read_writeSeq _ _ _ (Memory.writeSeq_wf _ _ hw), Memory.read_writeSeq _ _ _ hw]
  simp only [List.length_replicate, List.length_cons, List.length_nil, show Config.blk = 128 from rfl,
    show payloadOff = 3 from rfl]
  by_cases h : a < 3
  · interval_cases a <;> simp
  · have h0 : a ≠ 0 := by omega
    have h1 : a ≠ 1 := by omega
    have h2 : a ≠ 2 := by omega
    rw [if_neg (by omega), if_neg h0, if_neg h1, if_neg h2]
    by_cases hin : 3 + s.plen.toNat ≤ a ∧ a < 3 + 128
    · have hk : a - (3 + s.plen.toNat) < 128 - s.plen.toNat := by omega
      rw [if_pos (by omega)]
      simp [hk, hin]
    · rw [if_neg (by omega)]
      simp [hin]

theorem framed_wf (hw : s.fbuf.wf = true) : (framed s).wf = true :=
  Memory.writeSeq_wf _ _ (Memory.writeSeq_wf _ _ hw)

theorem verField_length (m : VerMode) (p : List Byte) : 131 + (verField m p).length = frameLen m := by
  cases m <;> rfl

theorem buildFrame_fbuf :
    (buildFrame s).fbuf = (framed s).writeSeq 131 (verField s.mode ((framed s).readSeq payloadOff Config.blk)) := by
  cases hm : s.mode <;> simp [buildFrame, hm]

/-- All that `PK_BUILD` changes in checksum mode. -/
theorem buildFrame_checksum (hm : s.mode = .checksum) : buildFrame s = { s with
    fbuf := (buildFrame s).fbuf, sum := checksum ((framed s).readSeq payloadOff Config.blk),
    flen := 132, txp := 0, fvalid := true } := by
  obtain ⟨_, m, _, _, _, _, _, _, _, _, _, _, _, _, _, _, _, _, _, _, _, _, _, _⟩ := s
  subst hm
  rfl

/-- All that `PK_BUILD` changes in CRC mode. -/
theorem buildFrame_crc (hm : s.mode = .crc) : buildFrame s = { s with
    fbuf := (buildFrame s).fbuf, crc := crc16 ((framed s).readSeq payloadOff Config.blk),
    flen := 133, txp := 0, fvalid := true } := by
  obtain ⟨_, m, _, _, _, _, _, _, _, _, _, _, _, _, _, _, _, _, _, _, _, _, _, _⟩ := s
  subst hm
  rfl

theorem buildFrame_wf (hw : s.fbuf.wf = true) : (buildFrame s).fbuf.wf = true := by
  rw [buildFrame_fbuf]
  exact Memory.writeSeq_wf _ _ (framed_wf hw)

/-- The first 131 bytes of the built frame. -/
theorem buildFrame_read_front (hw : s.fbuf.wf = true) {a : Nat} (ha : a < 131) :
    (buildFrame s).fbuf.read a = (framed s).read a := by
  rw [buildFrame_fbuf, Memory.read_writeSeq _ _ _ (framed_wf hw), if_neg (by omega)]

end Sys2Proof.Machine
end

