-- ==== Sys2Proof/Laws/Run.lean ====
section
/-!
SUPPORT. What a run of several instructions does, one instruction and one split at a time.
-/

namespace Sys2Proof

open Machine

variable {s t u : State}

theorem execAll_nil : execAll [] s = some ([], s) :=
  rfl

/-- A run goes on from the next state of its first instruction, with that instruction's responses in front. -/
theorem execAll_cons {i : Instr} {is : List Instr} (h : exec i s = .next t) :
    execAll (i :: is) s = (execAll is t).map fun r => (t.resp ++ r.1, r.2) := by
  simp only [execAll, h]

/-- The same, once the rest of the run is known. -/
theorem execAll_cons_of {i : Instr} {is : List Instr} {rs : List Response} (h : exec i s = .next t)
    (hs : execAll is t = some (rs, u)) : execAll (i :: is) s = some (t.resp ++ rs, u) := by
  simp only [execAll_cons h, hs, Option.map_some]

/-- A run answers when its first instruction and then the others do. -/
theorem execAll_cons_eq_some {i : Instr} {is : List Instr} {rs : List Response} :
    execAll (i :: is) s = some (rs, u) ↔
      ∃ t rs', exec i s = .next t ∧ execAll is t = some (rs', u) ∧ rs = t.resp ++ rs' := by
  simp only [execAll]
  cases exec i s with
  | next t =>
    constructor
    · intro h
      obtain ⟨⟨rs', u'⟩, h', he⟩ := Option.map_eq_some_iff.mp h
      obtain ⟨rfl, rfl⟩ := Prod.mk.inj he
      exact ⟨t, rs', rfl, h', rfl⟩
    · rintro ⟨t', rs', ht, h', rfl⟩
      cases ht
      simp [h']
  | fault f => simp
  | refused f => simp

/-- Two runs one after the other. -/
theorem execAll_append {is js : List Instr} {rs rs' : List Response} (h : execAll is s = some (rs, t))
    (h' : execAll js t = some (rs', u)) : execAll (is ++ js) s = some (rs ++ rs', u) := by
  induction is generalizing s rs with
  | nil =>
    cases h
    simpa using h'
  | cons i is ih =>
    obtain ⟨t1, rs1, h1, h2, rfl⟩ := execAll_cons_eq_some.mp h
    simpa using execAll_cons_of h1 (ih h2)

end Sys2Proof
end

