-- ==== Sys2Proof/Laws/Frames.lean ====
section
/-!
SUPPORT. Sequences of steps: the bytes of a frame into the unpacker, and a frame out of the packer byte by byte.
-/

namespace Sys2Proof.Machine

variable {s t u : State}

/-! ### Into the unpacker -/

theorem takeRxByte_of_idle {b : Byte} (he : s.err = false) (hr : s.ready = true) (hp : s.ph = .idle) :
    takeRxByte b s = rxIdle b s := by
  rw [takeRxByte, gate_of_open he fun _ => hr, hp]

theorem takeRxByte_of_num {b : Byte} (he : s.err = false) (hr : s.ready = true) (hp : s.ph = .num) :
    takeRxByte b s = rxNum b s := by
  rw [takeRxByte, gate_of_open he fun _ => hr, hp]

theorem takeRxByte_of_cmp {b : Byte} (he : s.err = false) (hr : s.ready = true) (hp : s.ph = .cmp) :
    takeRxByte b s = rxCmp b s := by
  rw [takeRxByte, gate_of_open he fun _ => hr, hp]

theorem rxCmp_of_ok {b : Byte} (h : hdrOk s.rbn b = true) :
    rxCmp b s = .next ({ s with rcp := b, ph := .pay, idx := 0 }.answered 0 none .none) :=
  if_pos h

theorem takeRxByte_of_pay {b : Byte} (he : s.err = false) (hr : s.ready = true) (hp : s.ph = .pay) :
    takeRxByte b s = rxPay b s := by
  rw [takeRxByte, gate_of_open he fun _ => hr, hp]

theorem takeRxByte_of_ver1 {b : Byte} (he : s.err = false) (hr : s.ready = true) (hp : s.ph = .ver1) :
    takeRxByte b s = rxVer1 b s := by
  rw [takeRxByte, gate_of_open he fun _ => hr, hp]

theorem takeRxByte_of_ver2 {b : Byte} (he : s.err = false) (hr : s.ready = true) (hp : s.ph = .ver2) :
    takeRxByte b s = rxVer2 b s := by
  rw [takeRxByte, gate_of_open he fun _ => hr, hp]

/-- A received byte does not look at the responses of the step before. -/
theorem takeRxByte_resp (b : Byte) (rs : List Response) : takeRxByte b { s with resp := rs } = takeRxByte b s :=
  rfl

theorem feedRx_resp (bs : List Byte) (rs : List Response) : feedRx bs { s with resp := rs } = feedRx bs s := by
  cases bs with
  | nil => rfl
  | cons b bs => simp only [feedRx, takeRxByte_resp]

/-- One byte and then the others, each with its result known. -/
theorem feedRx_cons_of {b : Byte} {bs : List Byte} (h : takeRxByte b s = .next t) (hs : feedRx bs t = .next u) :
    feedRx (b :: bs) s = .next { u with resp := t.resp ++ u.resp } :=
  feedRx_cons_eq_next.mpr ⟨t, u, h, hs, rfl⟩

/-- Two sequences of bytes one after the other, each with its result known. -/
theorem feedRx_append_of {as bs : List Byte} (h : feedRx as s = .next t) (hs : feedRx bs t = .next u) :
    feedRx (as ++ bs) s = .next { u with resp := t.resp ++ u.resp } := by
  induction as generalizing s t with
  | nil =>
    rw [feedRx_nil] at h
    cases h
    rw [feedRx_resp] at hs
    simpa using hs
  | cons a as ih =>
    obtain ⟨s1, s2, h1, h2, rfl⟩ := feedRx_cons_eq_next.mp h
    rw [feedRx_resp] at hs
    rw [List.cons_append, feedRx_cons_of h1 (ih h2 hs)]
    simp

/-- A single byte. -/
theorem feedRx_single {b : Byte} (h : takeRxByte b s = .next t) : feedRx [b] s = .next t := by
  rw [feedRx_cons_of h feedRx_nil]
  simp

/-- The bytes that fill the payload (43_unpacker.md R137): they are in `RBUF` in order, and the verification field is next. -/
theorem feedRx_payload {bs : List Byte} (he : s.err = false) (hr : s.ready = true) (hp : s.ph = .pay) (hb : bs ≠ [])
    (hl : s.idx.toNat + bs.length = 128) : feedRx bs s = .next { s with
      rbuf := s.rbuf.writeSeq s.idx.toNat bs, ph := .ver1, idx := 0,
      resp := List.replicate bs.length (Response.ok 0 none .none) } := by
  induction bs generalizing s with
  | nil => exact absurd rfl hb
  | cons b bs ih =>
    simp only [List.length_cons] at hl
    have hlt : s.idx.toNat < rbufSize := by
      simp only [rbufSize]
      omega
    have hbody := takeRxByte_of_pay (b := b) he hr hp
    rw [rxPay, storeRbuf_of_lt hlt] at hbody
    by_cases hn : bs = []
    · subst hn
      have hi : s.idx = 127 := BitVec.eq_of_toNat_eq (by simp at hl; simpa using hl)
      rw [if_pos hi, hi] at hbody
      rw [feedRx_single hbody, hi]
      rfl
    · have hpos : 0 < bs.length := List.length_pos_iff.mpr hn
      have hi : s.idx ≠ 127 := by
        intro h
        rw [h] at hl
        simp at hl
        omega
      rw [if_neg hi] at hbody
      have hnext : (s.idx + 1).toNat = s.idx.toNat + 1 := by
        rw [BitVec.toNat_add]
        simp
        omega
      have hrest := ih (s := ({ s with rbuf := s.rbuf.write s.idx.toNat b, idx := s.idx + 1 }).answered 0 none .none) he hr hp hn
        (by simp only [State.answered_idx, hnext]; omega)
      rw [feedRx_cons_of hbody hrest]
      simp only [State.answered_rbuf, State.answered_idx, hnext]
      rfl

/-- The first bytes of a frame with a consistent header and its payload (30_encoding.md R62 and R63): header, payload in `RBUF`, and the
verification field next. -/
theorem feedRx_front {n c : Byte} {p : List Byte} (he : s.err = false) (hr : s.ready = true) (hp : s.ph = .idle)
    (hc : hdrOk n c = true) (hl : p.length = Config.blk) : feedRx (Config.soh :: n :: c :: p) s = .next { s with
      rbuf := s.rbuf.writeSeq 0 p, rvalid := false, rbn := n, rcp := c, ph := .ver1, idx := 0,
      resp := List.replicate 131 (Response.ok 0 none .none) } := by
  have h1 : takeRxByte Config.soh s = .next ({ s with ph := .num, rvalid := false }.answered 0 none .none) :=
    takeRxByte_of_idle he hr hp
  have h2 : takeRxByte n ({ s with ph := .num, rvalid := false }.answered 0 none .none) = .next
      ({ s with ph := .cmp, rvalid := false, rbn := n }.answered 0 none .none) :=
    takeRxByte_of_num he hr rfl
  have h3 : takeRxByte c ({ s with ph := .cmp, rvalid := false, rbn := n }.answered 0 none .none) = .next
      ({ s with ph := .pay, rvalid := false, rbn := n, rcp := c, idx := 0 }.answered 0 none .none) := by
    have h := takeRxByte_of_cmp (b := c)
      (s := State.answered { s with ph := .cmp, rvalid := false, rbn := n } 0 none .none) he hr rfl
    exact h.trans (rxCmp_of_ok hc)
  have hne : p ≠ [] := by
    rintro rfl
    simp [Config.blk] at hl
  have h4 := feedRx_payload (s := State.answered { s with ph := .pay, rvalid := false, rbn := n, rcp := c, idx := 0 } 0 none .none)
    (bs := p) he hr rfl hne (by simpa [Config.blk] using hl)
  rw [feedRx_cons_of h1 (feedRx_cons_of h2 (feedRx_cons_of h3 h4)), hl]
  rfl

/-! ### Out of the packer -/

/-- `TX_NEXT` while bytes of the frame are left (44_packer.md R164). -/
theorem execTxNext_out (he : s.err = false) (hr : s.ready = true) (hf : s.fvalid = true) (hl : s.txp.toNat < s.flen.toNat)
    (hb : s.flen.toNat ≤ 133) : execTxNext 0 s = .next ({ s with txp := s.txp + 1 }.answered
      ((s.fbuf.read s.txp.toNat).setWidth 16) none (if s.txp + 1 = s.flen then .txLast else .none)) := by
  have hle : ¬s.flen ≤ s.txp := by
    rw [BitVec.le_def]
    omega
  have hi : s.txp.toNat < fbufSize := by
    simp only [fbufSize]
    omega
  unfold execTxNext
  rw [show reservedWhole 0 = false from rfl, gate_of_open he fun _ => hr, loadFbuf_of_lt hi]
  simp [hf, hle, respond]

/-- The rest of a pass over the frame: its bytes in order. -/
theorem execAll_txNext {n : Nat} (he : s.err = false) (hr : s.ready = true) (hf : s.fvalid = true)
    (hn : s.txp.toNat + (n + 1) = s.flen.toNat) (hb : s.flen.toNat ≤ 133) : ∃ rs u,
      execAll (List.replicate (n + 1) (.txNext 0)) s = some (rs, { s with txp := s.flen, levt := .txLast, resp := u }) ∧
      (rs.map fun r => r.data) = (s.fbuf.readSeq s.txp.toNat (n + 1)).map fun b => b.setWidth 16 := by
  induction n generalizing s with
  | zero =>
    have h1 := execTxNext_out he hr hf (by omega) hb
    have hlast : s.txp + 1 = s.flen := BitVec.eq_of_toNat_eq (by
      rw [BitVec.toNat_add]
      simp
      omega)
    rw [if_pos hlast] at h1
    refine ⟨_, _, execAll_cons_of h1 (execAll_nil.trans (by rw [State.answered, hlast]; rfl)), rfl⟩
  | succ n ih =>
    have h1 := execTxNext_out he hr hf (by omega) hb
    have hnext : (s.txp + 1).toNat = s.txp.toNat + 1 := by
      rw [BitVec.toNat_add]
      simp
      omega
    have hmore : s.txp + 1 ≠ s.flen := by
      intro h
      have := congrArg BitVec.toNat h
      omega
    rw [if_neg hmore] at h1
    obtain ⟨rs, u, h2, h3⟩ := ih (s := { s with txp := s.txp + 1 }.answered ((s.fbuf.read s.txp.toNat).setWidth 16) none .none)
      he hr hf (by simp only [State.answered_txp, State.answered_flen, hnext]; omega) hb
    refine ⟨_, u, execAll_cons_of h1 h2, ?_⟩
    simp only [State.answered_txp, State.answered_fbuf, hnext] at h3
    rw [List.map_append, h3, Memory.readSeq]
    rfl

end Sys2Proof.Machine
end

