-- ==== Sys2Proof/Laws/PerInstr.lean ====
section
/-!
SUPPORT. One statement about every instruction as syntax: its encoding is a word of its own row of spec/opcode_table.json.
-/

namespace Sys2Proof.Laws.TableRow

/-- A row of spec/opcode_table.json: the mask and the match of a command word, or the first byte and the length of a wire item. -/
inductive Row where
  | command (mask want : Cmd)
  | wire (first : Byte) (bytes : Nat)
deriving DecidableEq, Repr

/-- The table, with the numbers it gives. -/
def row : Instr → Row
  | .init _ => .command 0xFFE 0x000
  | .rd _ => .command 0xF00 0x100
  | .sumClr _ => .command 0xFFF 0x200
  | .sumUpd _ => .command 0xF00 0x300
  | .crcClr _ => .command 0xFFF 0x400
  | .crcUpd _ => .command 0xF00 0x500
  | .rxByte _ => .command 0xF00 0x600
  | .rxTmo _ => .command 0xFFF 0x700
  | .rbRd _ => .command 0xF80 0x800
  | .pkPut _ => .command 0xF00 0x900
  | .pkBuild _ => .command 0xFFF 0xA00
  | .txNext _ => .command 0xFFF 0xB00
  | .txRsp _ => .command 0xF00 0xC00
  | .txTmo _ => .command 0xFFF 0xD00
  | .reservedOpE _ => .command 0xF00 0xE00
  | .reservedOpF _ => .command 0xF00 0xF00
  | .frameChecksum _ _ _ _ => .wire 0x01 132
  | .frameCrc _ _ _ _ _ => .wire 0x01 133
  | .soh _ => .wire 0x01 1
  | .eot _ => .wire 0x04 1
  | .ack _ => .wire 0x06 1
  | .nak _ => .wire 0x15 1
  | .can _ => .wire 0x18 1
  | .crq _ => .wire 0x43 1

/-- The encoding is a word of the row. -/
def fits : Row → Encoded → Bool
  | .command mask want, .command w => w &&& mask == want
  | .wire first bytes, .wire _ b bs => b == first && bs.length + 1 == bytes
  | .command _ _, .wire _ _ _ => false
  | .wire _ _, .command _ => false

/-- A well-formed instruction that uses no reserved operand bit is encoded as a word of its row. -/
def Statement (i : Instr) : Prop :=
  i.wellFormed = true → i.reservedClear = true → fits (row i) (encode i) = true

theorem init (arg : Byte) : Statement (.init arg) := by
  unfold Statement
  revert arg
  decide +kernel

theorem rd (r : Byte) : Statement (.rd r) := by
  unfold Statement
  revert r
  decide +kernel

theorem sumClr (arg : Byte) : Statement (.sumClr arg) := by
  unfold Statement
  revert arg
  decide +kernel

theorem sumUpd (b : Byte) : Statement (.sumUpd b) := by
  unfold Statement
  revert b
  decide +kernel

theorem crcClr (arg : Byte) : Statement (.crcClr arg) := by
  unfold Statement
  revert arg
  decide +kernel

theorem crcUpd (b : Byte) : Statement (.crcUpd b) := by
  unfold Statement
  revert b
  decide +kernel

theorem rxByte (b : Byte) : Statement (.rxByte b) := by
  unfold Statement
  revert b
  decide +kernel

theorem rxTmo (arg : Byte) : Statement (.rxTmo arg) := by
  unfold Statement
  revert arg
  decide +kernel

theorem rbRd (arg : Byte) : Statement (.rbRd arg) := by
  unfold Statement
  revert arg
  decide +kernel

theorem pkPut (b : Byte) : Statement (.pkPut b) := by
  unfold Statement
  revert b
  decide +kernel

theorem pkBuild (arg : Byte) : Statement (.pkBuild arg) := by
  unfold Statement
  revert arg
  decide +kernel

theorem txNext (arg : Byte) : Statement (.txNext arg) := by
  unfold Statement
  revert arg
  decide +kernel

theorem txRsp (b : Byte) : Statement (.txRsp b) := by
  unfold Statement
  revert b
  decide +kernel

theorem txTmo (arg : Byte) : Statement (.txTmo arg) := by
  unfold Statement
  revert arg
  decide +kernel

theorem reservedOpE (arg : Byte) : Statement (.reservedOpE arg) := by
  unfold Statement
  revert arg
  decide +kernel

theorem reservedOpF (arg : Byte) : Statement (.reservedOpF arg) := by
  unfold Statement
  revert arg
  decide +kernel

theorem frameChecksum (n c : Byte) (payload : List Byte) (v : Byte) : Statement (.frameChecksum n c payload v) := by
  intro h _
  have hl : payload.length = 128 := by simpa [Instr.wellFormed, payloadOk, Config.blk] using h
  simp [fits, row, encode, Config.soh, hl]

theorem frameCrc (n c : Byte) (payload : List Byte) (hi lo : Byte) : Statement (.frameCrc n c payload hi lo) := by
  intro h _
  have hl : payload.length = 128 := by simpa [Instr.wellFormed, payloadOk, Config.blk] using h
  simp [fits, row, encode, Config.soh, hl]

theorem soh (side : Side) : Statement (.soh side) :=
  fun _ _ => rfl

theorem eot (side : Side) : Statement (.eot side) :=
  fun _ _ => rfl

theorem ack (side : Side) : Statement (.ack side) :=
  fun _ _ => rfl

theorem nak (side : Side) : Statement (.nak side) :=
  fun _ _ => rfl

theorem can (side : Side) : Statement (.can side) :=
  fun _ _ => rfl

theorem crq (side : Side) : Statement (.crq side) :=
  fun _ _ => rfl

end Sys2Proof.Laws.TableRow
end

