-- ==== Sys2Proof/Tests/Slice0.lean ====
section
/-!
SUPPORT. Tests of the model on fixed values. The expected values are those of spec/95_test_vectors.md (the vector is named) or are written
out from the encoding tables of spec/30_encoding.md. The last part shows, for every obligation with hypotheses, values that meet them.
-/

namespace Sys2Proof.Tests

open Sys2Proof Sys2Proof.Machine Sys2Proof.Claims

/-- The next state, if there is one. -/
def after (r : Result) : Option State :=
  match r with
  | .next t => some t
  | .fault _ => none
  | .refused _ => none

/-- One field of the state after an instruction. -/
def see {α : Type} (f : State → α) (i : Instr) (s : State) : Option α :=
  (after (exec i s)).map f

/-- The state after `INIT 0`. -/
def inSum : State := { State.reset with ready := true }

/-- The state after `INIT 1`. -/
def inCrc : State := { State.reset with ready := true, mode := .crc }

/-- Frozen by a reserved operation code. -/
def frozen : State := { inSum with err := true, ecode := .opcode }

/-- Checksum mode, the block number is next. -/
def atNum : State := { inSum with ph := .num }

/-- Checksum mode, number 0x01 received, the complement is next. -/
def atCmp : State := { inSum with ph := .cmp, rbn := 0x01 }

/-- Checksum mode, the first payload byte is next. -/
def atPay : State := { inSum with ph := .pay, rbn := 0x01, rcp := 0xFE }

/-- The last payload byte is next. -/
def atPayLast : State := { atPay with idx := 127 }

/-- Checksum mode, the payload is 128 zero bytes, the checksum is next. -/
def atVer1 : State := { atPay with ph := .ver1 }

/-- CRC mode, the payload is 128 zero bytes, the high CRC byte is next. -/
def atVer1Crc : State := { atVer1 with mode := .crc }

/-- CRC mode, the low CRC byte is next, the high one was 0x00. -/
def atVer2 : State := { atVer1Crc with ph := .ver2 }

/-- End-of-transmission was accepted. -/
def atDone : State := { inSum with ph := .done, levt := .rxEot }

/-- A block 0x01 whose payload byte 127 is 0x7F was accepted. -/
def accepted : State :=
  { inSum with
    rvalid := true, lastv := true, last := 0x01, seq := 0x02, rbn := 0x01, rcp := 0xFE, levt := .rxAccept,
    rbuf := [(127, 0x7F)] }

/-- Two bytes of a chunk are loaded, checksum mode. -/
def loaded : State := { inSum with plen := 2, fbuf := [(3, 0x48), (4, 0x69)] }

/-- A full chunk is loaded. -/
def full : State := { inSum with plen := 128, fbuf := [(3, 0x48)] }

/-- A checksum-mode frame (its payload is 0x48 and then zeros) is outstanding, nothing handed out. -/
def built : State :=
  { inSum with
    plen := 128, flen := 132, fvalid := true, fbuf := [(0, 0x01), (1, 0x01), (2, 0xFE), (3, 0x48), (131, 0x48)] }

/-- Its last byte is next. -/
def lastOut : State := { built with txp := 131 }

/-- It has been handed out whole. -/
def sent : State := { built with txp := 132 }

/-! ### Well-formedness -/

theorem test_ill_formed_checksum_frame : (Instr.frameChecksum 0x01 0xFE [0x41] 0x41).wellFormed = false := by decide

theorem test_ill_formed_crc_frame : (Instr.frameCrc 0x01 0xFE (List.replicate 129 0x00) 0x00 0x00).wellFormed = false := by
  decide +kernel

theorem test_reserved_bits : (Instr.init 0x02).reservedClear = false ∧ (Instr.sumClr 0x01).reservedClear = false ∧
    (Instr.crcClr 0x80).reservedClear = false ∧ (Instr.rxTmo 0xFF).reservedClear = false ∧
    (Instr.rbRd 0x80).reservedClear = false ∧ (Instr.pkBuild 0x01).reservedClear = false ∧
    (Instr.txNext 0x01).reservedClear = false ∧ (Instr.txTmo 0x01).reservedClear = false := by decide

theorem test_reserved_bits_clear : (Instr.init 0x01).reservedClear = true ∧ (Instr.rbRd 0x7F).reservedClear = true := by decide

/-! ### Decoding: words written out from 30_encoding.md R60, R62, R63, R68 and R69 -/

/-- `op` in bits 11:8, `arg` in bits 7:0. -/
theorem test_decode_system : decodeCommand 0b0000_0000_0001 = .init 0x01 ∧ decodeCommand 0b0001_0000_1010 = .rd 0x0A := by decide

theorem test_decode_sum : decodeCommand 0b0010_0000_0000 = .sumClr 0x00 ∧ decodeCommand 0b0011_0011_0101 = .sumUpd 0x35 := by
  decide

theorem test_decode_crc : decodeCommand 0b0100_0000_0000 = .crcClr 0x00 ∧ decodeCommand 0b0101_0011_0001 = .crcUpd 0x31 := by
  decide

theorem test_decode_unpacker : decodeCommand 0b0110_1111_1110 = .rxByte 0xFE ∧ decodeCommand 0b0111_0000_0000 = .rxTmo 0x00 ∧
    decodeCommand 0b1000_0111_1111 = .rbRd 0x7F := by decide

theorem test_decode_packer : decodeCommand 0b1001_0100_1000 = .pkPut 0x48 ∧ decodeCommand 0b1010_0000_0000 = .pkBuild 0x00 ∧
    decodeCommand 0b1011_0000_0000 = .txNext 0x00 ∧ decodeCommand 0b1100_0001_0101 = .txRsp 0x15 ∧
    decodeCommand 0b1101_0000_0000 = .txTmo 0x00 := by decide

theorem test_decode_reserved : decodeCommand 0b1110_0000_0000 = .reservedOpE 0x00 ∧
    decodeCommand 0b1111_1111_1111 = .reservedOpF 0xFF := by decide

theorem test_decode_control_bytes : decode true .checksum (.wire .rx 0x01 []) = (.soh .rx, []) ∧
    decode true .crc (.wire .rx 0x04 [0x55]) = (.eot .rx, [0x55]) ∧ decode true .crc (.wire .tx 0x06 []) = (.ack .tx, []) ∧
    decode true .crc (.wire .tx 0x15 []) = (.nak .tx, []) ∧ decode true .crc (.wire .rx 0x18 []) = (.can .rx, []) ∧
    decode true .crc (.wire .tx 0x43 []) = (.crq .tx, []) := by decide

/-- No control byte inside a frame, and 0x07 is none anywhere (R61, R66). -/
theorem test_decode_plain_bytes : decode false .checksum (.wire .rx 0x04 []) = (.rxByte 0x04, []) ∧
    decode false .checksum (.wire .tx 0x06 []) = (.txRsp 0x06, []) ∧
    decode true .checksum (.wire .rx 0x07 []) = (.rxByte 0x07, []) := by decide

/-- The checksum-mode frame of block 1 with payload `Z` (R62), and a byte after it. -/
theorem test_decode_checksum_frame :
    decode true .checksum (.wire .rx 0x01 ([0x01, 0xFE] ++ List.replicate 128 0x00 ++ [0x00, 0x04])) =
      (.frameChecksum 0x01 0xFE (List.replicate 128 0x00) 0x00, [0x04]) := by
  decide +kernel

/-- The CRC-mode frame of block 2 with payload `F`, CRC 0xEDA9 high byte first (R63). -/
theorem test_decode_crc_frame :
    decode true .crc (.wire .rx 0x01 ([0x02, 0xFD] ++ List.replicate 128 0xFF ++ [0xED, 0xA9])) =
      (.frameCrc 0x02 0xFD (List.replicate 128 0xFF) 0xED 0xA9, []) := by
  decide +kernel

/-- A whole frame as a row's bits: first byte 0x01, second 0x02, the others zero. -/
theorem test_table_word_frames :
    decodeTableWord 1056 0x0201 = some (.frameChecksum 0x02 0x00 (List.replicate 128 0x00) 0x00) ∧
    decodeTableWord 1064 0x0201 = some (.frameCrc 0x02 0x00 (List.replicate 128 0x00) 0x00 0x00) := by
  decide +kernel

theorem test_decode_rejects : decodeRaw 16 0x1000 = .error .commandTooWide ∧ decodeRaw 8 0x100 = .error .byteTooWide ∧
    decodeRaw 24 0x01 = .error .noSuchLength ∧ decodeRaw 1056 0x02 = .error .notAFrame := by decide

theorem test_fetch_word_runs : step (State.reset.withFetchWord 16 0x341) = exec (.sumUpd 0x41) State.reset :=
  rfl

theorem test_fetch_control_byte_runs : step (State.reset.withFetchWord 8 0x06) = exec (.ack .tx) State.reset :=
  rfl

/-! ### The pure functions (95_test_vectors.md L2.1, L2.2, L2.3) -/

/-- "123456789". -/
def digits : List Byte := [0x31, 0x32, 0x33, 0x34, 0x35, 0x36, 0x37, 0x38, 0x39]

theorem test_checksum : checksum digits = 0xDD ∧ checksum (List.replicate 128 0xFF) = 0x80 := by decide +kernel

theorem test_crc16 : crc16 digits = 0x31C3 ∧ crc16 [0xFF, 0xFF] = 0x1D0F ∧ crc16 [0x01, 0x00] = 0x3331 := by decide +kernel

theorem test_crc_bit : crcBit 0x8810 = 0x0001 ∧ crcBit 0xC000 = 0x9021 ∧ crcBit 0x7FFF = 0xFFFE := by decide

theorem test_crc_byte : crcByte 0x1234 0x56 = 0x3C40 ∧ crcSerialByte 0x1234 0x56 = 0x3C40 ∧
    crcParallelByte 0x1234 0x56 = 0x3C40 := by decide +kernel

theorem test_sequencing : cpl 0x2C = 0xD3 ∧ hdrOk 0x80 0x7F = true ∧ hdrOk 0x02 0xFE = false ∧ seqNext 0xFF = 0x00 := by decide

/-! ### One step of each operation (95_test_vectors.md) -/

/-- Y3. -/
theorem test_init : see statusWord (.init 0x01) State.reset = some 0x0003 := by decide

/-- Y5. -/
theorem test_init_reserved : see statusWord (.init 0x02) State.reset = some 0x0004 := by decide

/-- L2.6, the decoding example 0x2631. -/
theorem test_rd_status : see State.resp (.rd 0x00) { accepted with ph := .done, levt := .rxEot } = some [dataResp 0x2631] := by
  decide

/-- Y6: a bad index does not overwrite an earlier code. -/
theorem test_rd_bad_index : see State.ecode (.rd 0xFF) frozen = some .opcode := by decide

/-- L2.1, 0x201. -/
theorem test_sum_clr_reserved : see State.ecode (.sumClr 0x01) State.reset = some .reservedBits := by decide

theorem test_sum_clr : see State.sum (.sumClr 0x00) { State.reset with sum := 0xDD } = some 0x00 := by decide

/-- L2.1: `SUM_UPD 0x41` with `SUM` = 0xDD. -/
theorem test_sum_upd : see State.sum (.sumUpd 0x41) { State.reset with sum := 0xDD } = some 0x1E := by decide

/-- L2.2, 0x480. -/
theorem test_crc_clr_reserved : see State.ecode (.crcClr 0x80) State.reset = some .reservedBits := by decide

theorem test_crc_clr : see State.crc (.crcClr 0x00) { State.reset with crc := 0x20B5 } = some 0x0000 := by decide

/-- L2.2: `CRC_UPD 0x32` with `CRC` = 0x2672. -/
theorem test_crc_upd : see State.crc (.crcUpd 0x32) { State.reset with crc := 0x2672 } = some 0x20B5 := by decide

/-- U4. -/
theorem test_rx_byte_header_error : see State.resp (.rxByte 0xFF) atCmp = some [txResp 0x15 .rxHdrErr] := by decide

/-- The checksum of 128 zero bytes is 0x00, so 0x01 is rejected (R142). -/
theorem test_rx_byte_reject : see State.resp (.rxByte 0x01) atVer1 = some [txResp 0x15 .rxVerErr] := by decide +kernel

/-- U18: inside a payload. -/
theorem test_rx_tmo : see (fun t => (t.idx, statusWord t)) (.rxTmo 0x00) { inCrc with ph := .pay, idx := 0x32 } =
    some (0x00, 0x5003) := by decide

/-- U16. -/
theorem test_rx_tmo_done : see statusWord (.rxTmo 0x00) atDone = some 0x2605 := by decide

/-- U20. -/
theorem test_rb_rd : see State.resp (.rbRd 0x7F) accepted = some [dataResp 0x007F] := by decide

/-- U21. -/
theorem test_rb_rd_reserved : see State.ecode (.rbRd 0x80) accepted = some .reservedBits := by decide

/-- K1. -/
theorem test_pk_put : see (fun t => (t.fbuf, t.plen)) (.pkPut 0x48) inCrc = some ([(3, 0x48)], 1) := by decide

/-- K14. -/
theorem test_pk_put_full : see State.ecode (.pkPut 0x41) full = some .pkFull := by decide

/-- K3. -/
theorem test_pk_build_checksum : see (fun t => (t.sum, t.fbuf.read 2, t.fbuf.read 130, t.fbuf.read 131, statusWord t)) (.pkBuild 0x00)
    loaded = some (0x7D, 0xFE, 0x1A, 0x7D, 0x0009) := by decide +kernel

/-- K2. -/
theorem test_pk_build_crc : see (fun t => (t.flen, t.txp, t.fvalid, t.sum, t.resp)) (.pkBuild 0x00) { loaded with mode := .crc } =
    some (0x85, 0x00, true, 0x00, [dataResp 0x0085]) := by decide +kernel

/-- K4: the third byte of the frame. -/
theorem test_tx_next : see (fun t => (t.txp, t.resp)) (.txNext 0x00) { built with txp := 2 } = some (3, [dataResp 0x00FE]) := by
  decide

/-- K5: the last byte, `evt` = 11. -/
theorem test_tx_next_last : see State.levt (.txNext 0x00) lastOut = some .txLast := by decide

/-- K11. -/
theorem test_tx_rsp_ack : see (fun t => (t.seq, t.plen, t.flen, t.txp)) (.txRsp 0x06) sent = some (0x02, 0, 0, 0) := by decide

/-- K17. -/
theorem test_tx_rsp_early : see State.ecode (.txRsp 0x06) built = some .txState := by decide

/-- K7. -/
theorem test_tx_tmo : see (fun t => (t.txp, t.resp)) (.txTmo 0x00) sent = some (0, [evtResp .txResend]) := by decide

/-- K18. -/
theorem test_tx_tmo_early : see State.ecode (.txTmo 0x00) { built with txp := 1 } = some .txState := by decide

/-- Y6. -/
theorem test_reserved_op_e : see State.ecode (.reservedOpE 0x00) State.reset = some .opcode := by decide

/-- Y7: the operation code is checked before the operand. -/
theorem test_reserved_op_f : see State.ecode (.reservedOpF 0xFF) State.reset = some .opcode := by decide

/-! ### Wire items -/

/-- A frame with a bad header is answered at its third byte, and the other bytes are read at the boundary (P5). -/
theorem test_frame_bad_header : see State.levt (.frameChecksum 0x02 0xFE (List.replicate 128 0x00) 0x00) inSum = some .rxIgnored := by
  decide +kernel

/-- The same in CRC mode: block 5 with a complement that is one too high. -/
theorem test_frame_crc_bad_header : see (fun t => (t.rbn, t.rcp, statusWord t)) (.frameCrc 0x05 0xFB (List.replicate 128 0xAA) 0xB6 0xCE)
    inCrc = some (0x05, 0xFB, 0x7003) := by
  decide +kernel

/-- U1. -/
theorem test_soh : see statusWord (.soh .rx) inSum = some 0x0101 := by decide

/-- U15. -/
theorem test_eot : see (fun t => (statusWord t, t.resp)) (.eot .rx) inSum = some (0x2601, [txResp 0x06 .rxEot]) := by decide

/-- U14 and K11. -/
theorem test_ack : see statusWord (.ack .rx) inSum = some 0x7001 ∧ see State.seq (.ack .tx) sent = some 0x02 := by decide

/-- U14 and K8. -/
theorem test_nak : see statusWord (.nak .rx) inSum = some 0x7001 ∧ see State.txp (.nak .tx) sent = some 0 := by decide

/-- U14 and K9. -/
theorem test_can : see statusWord (.can .rx) inSum = some 0x7001 ∧ see State.levt (.can .tx) sent = some .txRepoll := by decide

/-- U14 and K10. -/
theorem test_crq : see statusWord (.crq .rx) inSum = some 0x7001 ∧ see State.levt (.crq .tx) sent = some .txRepoll := by decide

/-- P7, both columns: the repeated block 1, checksum 0x00, for either setting of `DUP_SUPPRESS`. -/
theorem test_duplicate :
    (after (verdictAcceptWith false { accepted with ph := .ver1, rvalid := false })).map (fun t => (t.seq, t.levt, t.rvalid)) =
      some (0x03, .rxAccept, true) ∧
    (after (verdictAcceptWith true { accepted with ph := .ver1, rvalid := false })).map (fun t => (t.seq, t.levt, t.rvalid)) =
      some (0x02, .rxDup, false) := by decide

/-! ### Values that meet the hypotheses of each obligation, one clause after the other -/

theorem completes {i : Instr} {s : State} (h : (after (exec i s)).isSome = true) : ∃ t, exec i s = .next t := by
  cases hx : exec i s with
  | next t => exact ⟨t, rfl⟩
  | fault f => simp [hx, after] at h
  | refused r => simp [hx, after] at h

theorem witness_StepRunsThePresentedCommand :
    { inSum with pending := [.item (.command 0x341), .reset] }.pending = .item (.command 0x341) :: [.reset] := rfl

/-- A command in a frozen state, a frame in its own mode at the boundary, a control byte on each side. -/
theorem witness_StepRunsTheEncodedInstruction :
    ((Instr.sumUpd 0x41).wellFormed = true ∧ (Instr.sumUpd 0x41).layoutMode = none ∧
      ∀ side b bs, encode (.sumUpd 0x41) = .wire side b bs → atBoundary side frozen = true) ∧
    ((Instr.frameCrc 0x01 0xFE (List.replicate 128 0x00) 0x00 0x00).wellFormed = true ∧
      (Instr.frameCrc 0x01 0xFE (List.replicate 128 0x00) 0x00 0x00).layoutMode = some inCrc.mode ∧ atBoundary .rx inCrc = true) ∧
    atBoundary .rx inSum = true ∧ atBoundary .tx sent = true :=
  ⟨⟨rfl, rfl, fun _ _ _ h => by cases h⟩, ⟨by decide +kernel, rfl, rfl⟩, rfl, rfl⟩

theorem witness_BytesInsideAFrameAreNeverControlBytes :
    ({ atNum with pending := [.item (.wire .rx 0x04 [0xFB])] }.pending = .item (.wire .rx 0x04 [0xFB]) :: [] ∧
      atBoundary .rx atNum = false) ∧
    ({ built with pending := [.item (.wire .tx 0x06 [])] }.pending = .item (.wire .tx 0x06 []) :: [] ∧
      atBoundary .tx built = false) := by decide

theorem witness_ResetInputAndIdleStep :
    { frozen with pending := [.reset, .reset] }.pending = .reset :: [.reset] ∧ frozen.pending = [] := by decide

theorem witness_DecodeEncodeAgree :
    ((Instr.rd 0xFF).wellFormed = true ∧ (Instr.rd 0xFF).layoutMode = none) ∧
    ((Instr.frameChecksum 0x00 0x00 (List.replicate 128 0xFF) 0xFF).wellFormed = true ∧
      (Instr.frameChecksum 0x00 0x00 (List.replicate 128 0xFF) 0xFF).layoutMode = some .checksum) := by decide +kernel

theorem witness_WireItemLengthFromFirstByteAndMode :
    131 ≤ (List.replicate 131 (0x01 : Byte)).length ∧ 132 ≤ (List.replicate 132 (0x01 : Byte)).length ∧ (0x04 : Byte) ≠ 0x01 := by
  simp

theorem witness_ChecksumArithmeticLaws : [(0x01 : Byte), 0x02].Perm [0x02, 0x01] ∧ (0xFF : Byte) ≠ 0x00 :=
  ⟨List.Perm.swap _ _ _, by decide⟩

/-- Both ends of the range of a bit number. -/
theorem witness_CrcStepsAreAsTheRulesGive : 0 < 16 ∧ 15 < 16 := by decide

theorem witness_CrcBitSerialFormAgrees : 0 < 16 ∧ 5 < 16 ∧ 12 < 16 ∧ 15 < 16 := by decide

theorem witness_CrcIsLinear : [(0xAA : Byte), 0x55].length = [(0x55 : Byte), 0xAA].length := rfl

/-- The first and the last bit of a block. -/
theorem witness_CrcDetectsOneAndTwoBitErrors : (List.replicate 128 (0x00 : Byte)).length = 128 ∧ 0 < 1024 ∧ 1023 < 1024 ∧ 0 ≠ 1023 := by
  simp

theorem witness_OrderOfCommandChecks :
    (0x0A < (0x0B : Byte).toNat ∧ (0x0A : Byte).toNat ≤ 0x0A) ∧
    ((Instr.init 0x00).isCommand = true ∧ isRd (.init 0x00) = false ∧ frozen.err = true) ∧
    inSum.err = false ∧
    ((Instr.rxTmo 0xFF).isCommand = true ∧ State.reset.err = false ∧ (Instr.rxTmo 0xFF).reservedClear = false) ∧
    ((Instr.rbRd 0x7F).isCommand = true ∧ (Instr.rbRd 0x7F).reservedClear = true ∧ (Instr.rbRd 0x7F).needsReady = true ∧
      State.reset.ready = false) ∧
    ((atDone.err = false ∧ atDone.ready = true) ∧ atDone.ph = .done) ∧
    ((inSum.err = false ∧ inSum.ready = true) ∧ (0x7F : Byte).getLsbD 7 = false ∧ inSum.rvalid = false) ∧
    ((built.err = false ∧ built.ready = true) ∧ built.fvalid = true) ∧
    ((full.err = false ∧ full.ready = true) ∧ full.fvalid = false ∧ full.plen = 128) ∧
    (inSum.fvalid = false ∧ inSum.plen = 0) ∧
    ((sent.err = false ∧ sent.ready = true) ∧ sent.flen.toNat ≤ sent.txp.toNat) ∧
    (lastOut.err = false ∧ lastOut.ready = true) ∧ lastOut.txp ≠ lastOut.flen := by decide

theorem witness_FrozenWhileErrIsSet : frozen.err = true ∧ isRd (.init 0x00) = false := by decide

/-- A frozen state, an instruction that finds `ERR` = 0 and sets it, and a reset of a frozen state. -/
theorem witness_FirstErrorIsKeptUntilReset :
    (∃ t, exec (.rd 0xFF) frozen = .next t) ∧ frozen.err = true ∧
    (∃ t, exec (.rd 0x0B) inSum = .next t ∧ inSum.err = false ∧ t.err = true) ∧
    ∃ t, step { frozen with pending := [.reset] } = .next t ∧ t.err = false :=
  ⟨⟨_, rfl⟩, rfl, ⟨_, rfl, rfl, rfl⟩, ⟨_, rfl, rfl⟩⟩

theorem witness_OneResponseForEachCommand :
    (∃ t, exec (.rd 0x00) frozen = .next t) ∧ (∃ t, exec (.rbRd 0x7F) accepted = .next t) ∧
    (∃ t, exec (.txNext 0x00) lastOut = .next t) ∧ (∃ t, exec (.pkBuild 0x00) loaded = .next t) ∧
    (∃ t, exec (.eot .rx) inSum = .next t) ∧
    ∃ t, exec (.frameChecksum 0x01 0xFE (List.replicate 128 0x00) 0x00) frozen = .next t :=
  ⟨⟨_, rfl⟩, ⟨_, rfl⟩, ⟨_, rfl⟩, ⟨_, rfl⟩, ⟨_, rfl⟩, completes (by decide +kernel)⟩

theorem witness_LatestEventIsLatched :
    (isInit (.eot .rx) = false ∧ ∃ t, exec (.eot .rx) inSum = .next t) ∧ ∃ t, exec (.init 0x01) atDone = .next t ∧ t.err = false :=
  ⟨⟨rfl, _, rfl⟩, _, rfl, rfl⟩

theorem witness_RegisterMapOfRd : 0x0A < (0x0B : Byte).toNat ∧ 0x0A < (0xFF : Byte).toNat := by decide

theorem witness_InitStartsASession : frozen.err = true ∧ State.reset.err = false ∧ 1 < (0x02 : Byte).toNat := by decide

theorem witness_SumOperations : frozen.err = true ∧ inSum.err = false ∧ (0x01 : Byte) ≠ 0 := by decide

theorem witness_CrcOperations : frozen.err = true ∧ inSum.err = false ∧ (0x80 : Byte) ≠ 0 := by decide

theorem witness_StandaloneSumAndCrcOfASequence : State.reset.err = false := rfl

theorem witness_ReservedOperationCodes : State.reset.err = false ∧ frozen.err = true := by decide

theorem witness_RxByteAtTheBoundary :
    (inSum.err = false ∧ inSum.ready = true) ∧ inSum.ph = .idle ∧ (0x18 : Byte) ≠ 0x01 ∧ (0x18 : Byte) ≠ 0x04 := by decide

/-- Complement 0xFE passes for number 0x01, 0xFF does not. -/
theorem witness_RxByteInTheHeader :
    ((atNum.err = false ∧ atNum.ready = true) ∧ atNum.ph = .num) ∧
    ((atCmp.err = false ∧ atCmp.ready = true) ∧ atCmp.ph = .cmp ∧ (atCmp.rbn.toNat + (0xFE : Byte).toNat) % 256 = 255) ∧
    (atCmp.rbn.toNat + (0xFF : Byte).toNat) % 256 ≠ 255 := by decide

/-- The first and the last index. -/
theorem witness_RxByteInThePayload :
    ((atPay.err = false ∧ atPay.ready = true) ∧ atPay.ph = .pay ∧ atPay.idx.toNat ≤ 127 ∧ atPay.rbuf.wf = true) ∧
    (atPayLast.ph = .pay ∧ atPayLast.idx = 127) := by decide

theorem witness_RxChecksumVerdict :
    ((atVer1.err = false ∧ atVer1.ready = true) ∧ atVer1.ph = .ver1 ∧ atVer1.mode = .checksum) := by decide

theorem witness_RxCrcVerdict :
    ((atVer1Crc.err = false ∧ atVer1Crc.ready = true) ∧ atVer1Crc.ph = .ver1 ∧ atVer1Crc.mode = .crc) ∧
    ((atVer2.err = false ∧ atVer2.ready = true) ∧ atVer2.ph = .ver2) := by decide

theorem witness_RxTimeout :
    frozen.err = true ∧ (State.reset.err = false ∧ State.reset.ready = false) ∧
    ((inSum.err = false ∧ inSum.ready = true) ∧ inSum.ph = .idle) ∧
    ((atPayLast.err = false ∧ atPayLast.ready = true) ∧ atPayLast.ph ≠ .idle ∧ atPayLast.ph ≠ .done) ∧
    ((atDone.err = false ∧ atDone.ready = true) ∧ atDone.ph = .done) ∧ (0x01 : Byte) ≠ 0 := by decide

/-- Index 127 is the last, 128 has the reserved bit. -/
theorem witness_PayloadRead :
    frozen.err = true ∧ (accepted.err = false ∧ 128 ≤ (0x80 : Byte).toNat) ∧
    (State.reset.err = false ∧ (0x7F : Byte).toNat < 128 ∧ State.reset.ready = false) ∧
    ((inSum.err = false ∧ inSum.ready = true) ∧ inSum.rvalid = false) ∧
    ((accepted.err = false ∧ accepted.ready = true) ∧ accepted.rvalid = true) := by decide

theorem witness_DoneIsLeftOnlyByInit :
    (atDone.ph = .done ∧ isInit (.rxByte 0x01) = false ∧ ∃ t, exec (.rxByte 0x01) atDone = .next t) ∧ ReceiverOver atDone ∧
    atDone.ready = true :=
  ⟨⟨rfl, rfl, _, rfl⟩, ⟨rfl, rfl⟩, rfl⟩

/-- A chunk of 127 bytes has room, one of 128 has not. -/
theorem witness_ChunkByteIsLoaded :
    frozen.err = true ∧ (State.reset.err = false ∧ State.reset.ready = false) ∧
    ((built.err = false ∧ built.ready = true) ∧ built.fvalid = true) ∧
    ((full.err = false ∧ full.ready = true) ∧ full.fvalid = false ∧ full.plen = 128) ∧
    { full with plen := 127 }.fvalid = false ∧ { full with plen := 127 }.plen.toNat < 128 ∧ full.fbuf.wf = true := by decide

/-- A chunk of two bytes and a full one. -/
theorem witness_FrameIsBuilt :
    frozen.err = true ∧ (inSum.err = false ∧ (0x01 : Byte) ≠ 0) ∧ (State.reset.err = false ∧ State.reset.ready = false) ∧
    ((built.err = false ∧ built.ready = true) ∧ built.fvalid = true) ∧
    ((inSum.err = false ∧ inSum.ready = true) ∧ inSum.fvalid = false ∧ inSum.plen = 0) ∧
    ((loaded.err = false ∧ loaded.ready = true) ∧ loaded.fvalid = false ∧ loaded.plen ≠ 0 ∧ loaded.plen.toNat ≤ 128 ∧
      loaded.fbuf.wf = true ∧ loaded.mode = .checksum) ∧
    ((full.err = false ∧ full.ready = true) ∧ full.fvalid = false ∧ full.plen ≠ 0 ∧ full.plen.toNat ≤ 128 ∧
      full.fbuf.wf = true ∧ { full with mode := .crc }.mode = .crc) := by decide

/-- The first and the last byte of the frame, and past its end. -/
theorem witness_NextFrameByte :
    frozen.err = true ∧ (inSum.err = false ∧ (0x01 : Byte) ≠ 0) ∧ (State.reset.err = false ∧ State.reset.ready = false) ∧
    ((sent.err = false ∧ sent.ready = true) ∧ sent.flen.toNat ≤ sent.txp.toNat) ∧
    ((built.err = false ∧ built.ready = true) ∧ built.fvalid = true ∧ built.txp.toNat < built.flen.toNat ∧
      built.flen.toNat ≤ 133) ∧
    ((lastOut.err = false ∧ lastOut.ready = true) ∧ lastOut.fvalid = true ∧ lastOut.txp.toNat < lastOut.flen.toNat ∧
      lastOut.flen.toNat ≤ 133) := by decide

theorem witness_ResponseByteTaken :
    frozen.err = true ∧ (State.reset.err = false ∧ State.reset.ready = false) ∧
    ((lastOut.err = false ∧ lastOut.ready = true) ∧ lastOut.txp ≠ lastOut.flen) ∧
    ((sent.err = false ∧ sent.ready = true) ∧ sent.fvalid = true ∧ sent.txp = sent.flen) := by decide

theorem witness_ResponseTimeout :
    frozen.err = true ∧ (inSum.err = false ∧ (0x01 : Byte) ≠ 0) ∧ (State.reset.err = false ∧ State.reset.ready = false) ∧
    ((inSum.err = false ∧ inSum.ready = true) ∧ inSum.fvalid = false) ∧
    ((sent.err = false ∧ sent.ready = true) ∧ sent.fvalid = true ∧ sent.txp = sent.flen) := by decide

theorem witness_OnePassHandsOutTheFrame :
    (built.err = false ∧ built.ready = true) ∧ built.fvalid = true ∧ built.txp = 0 ∧ 0 < built.flen.toNat ∧
    built.flen.toNat ≤ 133 := by decide

theorem witness_OutstandingFrameIsKept :
    (sent.fvalid = true ∧ ∃ t, exec (.txRsp 0x15) sent = .next t) ∧
    isInit (.txRsp 0x15) = false ∧ Instr.txRsp 0x15 ≠ .txRsp 0x06 ∧ Instr.txRsp 0x15 ≠ .ack .tx ∧ receives (.txRsp 0x15) = false :=
  ⟨⟨rfl, _, rfl⟩, by decide⟩

theorem witness_ControlBytesAtTheUnpacker : (inCrc.err = false ∧ inCrc.ready = true) ∧ inCrc.ph = .idle := by decide

theorem witness_ControlBytesAtThePacker :
    (sent.err = false ∧ sent.ready = true) ∧ sent.fvalid = true ∧ sent.txp = sent.flen := by decide

/-- A frame that completes, so that both sides of the equivalence hold. -/
theorem witness_WireItemsAreTheirBytes :
    (∃ t, exec (.frameChecksum 0x01 0xFF (List.replicate 128 0x00) 0x00) inSum = .next t) ∧
    ∃ t, exec (.frameCrc 0x01 0xFF (List.replicate 128 0x00) 0x00 0x00) inCrc = .next t :=
  ⟨completes (by decide +kernel), completes (by decide +kernel)⟩

theorem witness_ChecksumFrameIsJudged :
    (inSum.err = false ∧ inSum.ready = true) ∧ inSum.ph = .idle ∧ inSum.mode = .checksum ∧ inSum.idx = 0 ∧
    (List.replicate 128 (0x00 : Byte)).length = 128 ∧ inSum.rbuf.wf = true ∧
    checksum (List.replicate 128 0x00) = 0x00 ∧ checksum (List.replicate 128 0x00) ≠ 0x01 := by decide +kernel

theorem witness_CrcFrameIsJudged :
    (inCrc.err = false ∧ inCrc.ready = true) ∧ inCrc.ph = .idle ∧ inCrc.mode = .crc ∧ inCrc.idx = 0 ∧
    (List.replicate 128 (0x00 : Byte)).length = 128 ∧ inCrc.rbuf.wf = true := by decide +kernel

/-- A sender with two bytes loaded, and a receiver that has accepted nothing yet. -/
theorem witness_PackedFrameIsUnpacked :
    (loaded.err = false ∧ loaded.ready = true) ∧ loaded.fvalid = false ∧ loaded.plen ≠ 0 ∧ loaded.plen.toNat ≤ 128 ∧
    loaded.fbuf.wf = true ∧ (inSum.err = false ∧ inSum.ready = true) ∧ inSum.mode = loaded.mode ∧ inSum.ph = .idle ∧
    inSum.idx = 0 ∧ inSum.rbuf.wf = true ∧ inSum.lastv = false := by decide

theorem witness_UnpackerLeavesTheSendSide :
    (receives (.rxByte 0x00) = true ∧ (∃ t, exec (.rxByte 0x00) atPay = .next t) ∧ atPay.mode = .checksum ∧ atPay.ph ≠ .ver2) ∧
    (receives (.rxTmo 0x00) = true ∧ (∃ t, exec (.rxTmo 0x00) atVer2 = .next t) ∧ atVer2.mode = .crc) :=
  ⟨⟨rfl, ⟨_, rfl⟩, by decide⟩, rfl, ⟨_, rfl⟩, rfl⟩

theorem witness_PackerLeavesTheReceiveSide :
    (sends (.pkPut 0x41) = true ∧ ∃ t, exec (.pkPut 0x41) loaded = .next t) ∧
    sends (.ack .tx) = true ∧ ∃ t, exec (.ack .tx) sent = .next t :=
  ⟨⟨rfl, _, rfl⟩, rfl, _, rfl⟩

theorem witness_ModeIsFixedForTheSession :
    (isInit (.pkPut 0x41) = false ∧ ∃ t, exec (.pkPut 0x41) loaded = .next t) ∧
    isInit (.rbRd 0x7F) = false ∧ receives (.rbRd 0x7F) = false ∧ sends (.rbRd 0x7F) = false ∧
    ∃ t, exec (.rbRd 0x7F) accepted = .next t :=
  ⟨⟨rfl, _, rfl⟩, rfl, rfl, rfl, _, rfl⟩

theorem witness_BlockCounterAdvancesOnAcceptanceOnly :
    (isInit (.ack .tx) = false ∧ ∃ t, exec (.ack .tx) sent = .next t) ∧ ∃ t, exec (.init 0x01) accepted = .next t ∧ t.err = false :=
  ⟨⟨rfl, _, rfl⟩, _, rfl, rfl⟩

theorem built_inv : StateInv built := by
  constructor <;> decide

/-- A state with a frame outstanding, about to take a response byte. -/
theorem witness_StepKeepsReachableFacts :
    StateInv built ∧ ∃ t, step built = .next t :=
  ⟨built_inv, _, rfl⟩

theorem witness_EveryCommandHasAResult : StateInv built :=
  built_inv

/-- Two states that differ in a byte of `RBUF` and in the byte of `FBUF` that checksum mode leaves alone. -/
theorem witness_UnwrittenBufferBytesAreUnobservable :
    StateInv built ∧ StateInv { built with rbuf := [(0, 0x55)], fbuf := built.fbuf ++ [(132, 0x55)] } ∧
    SameVisible built { built with rbuf := [(0, 0x55)], fbuf := built.fbuf ++ [(132, 0x55)] } ∧ ∃ t, step built = .next t := by
  refine ⟨built_inv, by constructor <;> decide, ⟨rfl, ?_, ?_⟩, _, rfl⟩
  · intro i h
    exact absurd h.1 (by decide)
  · intro i h
    have h : i < 132 := h
    interval_cases i <;> rfl

end Sys2Proof.Tests
end

section
/-!
PROOFS. Progress (00_scope.md R6): under the bounds of 10_state.md R32 no instruction and no step reaches a fault. Only three accesses can
leave a buffer: the store of a payload byte (`IDX`), of a loaded byte (`PLEN`), and the load of a byte handed out (`TXP`).
-/

namespace Sys2Proof.Machine

variable {s : State}

/-- The result is a next state: no fault, and no refusal of the model. -/
def Answers (r : Result) : Prop :=
  ∃ t, r = .next t

@[simp] theorem answers_next (t : State) : Answers (.next t) :=
  ⟨t, rfl⟩

/-! ### The shared operations -/

@[simp] theorem answers_respond (d : Half) (x : Option Byte) (e : Event) (s : State) : Answers (respond d x e s) :=
  answers_next _

@[simp] theorem answers_cmdError (c : ErrCode) (s : State) : Answers (cmdError c s) :=
  answers_next _

@[simp] theorem answers_refuse (s : State) : Answers (refuse s) :=
  answers_next _

theorem answers_ite {p : Prop} [Decidable p] {q r : Result} (hq : p → Answers q) (hr : ¬p → Answers r) :
    Answers (if p then q else r) := by
  split
  · exact hq ‹_›
  · exact hr ‹_›

/-- Whatever the common checks find, an operation answers when what they guard does. -/
theorem answers_gate {reserved needsReady : Bool} {body : Result} (h : Answers body) :
    Answers (gate reserved needsReady s body) :=
  answers_ite (fun _ => answers_refuse s) fun _ =>
    answers_ite (fun _ => answers_cmdError _ s) fun _ =>
      answers_ite (fun _ => answers_cmdError _ s) fun _ => h

theorem answers_andThen {r : Result} {k : State → Result} (hr : Answers r) (hk : ∀ u, r = .next u → Answers (k u)) :
    Answers (andThen r k) := by
  obtain ⟨u, rfl⟩ := hr
  exact hk u rfl

/-! ### Received bytes -/

theorem verdictAccept_answers (s : State) : Answers (verdictAccept s) :=
  ⟨_, verdictAcceptWith_eq _⟩

theorem verdictReject_answers (s : State) : Answers (verdictReject s) :=
  answers_respond ..

theorem rxIdle_answers (b : Byte) (s : State) : Answers (rxIdle b s) :=
  answers_ite (fun _ => answers_respond ..) fun _ =>
    answers_ite (fun _ => answers_respond ..) fun _ => answers_respond ..

theorem rxCmp_answers (b : Byte) (s : State) : Answers (rxCmp b s) :=
  answers_ite (fun _ => answers_respond ..) fun _ => answers_respond ..

/-- The payload byte has a place in `RBUF` (R32 item 2, 20_memory.md R45). -/
theorem rxPay_answers (b : Byte) (hi : s.idx.toNat ≤ 127) : Answers (rxPay b s) := by
  have hlt : s.idx.toNat < rbufSize := Nat.lt_succ_of_le hi
  rw [rxPay, storeRbuf_of_lt hlt]
  exact answers_ite (fun _ => answers_respond ..) fun _ => answers_respond ..

theorem rxVer1_answers (b : Byte) (s : State) : Answers (rxVer1 b s) := by
  unfold rxVer1
  split
  · exact answers_ite (fun _ => verdictAccept_answers _) fun _ => verdictReject_answers _
  · exact answers_respond ..

theorem rxVer2_answers (b : Byte) (s : State) : Answers (rxVer2 b s) :=
  answers_ite (fun _ => verdictAccept_answers _) fun _ => verdictReject_answers _

theorem takeRxByte_answers (b : Byte) (hi : s.idx.toNat ≤ 127) : Answers (takeRxByte b s) := by
  apply answers_gate
  cases s.ph with
  | idle => exact rxIdle_answers b s
  | num => exact answers_respond ..
  | cmp => exact rxCmp_answers b s
  | pay => exact rxPay_answers b hi
  | ver1 => exact rxVer1_answers b s
  | ver2 => exact rxVer2_answers b s
  | done => exact answers_cmdError ..

/-- A verdict leaves `IDX` alone. -/
theorem Verdict.idx_eq {p : Prop} {t : State} (h : Verdict p s t) : t.idx = s.idx := by
  cases h <;> rfl

/-- A received byte keeps the bound of `IDX` (R32 item 2): the index is cleared before it would reach 128. -/
theorem takeRxByte_idx_bound {b : Byte} {t : State} (hi : s.idx.toNat ≤ 127) (h : takeRxByte b s = .next t) :
    t.idx.toNat ≤ 127 := by
  cases takeRxByte_outcome h with
  | frozen | notReady | overrun | start | finish | ignored | number | badHeader | high => exact hi
  | header | lastPayload => exact Nat.zero_le 127
  | payload _ _ _ hlt =>
    rw [State.answered_idx]
    bv_omega
  | judgedSum _ _ _ _ hj | judgedCrc _ _ _ hj =>
    rw [hj.idx_eq]
    exact hi

/-- Any sequence of bytes is taken to its end, whatever its length: the bound of `IDX` is carried from byte to byte. -/
theorem feedRx_answers (bs : List Byte) (hi : s.idx.toNat ≤ 127) : Answers (feedRx bs s) := by
  induction bs generalizing s with
  | nil => exact answers_next _
  | cons b bs ih =>
    refine answers_andThen (takeRxByte_answers b hi) fun s1 h1 => ?_
    exact answers_andThen (ih (takeRxByte_idx_bound hi h1)) fun s2 _ => answers_next _

theorem execRxTmo_answers (a : Byte) (s : State) : Answers (execRxTmo a s) := by
  apply answers_gate
  cases s.ph with
  | done => exact answers_cmdError ..
  | idle | num | cmp | pay | ver1 | ver2 => exact answers_respond ..

theorem execRbRd_answers (a : Byte) (s : State) : Answers (execRbRd a s) :=
  answers_gate <| answers_ite (fun _ => answers_respond ..) fun _ => answers_cmdError ..

/-! ### The packer -/

/-- With `PLEN` at most 128 a byte is either turned away as one too many or has a place in `FBUF` (R32 item 3). -/
theorem execPkPut_answers (b : Byte) (hp : s.plen.toNat ≤ 128) : Answers (execPkPut b s) := by
  refine answers_gate <| answers_ite (fun _ => answers_cmdError ..) fun _ =>
    answers_ite (fun _ => answers_cmdError ..) fun hfull => ?_
  have hne : s.plen.toNat ≠ 128 := fun h => hfull (BitVec.eq_of_toNat_eq h)
  have hlt : payloadOff + s.plen.toNat < fbufSize := by
    simp only [payloadOff, fbufSize]
    omega
  rw [storeFbuf_of_lt hlt]
  exact answers_respond ..

theorem execPkBuild_answers (a : Byte) (s : State) : Answers (execPkBuild a s) :=
  answers_gate <| answers_ite (fun _ => answers_cmdError ..) fun _ =>
    answers_ite (fun _ => answers_cmdError ..) fun _ => answers_respond ..

/-- A byte is handed out only while `TXP` is below `FLEN`, and no frame is longer than `FBUF` (R32 items 4 and 5). -/
theorem execTxNext_answers (a : Byte) (hf : s.flen.toNat ≤ 133) : Answers (execTxNext a s) := by
  refine answers_gate <| answers_ite (fun _ => answers_cmdError ..) fun hleft => ?_
  have hle : ¬s.flen ≤ s.txp := fun h => hleft (by simp [h])
  have hlt : s.txp.toNat < fbufSize := by
    rw [BitVec.le_def] at hle
    simp only [fbufSize]
    omega
  rw [loadFbuf_of_lt hlt]
  exact answers_respond ..

theorem takeResponse_answers (b : Byte) (s : State) : Answers (takeResponse b s) :=
  answers_gate <| answers_ite (fun _ => answers_cmdError ..) fun _ =>
    answers_ite (fun _ => answers_respond ..) fun _ =>
      answers_ite (fun _ => answers_respond ..) fun _ => answers_respond ..

theorem execTxTmo_answers (a : Byte) (s : State) : Answers (execTxTmo a s) :=
  answers_gate <| answers_ite (fun _ => answers_cmdError ..) fun _ => answers_respond ..

/-- A channel byte is taken on either side. -/
theorem takeByte_answers (side : Side) (b : Byte) (hi : s.idx.toNat ≤ 127) : Answers (takeByte side b s) := by
  cases side with
  | rx => exact takeRxByte_answers b hi
  | tx => exact takeResponse_answers b s

/-! ### Every instruction and every step -/

/-- No frame is longer than `FBUF` (R32 item 4). -/
theorem flen_le_of_inv (h : StateInv s) : s.flen.toNat ≤ 133 := by
  rcases h.flen_values with hf | hf | hf <;> rw [hf] <;> decide

/-- Under the invariants every instruction answers a next state. -/
theorem exec_answers (i : Instr) (h : StateInv s) : Answers (exec i s) := by
  have hi := h.idx_bound
  cases i with
  | init | sumClr | sumUpd | crcClr | crcUpd => exact answers_gate (answers_respond ..)
  | rd => exact answers_ite (fun _ => answers_cmdError ..) fun _ => answers_respond ..
  | rxByte b => exact takeRxByte_answers b hi
  | rxTmo a => exact execRxTmo_answers a s
  | rbRd a => exact execRbRd_answers a s
  | pkPut b => exact execPkPut_answers b h.plen_bound
  | pkBuild a => exact execPkBuild_answers a s
  | txNext a => exact execTxNext_answers a (flen_le_of_inv h)
  | txRsp b => exact takeResponse_answers b s
  | txTmo a => exact execTxTmo_answers a s
  | reservedOpE | reservedOpF => exact answers_gate (answers_cmdError ..)
  | frameChecksum | frameCrc => exact feedRx_answers _ hi
  | soh side | eot side | ack side | nak side | can side | crq side => exact takeByte_answers side _ hi

/-- The invariants do not look at the inputs still to be presented. -/
theorem stateInv_pending (h : StateInv s) (ps : List Input) : StateInv { s with pending := ps } := by
  cases h
  constructor <;> assumption

/-- Taking the next instruction changes nothing but the list of inputs. -/
theorem fetch_eq_instr {i : Instr} {u : State} (h : fetch s = .instr i u) : ∃ ps, u = { s with pending := ps } := by
  unfold fetch at h
  split at h <;> cases h <;> exact ⟨_, rfl⟩

/-- Under the invariants every step answers a next state. -/
theorem step_answers (h : StateInv s) : Answers (step s) := by
  unfold step
  split
  · exact answers_next _
  · exact answers_next _
  · next i u hf =>
    obtain ⟨ps, rfl⟩ := fetch_eq_instr hf
    exact exec_answers i (stateInv_pending h ps)

/-- Settles O59: the bounds of R32 keep every access inside its buffer, and the bytes of a frame carry the bound of `IDX` along. -/
theorem everyCommandHasAResult : Obligations.EveryCommandHasAResult :=
  ⟨fun i _ h => exec_answers i h, fun _ h => step_answers h⟩

end Sys2Proof.Machine
end

section
/-!
PROOFS. The invariants of 10_state.md R32 hold at reset, and every step keeps them. What each named update keeps is said once; an
instruction's proof is then one line for each outcome that its law lists.
-/

namespace Sys2Proof

open Machine

variable {s t : State}

/-! ### The ends of a step -/

/-- The invariants do not look at the responses. -/
theorem StateInv.resp (h : StateInv s) (rs : List Response) : StateInv { s with resp := rs } :=
  { h with }

theorem StateInv.turnedAway (h : StateInv s) : StateInv s.turnedAway :=
  h.resp _

/-- A latched code that is not `E_NONE` keeps item 8, whether it is the first error or not. -/
theorem StateInv.errored {c : ErrCode} (h : StateInv s) (hc : c ≠ .none) : StateInv (s.errored c) where
  __ := h
  err_ecode := by
    have herr : s.err = true → s.ecode ≠ .none := fun he hn => by simp [h.err_ecode.mpr hn] at he
    cases he : s.err <;> simp_all

/-- Before `INIT` no event is reported, so `LEVT` stays 0 (item 7). -/
theorem StateInv.answered {e : Event} (h : StateInv s) (d : Half) (x : Option Byte) (he : e = .none ∨ s.ready = true) :
    StateInv (s.answered d x e) where
  __ := h
  not_ready hr := by
    obtain rfl | hready := he
    · exact h.not_ready hr
    · exact nomatch hready.symm.trans hr

/-- An operation that the common checks guard keeps the invariants when its own part does: what the checks answer keeps them. -/
theorem StateInv.of_gate {r n : Bool} {body : Result} (h : StateInv s) (hg : gate r n s body = .next t)
    (hbody : body = .next t → StateInv t) : StateInv t := by
  rcases gate_eq_next.mp hg with ⟨_, rfl⟩ | ⟨_, _, rfl⟩ | ⟨_, _, _, _, rfl⟩ | ⟨_, _, _, hb⟩
  · exact h.turnedAway
  · exact h.errored nofun
  · exact h.errored nofun
  · exact hbody hb

theorem StateInv.of_cmdError {c : ErrCode} (hb : cmdError c s = .next t) (h : StateInv s) (hc : c ≠ .none) : StateInv t :=
  cmdError_eq_next.mp hb ▸ h.errored hc

/-- A normal end that reports no event. -/
theorem StateInv.of_respond {d : Half} {x : Option Byte} (hb : respond d x .none s = .next t) (h : StateInv s) : StateInv t :=
  respond_eq_next.mp hb ▸ h.answered d x (.inl rfl)

/-! ### The receive side -/

/-- With no payload position to keep, the unpacker may enter any phase that agrees with `MODE` (item 9) and with `RVALID` (item 10). -/
theorem StateInv.enter (h : StateInv s) (q : Phase) (hr : s.ready = true) (hi : s.idx = 0) (hm : q = .ver2 → s.mode = .crc)
    (hv : s.rvalid = true → q = .idle ∨ q = .done) : StateInv { s with ph := q } where
  __ := h
  idx_zero _ := hi
  not_ready := by simp [hr]
  ver2_mode := hm
  rvalid_lastv ha := ⟨(h.rvalid_lastv ha).1, hv ha⟩

/-- Away from the boundary no payload is valid (item 10). -/
theorem StateInv.rvalid_false (h : StateInv s) (hi : s.ph ≠ .idle) (hd : s.ph ≠ .done) : s.rvalid = false := by
  by_contra hv
  rcases (h.rvalid_lastv (by simpa using hv)).2 with hp | hp
  · exact hi hp
  · exact hd hp

/-- Either verdict brings the unpacker back to the boundary with nothing of R32 broken. -/
theorem StateInv.verdict {p : Prop} (h : StateInv s) (hr : s.ready = true) (hi : s.idx = 0) (hj : Verdict p s t) :
    StateInv t := by
  have hidle : StateInv { s with ph := .idle } := h.enter .idle hr hi nofun fun _ => .inl rfl
  cases hj with
  | duplicate | reject => exact hidle.answered _ _ (.inr hr)
  | accept =>
    have hacc : StateInv { s with rvalid := true, seq := seqNext s.seq, last := s.rbn, lastv := true, ph := .idle } :=
      { hidle with not_ready := by simp [hr], rvalid_lastv := fun _ => ⟨rfl, .inl rfl⟩ }
    exact hacc.answered _ _ (.inr hr)

/-- A payload byte stored in `RBUF` keeps its canonical form and its size. -/
theorem StateInv.writeRbuf {i : Nat} (h : StateInv s) (b : Byte) (hi : i < rbufSize) :
    StateInv { s with rbuf := s.rbuf.write i b } :=
  { h with rbuf_wf := Memory.write_wf _ _ h.rbuf_wf, rbuf_within := Memory.write_within _ h.rbuf_within hi }

/-- One received byte keeps the invariants. -/
theorem StateInv.rxOutcome {b : Byte} (h : StateInv s) (ho : RxOutcome b s t) : StateInv t := by
  cases ho with
  | frozen => exact h.turnedAway
  | notReady | overrun => exact h.errored nofun
  | start _ hr hp =>
    have hnone : StateInv { s with rvalid := false } :=
      { h with not_ready := by simp [hr], rvalid_lastv := nofun }
    exact (hnone.enter .num hr (h.idx_zero (by simp [hp])) nofun nofun).answered _ _ (.inl rfl)
  | finish _ hr hp => exact (h.enter .done hr (h.idx_zero (by simp [hp])) nofun fun _ => .inr rfl).answered _ _ (.inr hr)
  | ignored _ hr => exact h.answered _ _ (.inr hr)
  | number _ hr hp =>
    have hv := h.rvalid_false (by simp [hp]) (by simp [hp])
    have hnum : StateInv { s with rbn := b } := { h with }
    exact (hnum.enter .cmp hr (h.idx_zero (by simp [hp])) nofun (by simp [hv])).answered _ _ (.inl rfl)
  | header _ hr hp =>
    have hv := h.rvalid_false (by simp [hp]) (by simp [hp])
    have hpos : StateInv { s with rcp := b, idx := 0 } := { h with idx_bound := Nat.zero_le _, idx_zero := fun _ => rfl }
    exact (hpos.enter .pay hr rfl nofun (by simp [hv])).answered _ _ (.inl rfl)
  | badHeader _ hr hp =>
    have hcpl : StateInv { s with rcp := b } := { h with }
    exact (hcpl.enter .idle hr (h.idx_zero (by simp [hp])) nofun fun _ => .inl rfl).answered _ _ (.inr hr)
  | lastPayload _ hr hp =>
    have hv := h.rvalid_false (by simp [hp]) (by simp [hp])
    have hpos : StateInv { s with rbuf := s.rbuf.write 127 b, idx := 0 } :=
      { h.writeRbuf b (by decide) with idx_bound := Nat.zero_le _, idx_zero := fun _ => rfl }
    exact (hpos.enter .ver1 hr rfl nofun (by simp [hv])).answered _ _ (.inl rfl)
  | payload _ hr hp hlt =>
    have hpos : StateInv { s with rbuf := s.rbuf.write s.idx.toNat b, idx := s.idx + 1 } :=
      { h.writeRbuf b (Nat.lt_succ_of_lt hlt) with
        idx_bound := by
          change (s.idx + 1).toNat ≤ 127
          bv_omega
        idx_zero := fun hne => absurd hp hne }
    exact hpos.answered _ _ (.inl rfl)
  | high _ hr hp hm =>
    have hv := h.rvalid_false (by simp [hp]) (by simp [hp])
    have hver : StateInv { s with rver := inHighByte b } := { h with }
    exact (hver.enter .ver2 hr (h.idx_zero (by simp [hp])) (fun _ => hm) (by simp [hv])).answered _ _ (.inl rfl)
  | judgedSum _ hr hp _ hj =>
    have hver : StateInv { s with rver := b.setWidth 16, sum := checksum (payloadOf s) } := { h with }
    exact hver.verdict hr (h.idx_zero (by simp [hp])) hj
  | judgedCrc _ hr hp hj =>
    have hver : StateInv { s with rver := (s.rver &&& 0xFF00) ||| b.setWidth 16, crc := crc16 (payloadOf s) } := { h with }
    exact hver.verdict hr (h.idx_zero (by simp [hp])) hj

theorem StateInv.takeRxByte {b : Byte} (h : StateInv s) (hb : takeRxByte b s = .next t) : StateInv t :=
  h.rxOutcome (takeRxByte_outcome hb)

theorem StateInv.feedRx {bs : List Byte} (h : StateInv s) (hb : feedRx bs s = .next t) : StateInv t :=
  feedRx_induction (fun _ rs hu => hu.resp rs) (fun _ _ _ hu hv => hu.takeRxByte hv) h hb

theorem StateInv.tmoOutcome {a : Byte} (h : StateInv s) (ho : TmoOutcome a s t) : StateInv t := by
  cases ho with
  | frozen => exact h.turnedAway
  | badOperand | notReady | overrun => exact h.errored nofun
  | atBoundary => exact h.answered _ _ (.inl rfl)
  | truncated _ hr =>
    have hpos : StateInv { s with idx := 0 } := { h with idx_bound := Nat.zero_le _, idx_zero := fun _ => rfl }
    exact (hpos.enter .idle hr rfl nofun fun _ => .inl rfl).answered _ _ (.inr hr)

/-- Reading a payload byte changes nothing but the response. -/
theorem StateInv.execRbRd {a : Byte} (h : StateInv s) (hb : execRbRd a s = .next t) : StateInv t := by
  refine h.of_gate hb fun hbody => ?_
  split at hbody
  · exact .of_respond hbody h
  · exact .of_cmdError hbody h nofun

/-! ### The send side -/

theorem StateInv.putOutcome {b : Byte} (h : StateInv s) (ho : PutOutcome b s t) : StateInv t := by
  cases ho with
  | frozen => exact h.turnedAway
  | notReady | busy | full => exact h.errored nofun
  | put _ hr hf hl hi =>
    have hfree : ¬s.fvalid = true := by simp [hf]
    have hput : StateInv { s with fbuf := s.fbuf.write (payloadOff + s.plen.toNat) b, plen := s.plen + 1 } :=
      { h with
        plen_bound := by
          have := h.plen_bound
          change (s.plen + 1).toNat ≤ 128
          bv_omega
        frame_soh := fun hv => absurd hv hfree
        frame_cpl := fun hv => absurd hv hfree
        not_ready := by simp [hr]
        fbuf_wf := Memory.write_wf _ _ h.fbuf_wf
        fbuf_within := Memory.write_within _ h.fbuf_within hi }
    exact hput.answered _ _ (.inl rfl)

theorem framed_within (hp : s.plen.toNat ≤ 128) (hw : s.fbuf.within fbufSize = true) : (framed s).within fbufSize = true := by
  refine Memory.writeSeq_within _ (Memory.writeSeq_within _ hw ?_) (Nat.le_add_left 3 130)
  simp only [List.length_replicate, Config.blk, payloadOff, fbufSize]
  omega

theorem frameLen_le_fbufSize (m : VerMode) : frameLen m ≤ fbufSize := by
  cases m <;> decide

theorem buildFrame_within (hp : s.plen.toNat ≤ 128) (hw : s.fbuf.within fbufSize = true) :
    (buildFrame s).fbuf.within fbufSize = true := by
  rw [buildFrame_fbuf]
  exact Memory.writeSeq_within _ (framed_within hp hw) ((verField_length _ _).trans_le (frameLen_le_fbufSize _))

/-- The built frame has one of the two lengths and its header in place (items 4 and 6). -/
theorem StateInv.buildFrame (h : StateInv s) (hr : s.ready = true) : StateInv (buildFrame s) where
  idx_bound := by simpa using h.idx_bound
  idx_zero := by simpa using h.idx_zero
  plen_bound := by simpa using h.plen_bound
  flen_values := by cases hm : s.mode <;> simp [hm, frameLen, Config.flenSum, Config.flenCrc]
  txp_bound := by simp
  fvalid_flen := by cases hm : s.mode <;> simp [hm, frameLen, Config.flenSum, Config.flenCrc]
  frame_len _ := by simp
  frame_soh _ := by simp [buildFrame_read_front h.fbuf_wf, framed_read h.plen_bound h.fbuf_wf]
  frame_cpl _ := by simp [buildFrame_read_front h.fbuf_wf, framed_read h.plen_bound h.fbuf_wf]
  not_ready := by simp [hr]
  err_ecode := by simpa using h.err_ecode
  ver2_mode := by simpa using h.ver2_mode
  rvalid_lastv := by simpa using h.rvalid_lastv
  rbuf_wf := by simpa using h.rbuf_wf
  rbuf_within := by simpa using h.rbuf_within
  fbuf_wf := buildFrame_wf h.fbuf_wf
  fbuf_within := buildFrame_within h.plen_bound h.fbuf_within

theorem StateInv.execPkBuild {a : Byte} (h : StateInv s) (hb : execPkBuild a s = .next t) : StateInv t := by
  rcases execPkBuild_eq_next.mp hb with ⟨_, rfl⟩ | ⟨_, _, rfl⟩ | ⟨_, _, _, rfl⟩ | ⟨_, _, _, _, rfl⟩ |
    ⟨_, _, _, _, _, rfl⟩ | ⟨_, _, hr, _, _, rfl⟩
  · exact h.turnedAway
  iterate 4 exact h.errored nofun
  exact (h.buildFrame hr).answered _ _ (.inl rfl)

theorem StateInv.nextOutcome {a : Byte} (h : StateInv s) (ho : NextOutcome a s t) : StateInv t := by
  cases ho with
  | frozen => exact h.turnedAway
  | badOperand | notReady | nothing => exact h.errored nofun
  | out _ hr _ hl =>
    have hout : StateInv { s with txp := s.txp + 1 } :=
      { h with
        txp_bound := by
          change (s.txp + 1).toNat ≤ s.flen.toNat
          bv_omega }
    exact hout.answered _ _ (.inr hr)

/-- The frame is handed out again from its first byte (R167, R169). -/
theorem StateInv.rewind (h : StateInv s) : StateInv { s with txp := 0 } :=
  { h with txp_bound := Nat.zero_le _ }

theorem StateInv.rspOutcome {b : Byte} (h : StateInv s) (ho : RspOutcome b s t) : StateInv t := by
  cases ho with
  | frozen => exact h.turnedAway
  | notReady | unexpected => exact h.errored nofun
  | ack _ hr =>
    have hack : StateInv { s with seq := seqNext s.seq, fvalid := false, plen := 0, txp := 0, flen := 0 } :=
      { h with
        plen_bound := Nat.zero_le _
        flen_values := .inl rfl
        txp_bound := Nat.zero_le _
        fvalid_flen := by simp
        frame_len := nofun
        frame_soh := nofun
        frame_cpl := nofun
        not_ready := by simp [hr] }
    exact hack.answered _ _ (.inr hr)
  | nak _ hr => exact h.rewind.answered _ _ (.inr hr)
  | other _ hr => exact h.answered _ _ (.inr hr)

theorem StateInv.execTxTmo {a : Byte} (h : StateInv s) (hb : execTxTmo a s = .next t) : StateInv t := by
  rcases execTxTmo_eq_next.mp hb with ⟨_, rfl⟩ | ⟨_, _, rfl⟩ | ⟨_, _, _, rfl⟩ | ⟨_, _, _, _, rfl⟩ | ⟨_, _, hr, _, rfl⟩
  · exact h.turnedAway
  iterate 3 exact h.errored nofun
  exact h.rewind.answered _ _ (.inr hr)

/-! ### Session start, the instructions and the step -/

/-- Settles O57: every register is 0 or idle, and the buffers list no byte. -/
theorem reachableFactsHoldAtReset : Obligations.ReachableFactsHoldAtReset := by
  unfold Obligations.ReachableFactsHoldAtReset
  constructor <;> decide

/-- `INIT` leaves the registers of reset and the buffers as they were. -/
theorem StateInv.newSession (h : StateInv s) (m : VerMode) : StateInv (s.newSession m) :=
  { reachableFactsHoldAtReset with
    frame_len := nofun
    frame_soh := nofun
    frame_cpl := nofun
    not_ready := nofun
    ver2_mode := nofun
    rbuf_wf := h.rbuf_wf
    rbuf_within := h.rbuf_within
    fbuf_wf := h.fbuf_wf
    fbuf_within := h.fbuf_within }

theorem StateInv.takeByte {side : Side} {b : Byte} (h : StateInv s) (hb : takeByte side b s = .next t) : StateInv t := by
  cases side with
  | rx => exact h.takeRxByte hb
  | tx => exact h.rspOutcome (takeResponse_outcome hb)

/-- Every instruction keeps the invariants. -/
theorem StateInv.exec {i : Instr} (h : StateInv s) (hx : exec i s = .next t) : StateInv t := by
  cases i with
  | init a => exact h.of_gate hx fun hb => .of_respond hb (h.newSession _)
  | rd r =>
    rcases execRd_eq_next.mp hx with ⟨_, rfl⟩ | ⟨_, rfl⟩
    · exact h.errored nofun
    · exact h.answered _ _ (.inl rfl)
  | sumClr | sumUpd | crcClr | crcUpd => exact h.of_gate hx fun hb => .of_respond hb { h with }
  | rxByte b => exact h.takeRxByte hx
  | rxTmo a => exact h.tmoOutcome (execRxTmo_outcome hx)
  | rbRd a => exact h.execRbRd hx
  | pkPut b => exact h.putOutcome (execPkPut_outcome hx)
  | pkBuild a => exact h.execPkBuild hx
  | txNext a => exact h.nextOutcome (execTxNext_outcome hx)
  | txRsp b => exact h.rspOutcome (takeResponse_outcome hx)
  | txTmo a => exact h.execTxTmo hx
  | reservedOpE | reservedOpF => exact h.of_gate hx fun hb => .of_cmdError hb h nofun
  | frameChecksum | frameCrc => exact h.feedRx hx
  | soh | eot | ack | nak | can | crq => exact h.takeByte hx

/-- Settles O58: a step is the idle step, the reset input, or an instruction, and each keeps the invariants. -/
theorem stepKeepsReachableFacts : Obligations.StepKeepsReachableFacts := by
  intro s t h hstep
  rcases step_eq_next hstep with ⟨_, rfl⟩ | ⟨rest, _, rfl⟩ | ⟨i, ps, _, _, hx⟩
  · exact h
  · exact stateInv_pending reachableFactsHoldAtReset rest
  · exact (stateInv_pending h ps).exec hx

end Sys2Proof
end

section
/-!
PROOFS. The bytes of the buffers that nothing live holds are never observed (10_state.md R22, R23 and R31, log 4). Two results are compared
along the definition of each operation: the same responses and registers, and the same live bytes.
-/

namespace Sys2Proof

open Machine

variable {s t u : State} {m f : Memory}

/-- `s` with other contents of the two buffers. -/
def Machine.State.withBuffers (s : State) (m f : Memory) : State :=
  { s with rbuf := m, fbuf := f }

/-- Whatever the first result answers, the second answers too, with nothing visible between the two. -/
def SameResult (r r' : Result) : Prop :=
  ∀ s', r = .next s' → ∃ t', r' = .next t' ∧ SameVisible s' t'

/-! ### Live bytes -/

theorem rbufLive_iff_of_pay {i : Nat} (hp : s.ph = .pay) : rbufLive s i ↔ i < s.idx.toNat := by
  simp [rbufLive, hp]

theorem rbufLive_iff_of_ver {i : Nat} (hp : s.ph = .ver1 ∨ s.ph = .ver2) : rbufLive s i ↔ i < rbufSize := by
  rcases hp with hp | hp <;> simp [rbufLive, hp]

/-- The accepted payload is live: it is there only at a boundary (R32 item 10). -/
theorem rbufLive_of_rvalid {i : Nat} (h : StateInv s) (hv : s.rvalid = true) (hi : i < rbufSize) : rbufLive s i := by
  rcases (h.rvalid_lastv hv).2 with hp | hp <;> simp [rbufLive, hp, hv, hi]

theorem fbufLive_iff_of_outstanding {i : Nat} (hf : s.fvalid = true) : fbufLive s i ↔ i < s.flen.toNat := by
  simp [fbufLive, hf]

theorem fbufLive_iff_of_loading {i : Nat} (hf : s.fvalid = false) :
    fbufLive s i ↔ payloadOff ≤ i ∧ i < payloadOff + s.plen.toNat := by
  simp [fbufLive, hf]

/-! ### States that look the same -/

theorem SameVisible.refl (s : State) : SameVisible s s :=
  ⟨rfl, fun _ _ => rfl, fun _ _ => rfl⟩

theorem SameVisible.eq_registers (h : SameVisible s t) : t = { s with rbuf := t.rbuf, fbuf := t.fbuf } :=
  h.1

theorem SameVisible.rbuf_read (h : SameVisible s t) : ∀ i, rbufLive s i → t.rbuf.read i = s.rbuf.read i :=
  h.2.1

theorem SameVisible.fbuf_read (h : SameVisible s t) : ∀ i, fbufLive s i → t.fbuf.read i = s.fbuf.read i :=
  h.2.2

theorem SameVisible.exists_buffers (h : SameVisible s t) : ∃ m f, t = s.withBuffers m f :=
  ⟨_, _, h.eq_registers⟩

/-- After a change of registers that makes no byte live, the two states still look the same. -/
theorem SameVisible.registers (h : SameVisible s (s.withBuffers m f)) (hrb : u.rbuf = s.rbuf) (hfb : u.fbuf = s.fbuf)
    (hr : ∀ i, rbufLive u i → rbufLive s i) (hf : ∀ i, fbufLive u i → fbufLive s i) :
    SameVisible u (u.withBuffers m f) := by
  refine ⟨rfl, fun i hi => ?_, fun i hi => ?_⟩
  · rw [hrb]
    exact h.rbuf_read i (hr i hi)
  · rw [hfb]
    exact h.fbuf_read i (hf i hi)

/-- At a boundary of the unpacker only an accepted payload is live, and it was live before. -/
theorem SameVisible.boundary (h : SameVisible s (s.withBuffers m f)) (hs : StateInv s) (hrb : u.rbuf = s.rbuf) (hfb : u.fbuf = s.fbuf)
    (hv : u.rvalid = s.rvalid) (hp : u.ph = .idle ∨ u.ph = .num ∨ u.ph = .cmp ∨ u.ph = .done)
    (hf : ∀ i, fbufLive u i → fbufLive s i) : SameVisible u (u.withBuffers m f) := by
  refine h.registers hrb hfb (fun i hi => ?_) hf
  obtain ⟨hval, hlt⟩ : u.rvalid = true ∧ i < rbufSize := by
    rcases hp with hp | hp | hp | hp <;> simpa [rbufLive, hp] using hi
  exact rbufLive_of_rvalid hs (hv ▸ hval) hlt

theorem SameVisible.resp (h : SameVisible s t) (rs : List Response) :
    SameVisible { s with resp := rs } { t with resp := rs } := by
  obtain ⟨m, f, rfl⟩ := h.exists_buffers
  exact h.registers rfl rfl (fun _ => id) fun _ => id

theorem SameVisible.pending (h : SameVisible s t) (ps : List Input) :
    SameVisible { s with pending := ps } { t with pending := ps } := by
  obtain ⟨m, f, rfl⟩ := h.exists_buffers
  exact h.registers rfl rfl (fun _ => id) fun _ => id

theorem SameVisible.verified (h : SameVisible s t) (r c : Half) :
    SameVisible { s with rver := r, crc := c } { t with rver := r, crc := c } := by
  obtain ⟨m, f, rfl⟩ := h.exists_buffers
  exact h.registers rfl rfl (fun _ => id) fun _ => id

theorem SameVisible.resp_eq (h : SameVisible s t) : t.resp = s.resp := by
  rw [h.eq_registers]

/-- The received payload is live as a whole while its verification field is awaited. -/
theorem SameVisible.payloadOf_eq (h : SameVisible s t) (hp : s.ph = .ver1 ∨ s.ph = .ver2) : payloadOf t = payloadOf s := by
  refine Memory.readSeq_congr fun k hk => ?_
  rw [Nat.zero_add]
  exact h.rbuf_read k ((rbufLive_iff_of_ver hp).mpr hk)

/-! ### The ends of a step -/

theorem sameResult_next (h : SameVisible s t) : SameResult (.next s) (.next t) := by
  rintro _ ⟨⟩
  exact ⟨t, rfl, h⟩

theorem sameResult_fault (k : Fault) (r : Result) : SameResult (.fault k) r := by
  rintro _ ⟨⟩

theorem sameResult_respond {d : Half} {x : Option Byte} {e : Event} (h : SameVisible s t) :
    SameResult (respond d x e s) (respond d x e t) := by
  obtain ⟨m, f, rfl⟩ := h.exists_buffers
  exact sameResult_next (h.registers rfl rfl (fun _ => id) fun _ => id)

theorem sameResult_refuse (h : SameVisible s t) : SameResult (refuse s) (refuse t) :=
  sameResult_next (h.resp _)

theorem sameResult_cmdError (h : SameVisible s t) (c : ErrCode) : SameResult (cmdError c s) (cmdError c t) := by
  obtain ⟨m, f, rfl⟩ := h.exists_buffers
  exact sameResult_next (h.registers rfl rfl (fun _ => id) fun _ => id)

theorem sameResult_ite {p : Prop} [Decidable p] {q q' r r' : Result} (hq : p → SameResult q q') (hr : ¬p → SameResult r r') :
    SameResult (if p then q else r) (if p then q' else r') := by
  split
  · exact hq ‹_›
  · exact hr ‹_›

/-- The common checks look at registers only. -/
theorem sameResult_gate {reserved needsReady : Bool} {body body' : Result} (h : SameVisible s t) (hb : SameResult body body') :
    SameResult (gate reserved needsReady s body) (gate reserved needsReady t body') := by
  obtain ⟨m, f, rfl⟩ := h.exists_buffers
  exact sameResult_ite (fun _ => sameResult_refuse h) fun _ =>
    sameResult_ite (fun _ => sameResult_cmdError h _) fun _ => sameResult_ite (fun _ => sameResult_cmdError h _) fun _ => hb

theorem sameResult_andThen {r r' : Result} {k k' : State → Result} (hr : SameResult r r')
    (hk : ∀ u v, r = .next u → r' = .next v → SameVisible u v → SameResult (k u) (k' v)) :
    SameResult (andThen r k) (andThen r' k') := by
  intro s' hs
  obtain ⟨u, hu, hku⟩ := andThen_eq_next.mp hs
  obtain ⟨v, hv, huv⟩ := hr u hu
  rw [hv, andThen_next]
  exact hk u v hu hv huv s' hku

/-! ### The unpacker -/

theorem sameResult_rxIdle (b : Byte) (h : SameVisible s t) (hs : StateInv s) : SameResult (rxIdle b s) (rxIdle b t) := by
  obtain ⟨m, f, rfl⟩ := h.exists_buffers
  refine sameResult_ite (fun _ => ?_) fun _ => sameResult_ite (fun _ => ?_) fun _ => ?_
  · exact sameResult_respond (h.registers rfl rfl (fun _ hi => nomatch hi.1) fun _ => id)
  · exact sameResult_respond (h.boundary hs rfl rfl rfl (by simp) fun _ => id)
  · exact sameResult_respond h

theorem sameResult_rxNum (b : Byte) (h : SameVisible s t) (hs : StateInv s) : SameResult (rxNum b s) (rxNum b t) := by
  obtain ⟨m, f, rfl⟩ := h.exists_buffers
  exact sameResult_respond (h.boundary hs rfl rfl rfl (by simp) fun _ => id)

theorem sameResult_rxCmp (b : Byte) (h : SameVisible s t) (hs : StateInv s) : SameResult (rxCmp b s) (rxCmp b t) := by
  obtain ⟨m, f, rfl⟩ := h.exists_buffers
  refine sameResult_ite (fun _ => ?_) fun _ => ?_
  · exact sameResult_respond (h.registers rfl rfl (fun _ hi => absurd hi (Nat.not_lt_zero _)) fun _ => id)
  · exact sameResult_respond (h.boundary hs rfl rfl rfl (by simp) fun _ => id)

/-- The same byte written at the same place of two canonical buffers, and nothing else changed. -/
theorem read_write_congr {m m' : Memory} {a i : Nat} (b : Byte) (hm : m.wf = true) (hm' : m'.wf = true)
    (h : i ≠ a → m'.read i = m.read i) : (m'.write a b).read i = (m.write a b).read i := by
  rw [Memory.read_write _ _ _ hm, Memory.read_write _ _ _ hm']
  split
  · rfl
  · exact h ‹_›

/-- A payload byte makes exactly its own place live, and it is written in both states. -/
theorem sameResult_rxPay (b : Byte) (h : SameVisible s t) (hs : StateInv s) (ht : StateInv t) (hp : s.ph = .pay) :
    SameResult (rxPay b s) (rxPay b t) := by
  obtain ⟨m, f, rfl⟩ := h.exists_buffers
  have hread : ∀ i, i < s.idx.toNat + 1 →
      (m.write s.idx.toNat b).read i = (s.rbuf.write s.idx.toNat b).read i := fun i hi =>
    read_write_congr b hs.rbuf_wf ht.rbuf_wf fun hne => h.rbuf_read i ((rbufLive_iff_of_pay hp).mpr (by omega))
  refine sameResult_ite (fun _ => sameResult_ite (fun hlast => ?_) fun hmore => ?_) fun _ => sameResult_fault _ _
  · refine sameResult_respond ⟨rfl, fun i hi => hread i ?_, h.fbuf_read⟩
    rw [hlast]
    exact hi
  · refine sameResult_respond ⟨rfl, fun i hi => hread i ?_, h.fbuf_read⟩
    have hlt : i < (s.idx + 1).toNat := (rbufLive_iff_of_pay (by exact hp)).mp hi
    bv_omega

/-- A verdict makes at most the received payload live, and that was live while the verification field was awaited. -/
theorem sameResult_verdict {p : Prop} [Decidable p] (h : SameVisible s t) (hp : s.ph = .ver1 ∨ s.ph = .ver2) :
    SameResult (if p then verdictAccept s else verdictReject s) (if p then verdictAccept t else verdictReject t) := by
  obtain ⟨m, f, rfl⟩ := h.exists_buffers
  refine sameResult_ite (fun _ => sameResult_ite (fun _ => ?_) fun _ => ?_) fun _ => ?_
  all_goals
    exact sameResult_respond (h.registers rfl rfl (fun _ hi => (rbufLive_iff_of_ver hp).mpr hi.2) fun _ => id)

theorem rxVer1_of_checksum {b : Byte} (hm : s.mode = .checksum) : rxVer1 b s =
    if checksum (payloadOf s) = b then verdictAccept { s with rver := b.setWidth 16, sum := checksum (payloadOf s) }
    else verdictReject { s with rver := b.setWidth 16, sum := checksum (payloadOf s) } := by
  simp only [rxVer1, hm]

theorem rxVer1_of_crc {b : Byte} (hm : s.mode = .crc) :
    rxVer1 b s = respond 0 none .none { s with rver := inHighByte b, ph := .ver2 } := by
  simp only [rxVer1, hm]

theorem rxVer2_eq {b : Byte} : rxVer2 b s =
    if crc16 (payloadOf s) = (s.rver &&& 0xFF00) ||| b.setWidth 16 then
      verdictAccept { s with rver := (s.rver &&& 0xFF00) ||| b.setWidth 16, crc := crc16 (payloadOf s) }
    else verdictReject { s with rver := (s.rver &&& 0xFF00) ||| b.setWidth 16, crc := crc16 (payloadOf s) } :=
  rfl

theorem sameResult_rxVer1 (b : Byte) (h : SameVisible s t) (hp : s.ph = .ver1) : SameResult (rxVer1 b s) (rxVer1 b t) := by
  have hpay := h.payloadOf_eq (.inl hp)
  obtain ⟨m, f, rfl⟩ := h.exists_buffers
  cases hm : s.mode with
  | checksum =>
    rw [rxVer1_of_checksum hm, rxVer1_of_checksum (s := s.withBuffers m f) hm, hpay]
    exact sameResult_verdict (h.registers rfl rfl (fun _ => id) fun _ => id) (.inl hp)
  | crc =>
    rw [rxVer1_of_crc hm, rxVer1_of_crc (s := s.withBuffers m f) hm]
    exact sameResult_respond
      (h.registers rfl rfl (fun _ hi => (rbufLive_iff_of_ver (.inl hp)).mpr hi) fun _ => id)

theorem sameResult_rxVer2 (b : Byte) (h : SameVisible s t) (hp : s.ph = .ver2) : SameResult (rxVer2 b s) (rxVer2 b t) := by
  have hpay := h.payloadOf_eq (.inr hp)
  have hrver : t.rver = s.rver := by rw [h.eq_registers]
  rw [rxVer2_eq, rxVer2_eq, hpay, hrver]
  exact sameResult_verdict (h.verified _ _) (.inr hp)

theorem sameResult_takeRxByte (b : Byte) (h : SameVisible s t) (hs : StateInv s) (ht : StateInv t) :
    SameResult (takeRxByte b s) (takeRxByte b t) := by
  have hph : t.ph = s.ph := by rw [h.eq_registers]
  refine sameResult_gate h ?_
  rw [hph]
  cases hp : s.ph with
  | idle => exact sameResult_rxIdle b h hs
  | num => exact sameResult_rxNum b h hs
  | cmp => exact sameResult_rxCmp b h hs
  | pay => exact sameResult_rxPay b h hs ht hp
  | ver1 => exact sameResult_rxVer1 b h hp
  | ver2 => exact sameResult_rxVer2 b h hp
  | done => exact sameResult_cmdError h _

/-- The invariants of both states are carried from byte to byte. -/
theorem sameResult_feedRx (bs : List Byte) (h : SameVisible s t) (hs : StateInv s) (ht : StateInv t) :
    SameResult (feedRx bs s) (feedRx bs t) := by
  induction bs generalizing s t with
  | nil => exact sameResult_next (h.resp [])
  | cons b bs ih =>
    refine sameResult_andThen (sameResult_takeRxByte b h hs ht) fun s1 t1 hs1 ht1 h1 => ?_
    refine sameResult_andThen (ih h1 (hs.takeRxByte hs1) (ht.takeRxByte ht1)) fun s2 t2 _ _ h2 => ?_
    rw [h1.resp_eq, h2.resp_eq]
    exact sameResult_next (h2.resp _)

theorem sameResult_execRxTmo (a : Byte) (h : SameVisible s t) (hs : StateInv s) :
    SameResult (execRxTmo a s) (execRxTmo a t) := by
  have hph : t.ph = s.ph := by rw [h.eq_registers]
  refine sameResult_gate h ?_
  rw [hph]
  obtain ⟨m, f, rfl⟩ := h.exists_buffers
  cases s.ph with
  | done => exact sameResult_cmdError h _
  | idle => exact sameResult_respond h
  | num | cmp | pay | ver1 | ver2 => exact sameResult_respond (h.boundary hs rfl rfl rfl (by simp) fun _ => id)

/-- The accepted payload is the same in both states. -/
theorem sameResult_execRbRd (a : Byte) (h : SameVisible s t) (hs : StateInv s) : SameResult (execRbRd a s) (execRbRd a t) := by
  refine sameResult_gate h ?_
  rw [show t.rvalid = s.rvalid by rw [h.eq_registers]]
  refine sameResult_ite (fun hv => ?_) fun _ => sameResult_cmdError h _
  rw [h.rbuf_read _ (rbufLive_of_rvalid hs hv (BitVec.isLt _))]
  exact sameResult_respond h

/-! ### The packer -/

/-- A loaded byte makes exactly its own place live, and it is written in both states. -/
theorem sameResult_execPkPut (b : Byte) (h : SameVisible s t) (hs : StateInv s) (ht : StateInv t) :
    SameResult (execPkPut b s) (execPkPut b t) := by
  obtain ⟨m, f, rfl⟩ := h.exists_buffers
  refine sameResult_gate h <| sameResult_ite (fun _ => sameResult_cmdError h _) fun hf =>
    sameResult_ite (fun _ => sameResult_cmdError h _) fun _ => sameResult_ite (fun _ => ?_) fun _ => sameResult_fault _ _
  have hfree : s.fvalid = false := by simpa using hf
  refine sameResult_respond ⟨rfl, h.rbuf_read, fun i hi => ?_⟩
  obtain ⟨hlo, hhi⟩ : payloadOff ≤ i ∧ i < payloadOff + (s.plen + 1).toNat :=
    (fbufLive_iff_of_loading (by exact hfree)).mp hi
  refine read_write_congr b hs.fbuf_wf ht.fbuf_wf fun (hne : i ≠ payloadOff + s.plen.toNat) =>
    h.fbuf_read i ((fbufLive_iff_of_loading hfree).mpr ⟨hlo, ?_⟩)
  have hle : (s.plen + 1).toNat ≤ s.plen.toNat + 1 := by bv_omega
  omega

theorem toNat_ofNat_frameLen (k : VerMode) : (BitVec.ofNat 8 (frameLen k)).toNat = frameLen k := by
  cases k <;> rfl

/-- Header, loaded chunk and padding are the same in both states: the first two are registers and live bytes, the last is the filler. -/
theorem framed_read_eq (h : SameVisible s t) (hs : StateInv s) (ht : StateInv t) (hf : s.fvalid = false) {a : Nat}
    (ha : a < 131) : (framed t).read a = (framed s).read a := by
  have hplen : t.plen = s.plen := by rw [h.eq_registers]
  have hseq : t.seq = s.seq := by rw [h.eq_registers]
  rw [framed_read hs.plen_bound hs.fbuf_wf, framed_read ht.plen_bound ht.fbuf_wf, hplen, hseq]
  by_cases hhead : a < 3
  · interval_cases a <;> simp
  by_cases hpad : payloadOff + s.plen.toNat ≤ a ∧ a < payloadOff + 128
  · simp only [if_pos hpad]
  · rw [h.fbuf_read a ((fbufLive_iff_of_loading hf).mpr (by simp only [payloadOff] at hpad ⊢; omega))]

theorem framed_readSeq_eq (h : SameVisible s t) (hs : StateInv s) (ht : StateInv t) (hf : s.fvalid = false) :
    (framed t).readSeq payloadOff Config.blk = (framed s).readSeq payloadOff Config.blk := by
  refine Memory.readSeq_congr fun k hk => framed_read_eq h hs ht hf ?_
  simp only [Config.blk, payloadOff] at hk ⊢
  omega

/-- The verification field is computed over bytes that are the same in both states, so the whole frame is the same. -/
theorem SameVisible.buildFrame (h : SameVisible s t) (hs : StateInv s) (ht : StateInv t) (hf : s.fvalid = false) :
    SameVisible (buildFrame s) (buildFrame t) := by
  have hseq := framed_readSeq_eq h hs ht hf
  have hfront : ∀ a, a < 131 → (framed t).read a = (framed s).read a := fun a => framed_read_eq h hs ht hf
  have htmode : t.mode = s.mode := by rw [h.eq_registers]
  refine ⟨?_, fun i hi => ?_, fun i hi => ?_⟩
  · obtain ⟨m, f, rfl⟩ := h.exists_buffers
    cases hm : s.mode <;> simp only [Machine.buildFrame, htmode, hm, hseq] <;> rfl
  · rw [buildFrame_rbuf, buildFrame_rbuf]
    exact h.rbuf_read i (by simpa [rbufLive] using hi)
  · rw [fbufLive_iff_of_outstanding rfl, buildFrame_flen, toNat_ofNat_frameLen] at hi
    rw [buildFrame_fbuf, buildFrame_fbuf, hseq, htmode, Memory.read_writeSeq _ _ _ (framed_wf hs.fbuf_wf),
      Memory.read_writeSeq _ _ _ (framed_wf ht.fbuf_wf), verField_length]
    split
    · rfl
    · exact hfront i (by omega)

theorem sameResult_execPkBuild (a : Byte) (h : SameVisible s t) (hs : StateInv s) (ht : StateInv t) :
    SameResult (execPkBuild a s) (execPkBuild a t) := by
  have hflen : (buildFrame t).flen = (buildFrame s).flen := by rw [buildFrame_flen, buildFrame_flen, h.eq_registers]
  refine sameResult_gate h ?_
  rw [hflen, show t.fvalid = s.fvalid by rw [h.eq_registers], show t.plen = s.plen by rw [h.eq_registers]]
  exact sameResult_ite (fun _ => sameResult_cmdError h _) fun hf => sameResult_ite (fun _ => sameResult_cmdError h _) fun _ =>
    sameResult_respond (h.buildFrame hs ht (by simpa using hf))

theorem sameResult_loadFbuf {i : Nat} {k k' : Byte → Result} (hi : t.fbuf.read i = s.fbuf.read i)
    (hk : ∀ d, SameResult (k d) (k' d)) : SameResult (loadFbuf i s k) (loadFbuf i t k') :=
  sameResult_ite (fun _ => hi ▸ hk _) fun _ => sameResult_fault _ _

/-- A byte is handed out only below `FLEN` of an outstanding frame, where it is live. -/
theorem sameResult_execTxNext (a : Byte) (h : SameVisible s t) : SameResult (execTxNext a s) (execTxNext a t) := by
  have hlive := h.fbuf_read s.txp.toNat
  obtain ⟨m, f, rfl⟩ := h.exists_buffers
  refine sameResult_gate h <| sameResult_ite (fun _ => sameResult_cmdError h _) fun hleft => ?_
  obtain ⟨hf, hlt⟩ : s.fvalid = true ∧ s.txp.toNat < s.flen.toNat := by simpa [BitVec.lt_def] using hleft
  exact sameResult_loadFbuf (hlive ((fbufLive_iff_of_outstanding hf).mpr hlt)) fun _ =>
    sameResult_respond (h.registers rfl rfl (fun _ => id) fun _ => id)

theorem sameResult_resend (h : SameVisible s t) : SameResult (resend s) (resend t) := by
  obtain ⟨m, f, rfl⟩ := h.exists_buffers
  exact sameResult_respond (h.registers rfl rfl (fun _ => id) fun _ => id)

/-- With nothing loaded and no frame outstanding no byte of `FBUF` is live. -/
theorem not_fbufLive_of_empty {i : Nat} (hf : s.fvalid = false) (hp : s.plen = 0) : ¬fbufLive s i := by
  rw [fbufLive_iff_of_loading hf, hp]
  simp

theorem sameResult_rspAck (h : SameVisible s t) : SameResult (rspAck s) (rspAck t) := by
  obtain ⟨m, f, rfl⟩ := h.exists_buffers
  exact sameResult_respond
    (h.registers rfl rfl (fun _ => id) fun _ hi => absurd hi (not_fbufLive_of_empty rfl rfl))

theorem sameResult_takeResponse (b : Byte) (h : SameVisible s t) : SameResult (takeResponse b s) (takeResponse b t) := by
  have hack := sameResult_rspAck h
  have hresend := sameResult_resend h
  obtain ⟨m, f, rfl⟩ := h.exists_buffers
  exact sameResult_gate h <| sameResult_ite (fun _ => sameResult_cmdError h _) fun _ => sameResult_ite (fun _ => hack) fun _ =>
    sameResult_ite (fun _ => hresend) fun _ => sameResult_respond h

theorem sameResult_execTxTmo (a : Byte) (h : SameVisible s t) : SameResult (execTxTmo a s) (execTxTmo a t) := by
  have hresend := sameResult_resend h
  obtain ⟨m, f, rfl⟩ := h.exists_buffers
  exact sameResult_gate h <| sameResult_ite (fun _ => sameResult_cmdError h _) fun _ => hresend

/-! ### Every instruction and every step -/

theorem sameResult_execInit (a : Byte) (h : SameVisible s t) : SameResult (execInit a s) (execInit a t) := by
  obtain ⟨m, f, rfl⟩ := h.exists_buffers
  exact sameResult_gate h <| sameResult_respond
    (h.registers rfl rfl (fun _ hi => nomatch hi.1) fun _ hi => absurd hi (not_fbufLive_of_empty rfl rfl))

theorem sameResult_takeByte (side : Side) (b : Byte) (h : SameVisible s t) (hs : StateInv s) (ht : StateInv t) :
    SameResult (takeByte side b s) (takeByte side b t) := by
  cases side with
  | rx => exact sameResult_takeRxByte b h hs ht
  | tx => exact sameResult_takeResponse b h

theorem sameResult_exec (i : Instr) (h : SameVisible s t) (hs : StateInv s) (ht : StateInv t) :
    SameResult (exec i s) (exec i t) := by
  cases i with
  | init a => exact sameResult_execInit a h
  | rd r =>
    obtain ⟨m, f, rfl⟩ := h.exists_buffers
    exact sameResult_ite (fun _ => sameResult_cmdError h _) fun _ => sameResult_respond h
  | sumClr | sumUpd | crcClr | crcUpd =>
    obtain ⟨m, f, rfl⟩ := h.exists_buffers
    exact sameResult_gate h <| sameResult_respond (h.registers rfl rfl (fun _ => id) fun _ => id)
  | rxByte b => exact sameResult_takeRxByte b h hs ht
  | rxTmo a => exact sameResult_execRxTmo a h hs
  | rbRd a => exact sameResult_execRbRd a h hs
  | pkPut b => exact sameResult_execPkPut b h hs ht
  | pkBuild a => exact sameResult_execPkBuild a h hs ht
  | txNext a => exact sameResult_execTxNext a h
  | txRsp b => exact sameResult_takeResponse b h
  | txTmo a => exact sameResult_execTxTmo a h
  | reservedOpE | reservedOpF => exact sameResult_gate h (sameResult_cmdError h _)
  | frameChecksum | frameCrc => exact sameResult_feedRx _ h hs ht
  | soh side | eot side | ack side | nak side | can side | crq side => exact sameResult_takeByte side _ h hs ht

/-- What is taken off the list of inputs depends on registers only. -/
theorem sameResult_step (h : SameVisible s t) (hs : StateInv s) (ht : StateInv t) : SameResult (step s) (step t) := by
  obtain ⟨m, f, rfl⟩ := h.exists_buffers
  have hexec : ∀ i ps, SameResult (exec i { s with pending := ps }) (exec i { s.withBuffers m f with pending := ps }) :=
    fun i ps => sameResult_exec i (h.pending ps) (stateInv_pending hs ps) (stateInv_pending ht ps)
  rcases hp : s.pending with _ | ⟨(⟨w⟩ | ⟨side, b, bs⟩) | _, rest⟩ <;>
    simp only [step, fetch, hp, show (s.withBuffers m f).pending = s.pending from rfl]
  · exact sameResult_next h
  · exact hexec _ _
  · exact hexec _ _
  · exact sameResult_next (.refl _)

/-- Settles O60: every byte an operation reads is live, and every byte it makes live it has written. -/
theorem unwrittenBufferBytesAreUnobservable : Obligations.UnwrittenBufferBytesAreUnobservable :=
  fun _ _ s' hs ht h => sameResult_step h hs ht s'

end Sys2Proof
end

section
/-!
PROOFS. `ERR`, `ECODE` and `LEVT` are written by `INIT`, the reset input and the three ends of a step (10_state.md R27 and R28). So
one lemma says how every instruction but `INIT` ends, and the two statements about these registers are read off it.
-/

namespace Sys2Proof

open Machine Claims

variable {s t u : State}

/-- The registers that only `INIT`, the reset input and the ends of a step write are as they were. -/
structure SystemKept (s t : State) : Prop where
  ready : t.ready = s.ready
  mode : t.mode = s.mode
  err : t.err = s.err
  ecode : t.ecode = s.ecode
  levt : t.levt = s.levt

/-- The three ends of a step (00_scope.md section 5). -/
inductive Ended (s : State) : State → Prop
  | turnedAway : Ended s s.turnedAway
  | errored {c : ErrCode} (hc : c ≠ .none) : Ended s (s.errored c)
  | answered {u : State} {d : Half} {x : Option Byte} {e : Event} (hu : SystemKept s u) : Ended s (u.answered d x e)

/-! ### How an instruction ends -/

theorem ended_of_respond {d : Half} {x : Option Byte} {e : Event} (hb : respond d x e u = .next t) (hu : SystemKept s u) :
    Ended s t :=
  respond_eq_next.mp hb ▸ .answered hu

theorem ended_of_cmdError {c : ErrCode} (hb : cmdError c s = .next t) (hc : c ≠ .none) : Ended s t :=
  cmdError_eq_next.mp hb ▸ .errored hc

theorem ended_of_gate {r n : Bool} {body : Result} (hg : gate r n s body = .next t) (hbody : body = .next t → Ended s t) :
    Ended s t := by
  rcases gate_eq_next.mp hg with ⟨_, rfl⟩ | ⟨_, _, rfl⟩ | ⟨_, _, _, _, rfl⟩ | ⟨_, _, _, hb⟩
  · exact .turnedAway
  · exact .errored nofun
  · exact .errored nofun
  · exact hbody hb

theorem Verdict.ended {p : Prop} (hj : Verdict p u t) (hu : SystemKept s u) : Ended s t := by
  obtain ⟨hready, hmode, herr, hecode, hlevt⟩ := hu
  cases hj <;> exact .answered ⟨hready, hmode, herr, hecode, hlevt⟩

theorem takeRxByte_ended {b : Byte} (h : takeRxByte b s = .next t) : Ended s t := by
  cases takeRxByte_outcome h with
  | frozen => exact .turnedAway
  | notReady | overrun => exact .errored nofun
  | start | finish | ignored | number | header | badHeader | lastPayload | payload | high =>
    exact .answered ⟨rfl, rfl, rfl, rfl, rfl⟩
  | judgedSum _ _ _ _ hj | judgedCrc _ _ _ hj => exact Verdict.ended hj ⟨rfl, rfl, rfl, rfl, rfl⟩

theorem execRxTmo_ended {a : Byte} (h : execRxTmo a s = .next t) : Ended s t := by
  cases execRxTmo_outcome h with
  | frozen => exact .turnedAway
  | badOperand | notReady | overrun => exact .errored nofun
  | atBoundary | truncated => exact .answered ⟨rfl, rfl, rfl, rfl, rfl⟩

theorem execRbRd_ended {a : Byte} (h : execRbRd a s = .next t) : Ended s t := by
  refine ended_of_gate h fun hb => ?_
  split at hb
  · exact ended_of_respond hb ⟨rfl, rfl, rfl, rfl, rfl⟩
  · exact ended_of_cmdError hb nofun

theorem execPkPut_ended {b : Byte} (h : execPkPut b s = .next t) : Ended s t := by
  cases execPkPut_outcome h with
  | frozen => exact .turnedAway
  | notReady | busy | full => exact .errored nofun
  | put => exact .answered ⟨rfl, rfl, rfl, rfl, rfl⟩

theorem buildFrame_systemKept (s : State) : SystemKept s (buildFrame s) :=
  ⟨buildFrame_ready, buildFrame_mode, buildFrame_err, buildFrame_ecode, buildFrame_levt⟩

theorem execPkBuild_ended {a : Byte} (h : execPkBuild a s = .next t) : Ended s t := by
  refine ended_of_gate h fun hb => ?_
  split at hb
  · exact ended_of_cmdError hb nofun
  · split at hb
    · exact ended_of_cmdError hb nofun
    · exact ended_of_respond hb (buildFrame_systemKept s)

theorem execTxNext_ended {a : Byte} (h : execTxNext a s = .next t) : Ended s t := by
  cases execTxNext_outcome h with
  | frozen => exact .turnedAway
  | badOperand | notReady | nothing => exact .errored nofun
  | out => exact .answered ⟨rfl, rfl, rfl, rfl, rfl⟩

theorem takeResponse_ended {b : Byte} (h : takeResponse b s = .next t) : Ended s t := by
  cases takeResponse_outcome h with
  | frozen => exact .turnedAway
  | notReady | unexpected => exact .errored nofun
  | ack | nak | other => exact .answered ⟨rfl, rfl, rfl, rfl, rfl⟩

theorem execTxTmo_ended {a : Byte} (h : execTxTmo a s = .next t) : Ended s t := by
  refine ended_of_gate h fun hb => ?_
  split at hb
  · exact ended_of_cmdError hb nofun
  · exact ended_of_respond hb ⟨rfl, rfl, rfl, rfl, rfl⟩

theorem takeByte_ended {side : Side} {b : Byte} (h : takeByte side b s = .next t) : Ended s t := by
  cases side with
  | rx => exact takeRxByte_ended h
  | tx => exact takeResponse_ended h

/-- Every instruction but `INIT` ends in one of the three ways, or is the bytes of a frame (log 5), each of which does. -/
theorem exec_ended_or_frame {i : Instr} (hi : isInit i = false) (h : exec i s = .next t) :
    Ended s t ∨ ∃ bs, feedRx bs s = .next t := by
  cases i with
  | init a => exact nomatch hi
  | rd r =>
    rcases execRd_eq_next.mp h with ⟨_, rfl⟩ | ⟨_, rfl⟩
    · exact .inl (.errored nofun)
    · exact .inl (.answered ⟨rfl, rfl, rfl, rfl, rfl⟩)
  | sumClr | sumUpd | crcClr | crcUpd =>
    exact .inl (ended_of_gate h fun hb => ended_of_respond hb ⟨rfl, rfl, rfl, rfl, rfl⟩)
  | rxByte b => exact .inl (takeRxByte_ended h)
  | rxTmo a => exact .inl (execRxTmo_ended h)
  | rbRd a => exact .inl (execRbRd_ended h)
  | pkPut b => exact .inl (execPkPut_ended h)
  | pkBuild a => exact .inl (execPkBuild_ended h)
  | txNext a => exact .inl (execTxNext_ended h)
  | txRsp b => exact .inl (takeResponse_ended h)
  | txTmo a => exact .inl (execTxTmo_ended h)
  | reservedOpE | reservedOpF => exact .inl (ended_of_gate h fun hb => ended_of_cmdError hb nofun)
  | frameChecksum | frameCrc => exact .inr ⟨_, h⟩
  | soh | eot | ack | nak | can | crq => exact .inl (takeByte_ended h)

/-! ### `ERR` and `ECODE` -/

/-- From `s` to `t` a set `ERR` and its code are kept, and a newly set one has a code that is not `E_NONE`. -/
structure ErrLatched (s t : State) : Prop where
  kept : s.err = true → t.err = true ∧ t.ecode = s.ecode
  named : s.err = false → t.err = true → t.ecode ≠ .none

theorem errLatched_of_eq (he : t.err = s.err) (hc : t.ecode = s.ecode) : ErrLatched s t where
  kept h := ⟨he.trans h, hc⟩
  named h ht := by simp [he, h] at ht

theorem ErrLatched.trans (h : ErrLatched s t) (h' : ErrLatched t u) : ErrLatched s u where
  kept hs := by
    obtain ⟨ht, hc⟩ := h.kept hs
    obtain ⟨hu, hc'⟩ := h'.kept ht
    exact ⟨hu, hc'.trans hc⟩
  named hs hu := by
    cases ht : t.err with
    | true => exact (h'.kept ht).2 ▸ h.named hs ht
    | false => exact h'.named ht hu

theorem errLatched_errored {c : ErrCode} (hc : c ≠ .none) : ErrLatched s (s.errored c) where
  kept hs := by simp [hs]
  named hs _ := by simpa [hs] using hc

theorem Ended.errLatched (h : Ended s t) : ErrLatched s t := by
  cases h with
  | turnedAway => exact errLatched_of_eq rfl rfl
  | errored hc => exact errLatched_errored hc
  | answered hu => exact errLatched_of_eq hu.err hu.ecode

theorem feedRx_errLatched {bs : List Byte} (h : feedRx bs s = .next t) : ErrLatched s t :=
  feedRx_rel (fun _ _ => errLatched_of_eq rfl rfl) (fun _ _ _ => .trans) (fun _ _ _ hb => (takeRxByte_ended hb).errLatched) h

/-- `INIT` clears `ERR` only where it was 0 already (45_system.md R185). -/
theorem execInit_errLatched {a : Byte} (h : execInit a s = .next t) : ErrLatched s t := by
  rcases execInit_eq_next.mp h with ⟨_, rfl⟩ | ⟨_, _, rfl⟩ | ⟨he, _, rfl⟩
  · exact errLatched_of_eq rfl rfl
  · exact errLatched_errored nofun
  · exact ⟨fun hs => by simp [he] at hs, fun _ => nofun⟩

theorem exec_errLatched {i : Instr} (h : exec i s = .next t) : ErrLatched s t := by
  cases hi : isInit i with
  | true =>
    cases i with
    | init a => exact execInit_errLatched h
    | _ => cases hi
  | false =>
    rcases exec_ended_or_frame hi h with hend | ⟨bs, hbs⟩
    · exact hend.errLatched
    · exact feedRx_errLatched hbs

/-- In a step only the reset input clears `ERR`. -/
theorem reset_of_step_clears_err (h : step s = .next t) (hs : s.err = true) (ht : t.err = false) :
    ∃ rest, s.pending = .reset :: rest := by
  rcases step_eq_next h with ⟨_, rfl⟩ | ⟨rest, hp, _⟩ | ⟨i, ps, _, _, hx⟩
  · simp [hs] at ht
  · exact ⟨rest, hp⟩
  · simp [((exec_errLatched hx).kept hs).1] at ht

/-- Settles O21: `ERR` and `ECODE` are written by a command error alone, which latches its code only while `ERR` is 0. -/
theorem firstErrorIsKeptUntilReset : Obligations.FirstErrorIsKeptUntilReset :=
  ⟨rfl, fun _ _ => rfl, fun _ _ _ h => (exec_errLatched h).kept, fun _ _ _ h => (exec_errLatched h).named,
    fun _ _ => reset_of_step_clears_err⟩

/-! ### `LEVT` -/

/-- The last event of the responses that is not `EV_NONE`, and `e` if there is none. -/
def lastEvent (rs : List Response) (e : Event) : Event :=
  (((rs.map fun r => r.evt).filter fun e => e != .none).getLast?).getD e

theorem lastEvent_append (rs rs' : List Response) (e : Event) : lastEvent (rs ++ rs') e = lastEvent rs' (lastEvent rs e) := by
  simp [lastEvent, List.getLast?_append, Option.getD_or]

theorem Ended.levt_eq (h : Ended s t) : t.levt = lastEvent t.resp s.levt := by
  cases h with
  | turnedAway | errored => rfl
  | answered hu =>
    rename_i u d x e
    by_cases he : e = .none <;> simp [lastEvent, Response.ok, he, hu.levt]

theorem feedRx_levt_eq {bs : List Byte} (h : feedRx bs s = .next t) : t.levt = lastEvent t.resp s.levt := by
  induction bs generalizing s t with
  | nil =>
    cases h
    rfl
  | cons b bs ih =>
    obtain ⟨s1, s2, h1, h2, rfl⟩ := feedRx_cons_eq_next.mp h
    calc s2.levt = lastEvent s2.resp s1.levt := ih h2
      _ = lastEvent s2.resp (lastEvent s1.resp s.levt) := by rw [(takeRxByte_ended h1).levt_eq]
      _ = lastEvent (s1.resp ++ s2.resp) s.levt := (lastEvent_append ..).symm

theorem exec_levt_eq {i : Instr} (hi : isInit i = false) (h : exec i s = .next t) : t.levt = lastEvent t.resp s.levt := by
  rcases exec_ended_or_frame hi h with hend | ⟨bs, hbs⟩
  · exact hend.levt_eq
  · exact feedRx_levt_eq hbs

/-- An `INIT` that is taken clears `LEVT`; one that is not leaves `ERR` set. -/
theorem execInit_levt {a : Byte} (h : execInit a s = .next t) (ht : t.err = false) : t.levt = .none := by
  rcases execInit_eq_next.mp h with ⟨he, rfl⟩ | ⟨_, _, rfl⟩ | ⟨_, _, rfl⟩
  · simp [he] at ht
  · simp at ht
  · rfl

/-- Settles O23: a normal end writes its event to `LEVT` unless it is `EV_NONE`, the other ends leave it alone, and a frame is its bytes. -/
theorem latestEventIsLatched : Obligations.LatestEventIsLatched :=
  ⟨fun _ _ _ => exec_levt_eq, fun _ _ _ => execInit_levt⟩

end Sys2Proof
end

section
/-!
PROOFS. No meaning reads or writes the inputs still to be presented (10_state.md R11, log 1): each operation commutes with a change of
that list, along its definition.
-/

namespace Sys2Proof

open Machine

variable {s : State} {ps : List Input}

/-- `s` with other inputs still to be presented. -/
def Machine.State.facing (s : State) (ps : List Input) : State :=
  { s with pending := ps }

/-- The result with other inputs still to be presented. -/
def facing (ps : List Input) (r : Result) : Result :=
  andThen r fun t => .next (t.facing ps)

/-! ### The shared operations -/

theorem ite_facing {p : Prop} [Decidable p] {q q' r r' : Result} (hq : p → q' = facing ps q) (hr : ¬p → r' = facing ps r) :
    (if p then q' else r') = facing ps (if p then q else r) := by
  split
  · exact hq ‹_›
  · exact hr ‹_›

theorem gate_facing {reserved needsReady : Bool} {body body' : Result} (hb : body' = facing ps body) :
    gate reserved needsReady (s.facing ps) body' = facing ps (gate reserved needsReady s body) :=
  ite_facing (fun _ => rfl) fun _ => ite_facing (fun _ => rfl) fun _ => ite_facing (fun _ => rfl) fun _ => hb

theorem andThen_facing {r r' : Result} {k k' : State → Result} (hr : r' = facing ps r)
    (hk : ∀ u, k' (u.facing ps) = facing ps (k u)) : andThen r' k' = facing ps (andThen r k) := by
  subst hr
  cases r with
  | next u => exact hk u
  | fault | refused => rfl

/-! ### The unpacker -/

theorem verdict_facing (p : Prop) [Decidable p] (s : State) (ps : List Input) :
    (if p then verdictAccept (s.facing ps) else verdictReject (s.facing ps)) =
      facing ps (if p then verdictAccept s else verdictReject s) :=
  ite_facing (fun _ => ite_facing (fun _ => rfl) fun _ => rfl) fun _ => rfl

theorem rxVer1_facing (b : Byte) (s : State) (ps : List Input) : rxVer1 b (s.facing ps) = facing ps (rxVer1 b s) := by
  cases hm : s.mode with
  | checksum =>
    rw [rxVer1_of_checksum hm, rxVer1_of_checksum (s := s.facing ps) hm]
    exact verdict_facing _ { s with rver := b.setWidth 16, sum := checksum (payloadOf s) } ps
  | crc =>
    rw [rxVer1_of_crc hm, rxVer1_of_crc (s := s.facing ps) hm]
    rfl

theorem rxVer2_facing (b : Byte) (s : State) (ps : List Input) : rxVer2 b (s.facing ps) = facing ps (rxVer2 b s) := by
  rw [rxVer2_eq, rxVer2_eq]
  exact verdict_facing _ { s with rver := (s.rver &&& 0xFF00) ||| b.setWidth 16, crc := crc16 (payloadOf s) } ps

theorem takeRxByte_facing (b : Byte) (s : State) (ps : List Input) :
    takeRxByte b (s.facing ps) = facing ps (takeRxByte b s) := by
  refine gate_facing ?_
  rw [show (s.facing ps).ph = s.ph from rfl]
  cases s.ph with
  | idle => exact ite_facing (fun _ => rfl) fun _ => ite_facing (fun _ => rfl) fun _ => rfl
  | num => rfl
  | cmp => exact ite_facing (fun _ => rfl) fun _ => rfl
  | pay => exact ite_facing (fun _ => ite_facing (fun _ => rfl) fun _ => rfl) fun _ => rfl
  | ver1 => exact rxVer1_facing b s ps
  | ver2 => exact rxVer2_facing b s ps
  | done => rfl

theorem feedRx_facing (bs : List Byte) (s : State) (ps : List Input) :
    feedRx bs (s.facing ps) = facing ps (feedRx bs s) := by
  induction bs generalizing s with
  | nil => rfl
  | cons b bs ih => exact andThen_facing (takeRxByte_facing b s ps) fun s1 => andThen_facing (ih s1) fun _ => rfl

theorem execRxTmo_facing (a : Byte) (s : State) (ps : List Input) :
    execRxTmo a (s.facing ps) = facing ps (execRxTmo a s) := by
  refine gate_facing ?_
  rw [show (s.facing ps).ph = s.ph from rfl]
  cases s.ph <;> rfl

/-! ### The packer -/

theorem buildFrame_facing (s : State) (ps : List Input) : buildFrame (s.facing ps) = (buildFrame s).facing ps := by
  cases hm : s.mode <;> simp only [buildFrame, show (s.facing ps).mode = s.mode from rfl, hm] <;> rfl

theorem execPkBuild_facing (a : Byte) (s : State) (ps : List Input) :
    execPkBuild a (s.facing ps) = facing ps (execPkBuild a s) := by
  refine gate_facing <| ite_facing (fun _ => rfl) fun _ => ite_facing (fun _ => rfl) fun _ => ?_
  rw [buildFrame_facing]
  rfl

theorem takeResponse_facing (b : Byte) (s : State) (ps : List Input) :
    takeResponse b (s.facing ps) = facing ps (takeResponse b s) :=
  gate_facing <| ite_facing (fun _ => rfl) fun _ => ite_facing (fun _ => rfl) fun _ => ite_facing (fun _ => rfl) fun _ => rfl

/-! ### Every instruction -/

theorem takeByte_facing (side : Side) (b : Byte) (s : State) (ps : List Input) :
    takeByte side b (s.facing ps) = facing ps (takeByte side b s) := by
  cases side with
  | rx => exact takeRxByte_facing b s ps
  | tx => exact takeResponse_facing b s ps

theorem exec_facing (i : Instr) (s : State) (ps : List Input) : exec i (s.facing ps) = facing ps (exec i s) := by
  cases i with
  | init | sumClr | sumUpd | crcClr | crcUpd | reservedOpE | reservedOpF => exact gate_facing rfl
  | rd => exact ite_facing (fun _ => rfl) fun _ => rfl
  | rxByte b => exact takeRxByte_facing b s ps
  | rxTmo a => exact execRxTmo_facing a s ps
  | rbRd | txTmo => exact gate_facing (ite_facing (fun _ => rfl) fun _ => rfl)
  | pkPut =>
    exact gate_facing <| ite_facing (fun _ => rfl) fun _ => ite_facing (fun _ => rfl) fun _ => ite_facing (fun _ => rfl) fun _ => rfl
  | pkBuild a => exact execPkBuild_facing a s ps
  | txNext => exact gate_facing <| ite_facing (fun _ => rfl) fun _ => ite_facing (fun _ => rfl) fun _ => rfl
  | txRsp b => exact takeResponse_facing b s ps
  | frameChecksum | frameCrc => exact feedRx_facing _ s ps
  | soh side | eot side | ack side | nak side | can side | crq side => exact takeByte_facing side _ s ps

/-- Settles O56: the change of the list commutes with every part of every operation, stops among them. -/
theorem pendingInputsDoNotInterfere : Obligations.PendingInputsDoNotInterfere := by
  intro i s ps
  refine (exec_facing i s ps).trans ?_
  cases exec i s <;> rfl

end Sys2Proof
end

section
/-!
PROOFS. What `RD` returns (10_state.md R29) and the fields of the `STATUS` word (R30), as arithmetic on the numbers of the registers.
-/

namespace Sys2Proof

open Machine Claims

/-! ### The register map -/

/-- Two fields side by side are one number. -/
theorem append_byte_eq_ofNat {w : Nat} (x : BitVec w) (y : Byte) : x ++ y = BitVec.ofNat (w + 8) (256 * x.toNat + y.toNat) := by
  have hx := x.isLt
  have hy := y.isLt
  apply BitVec.eq_of_toNat_eq
  rw [BitVec.toNat_append, BitVec.toNat_ofNat, ← Nat.shiftLeft_add_eq_or_of_lt hy, Nat.shiftLeft_eq, Nat.mod_eq_of_lt]
  · omega
  · rw [pow_add]
    omega

/-- `RD` of an index of the map answers its register, and nothing but the response changes. -/
theorem exec_rd {r : Byte} (s : State) (hr : r ≤ lastRegister) :
    exec (.rd r) s = .next { s with resp := [dataResp (readRegister r s)] } :=
  if_neg (BitVec.not_lt.mpr hr)

/-- `RD` of any other index is the command error `E_REG`. -/
theorem exec_rd_of_outside {r : Byte} (s : State) (hr : lastRegister < r) : exec (.rd r) s =
    .next { s with err := true, ecode := if s.err then s.ecode else .reg, resp := [errResp] } :=
  if_pos hr

/-- Settles O24: a narrow register is zero-extended and a pair is packed, and each is the same number. -/
theorem registerMapOfRd : Obligations.RegisterMapOfRd := by
  refine ⟨fun x => congrArg Encoded.command (append_byte_eq_ofNat 1 x), fun s => ?_⟩
  have h := fun r hr => exec_rd (r := r) s hr
  simp only [BitVec.ofNat_toNat, ← append_byte_eq_ofNat (w := 8)]
  exact ⟨h 0x00 (by decide), h 0x01 (by decide), h 0x02 (by decide), h 0x03 (by decide), h 0x04 (by decide), h 0x05 (by decide),
    h 0x06 (by decide), h 0x07 (by decide), h 0x08 (by decide), h 0x09 (by decide), h 0x0A (by decide),
    fun _ hr => exec_rd_of_outside s hr⟩

/-! ### The `STATUS` word -/

theorem flagBit_eq_toNat (b : Bool) : flagBit b = b.toNat := by
  cases b <;> rfl

theorem modeBit_eq_toNat (m : VerMode) : modeBit m = (m == .crc).toNat := by
  cases m <;> rfl

theorem phaseCode_lt (p : Phase) : phaseCode p < 8 := by
  cases p <;> decide

theorem eventCode_lt (e : Event) : eventCode e < 16 := by
  cases e <;> decide

/-- Each part of the `STATUS` word fits into its field. -/
theorem status_parts_bounds (s : State) :
    s.ready.toNat ≤ 1 ∧ (s.mode == .crc).toNat ≤ 1 ∧ s.err.toNat ≤ 1 ∧ s.fvalid.toNat ≤ 1 ∧ s.rvalid.toNat ≤ 1 ∧
      s.lastv.toNat ≤ 1 ∧ phaseCode s.ph < 8 ∧ eventCode s.levt < 16 :=
  ⟨Bool.toNat_le _, Bool.toNat_le _, Bool.toNat_le _, Bool.toNat_le _, Bool.toNat_le _, Bool.toNat_le _, phaseCode_lt _,
    eventCode_lt _⟩

/-- The number in the `STATUS` word is the sum of R30, which fits into 16 bits. -/
theorem statusWord_toNat (s : State) : (statusWord s).toNat =
    s.ready.toNat + 2 * (s.mode == .crc).toNat + 4 * s.err.toNat + 8 * s.fvalid.toNat + 16 * s.rvalid.toNat +
      32 * s.lastv.toNat + 256 * phaseCode s.ph + 4096 * eventCode s.levt := by
  have hparts := status_parts_bounds s
  simp only [statusWord, flagBit_eq_toNat, modeBit_eq_toNat, BitVec.toNat_ofNat]
  exact Nat.mod_eq_of_lt (by omega)

theorem getLsbD_eq_of_toNat {w : Half} {i : Nat} {b : Bool} (h : w.toNat / 2 ^ i % 2 = b.toNat) : w.getLsbD i = b := by
  rw [← BitVec.testBit_toNat, Nat.testBit_eq_decide_div_mod_eq, h]
  cases b <;> rfl

theorem field_eq_div_mod (w : Half) (lo len : Nat) : field w lo len = w.toNat / 2 ^ lo % 2 ^ len := by
  rw [field, BitVec.extractLsb'_toNat, Nat.shiftRight_eq_div_pow]

/-- Settles O25: each field is cut out of the sum of R30, whose terms do not overlap. -/
theorem statusWordFields : Obligations.StatusWordFields := by
  intro s
  have hsum := statusWord_toNat s
  have hparts := status_parts_bounds s
  refine ⟨getLsbD_eq_of_toNat ?_, getLsbD_eq_of_toNat ?_, getLsbD_eq_of_toNat ?_, getLsbD_eq_of_toNat ?_, getLsbD_eq_of_toNat ?_,
    getLsbD_eq_of_toNat ?_, (field_eq_div_mod ..).trans ?_, (field_eq_div_mod ..).trans ?_,
    getLsbD_eq_of_toNat (Eq.trans ?_ Bool.toNat_false.symm), (field_eq_div_mod ..).trans ?_⟩
  all_goals omega

end Sys2Proof
end

section
/-!
PROOFS. The two encodings (30_encoding.md R60 to R69): decoding undoes encoding, the length of a wire item, and what a step makes of the
input at the front of the list.
-/

namespace Sys2Proof

open Machine

variable {s : State} {side : Side} {b : Byte} {bs : List Byte} {rest : List Input}

/-! ### Command words -/

/-- Each of the sixteen operation codes is the code of the command it decodes to. -/
theorem encode_decodeCommand_cmdWord (op : Fin 16) (arg : Byte) :
    encode (decodeCommand (cmdWord (.ofFin op) arg)) = .command (cmdWord (.ofFin op) arg) := by
  simp only [decodeCommand, cmdOp_cmdWord, cmdArg_cmdWord]
  fin_cases op <;> rfl

/-- Settles O6: a word is its two fields, and the operation code is one of sixteen. -/
theorem encodeDecodeAgreeOnCommandWords : Obligations.EncodeDecodeAgreeOnCommandWords := fun w =>
  cmdWord_fields w ▸ encode_decodeCommand_cmdWord (cmdOp w).toFin (cmdArg w)

/-! ### Wire items -/

/-- Away from a frame boundary a byte is the plain byte operation of its side (R61). -/
theorem decodeWire_of_not_boundary (mode : VerMode) (side : Side) (b : Byte) (bs : List Byte) :
    decodeWire false mode side b bs = (byteCommand side b, bs) :=
  rfl

/-- At a boundary an item that starts no frame is one byte (R65, R66). -/
theorem decodeWire_of_no_frame (mode : VerMode) (h : side = .rx → b = Config.soh → takeFrame mode bs = none) :
    decodeWire true mode side b bs = ((controlByte side b).getD (byteCommand side b), bs) := by
  have hnone : (if side = .rx ∧ b = Config.soh then takeFrame mode bs else none) = none := by
    split
    · next hsoh => exact h hsoh.1 hsoh.2
    · rfl
  simp only [decodeWire, hnone, if_true]

/-- At a boundary of the receive side 0x01 with a whole frame behind it is that frame (R65). -/
theorem decodeWire_of_frame {mode : VerMode} {r : Instr × List Byte} (h : takeFrame mode bs = some r) :
    decodeWire true mode .rx Config.soh bs = r := by
  simp [decodeWire, h]

/-- A control byte with nothing behind it is itself (R60). -/
theorem decodeWire_of_controlByte {i : Instr} (mode : VerMode) (h : controlByte side b = some i) :
    decodeWire true mode side b [] = (i, []) := by
  rw [decodeWire_of_no_frame mode fun _ _ => takeFrame_nil mode, h]
  rfl

/-- Settles O5: a command word is its two fields, a control byte has nothing behind it, and a frame has one block of payload. -/
theorem decodeEncodeAgree : Obligations.DecodeEncodeAgree := by
  intro i mode hwf hmode
  cases i with
  | init | rd | sumClr | sumUpd | crcClr | crcUpd | rxByte | rxTmo | rbRd | pkPut | pkBuild | txNext | txRsp | txTmo | reservedOpE
  | reservedOpF =>
    simp only [encode, decode, decodeCommand, cmdOp_cmdWord, cmdArg_cmdWord]
    rfl
  | frameChecksum n c payload v =>
    obtain rfl : VerMode.checksum = mode := by simpa [Instr.layoutMode] using hmode
    exact decodeWire_of_frame (takeFrame_checksum (beq_iff_eq.mp hwf))
  | frameCrc n c payload hi lo =>
    obtain rfl : VerMode.crc = mode := by simpa [Instr.layoutMode] using hmode
    exact decodeWire_of_frame (takeFrame_crc (beq_iff_eq.mp hwf))
  | soh | eot | ack | nak | can | crq => exact decodeWire_of_controlByte mode rfl

/-- Settles O7: each word, evaluated. -/
theorem opcodeTableWordsDecode : Obligations.OpcodeTableWordsDecode := by
  unfold Obligations.OpcodeTableWordsDecode
  decide

/-! ### The length of a wire item -/

/-- The bytes behind a header byte, cut into the header, one block of payload and the others. -/
theorem exists_header_payload (h : 130 ≤ bs.length) : ∃ n c p left, bs = n :: c :: (p ++ left) ∧ p.length = Config.blk := by
  match bs, h with
  | n :: c :: more, h =>
    have hlen : Config.blk ≤ more.length := by
      simp only [List.length_cons] at h
      simp only [Config.blk]
      omega
    exact ⟨n, c, more.take Config.blk, more.drop Config.blk, by rw [List.take_append_drop], List.length_take_of_le hlen⟩

/-- 131 bytes behind 0x01 are a frame in checksum mode (R62). -/
theorem decodeWire_takes_checksum_frame (h : 131 ≤ bs.length) : ∃ n c p v,
    decodeWire true .checksum .rx 0x01 bs = (.frameChecksum n c p v, bs.drop 131) ∧
    n :: c :: (p ++ [v]) = bs.take 131 ∧ p.length = 128 := by
  obtain ⟨n, c, p, left, rfl, hp⟩ := exists_header_payload (bs := bs) (by omega)
  simp only [Config.blk] at hp
  match left, h with
  | [], h => simp [hp] at h
  | v :: left, _ =>
    refine ⟨n, c, p, v, (decodeWire_of_frame (takeFrame_checksum hp)).trans ?_, ?_, hp⟩
    · simp [List.drop_append, hp]
    · simp [List.take_append, hp]

/-- 132 bytes behind 0x01 are a frame in CRC mode (R63). -/
theorem decodeWire_takes_crc_frame (h : 132 ≤ bs.length) : ∃ n c p hi lo,
    decodeWire true .crc .rx 0x01 bs = (.frameCrc n c p hi lo, bs.drop 132) ∧
    n :: c :: (p ++ [hi, lo]) = bs.take 132 ∧ p.length = 128 := by
  obtain ⟨n, c, p, left, rfl, hp⟩ := exists_header_payload (bs := bs) (by omega)
  simp only [Config.blk] at hp
  match left, h with
  | [], h | [_], h => simp [hp] at h
  | hi :: lo :: left, _ =>
    refine ⟨n, c, p, hi, lo, (decodeWire_of_frame (takeFrame_crc hp)).trans ?_, ?_, hp⟩
    · simp [List.drop_append, hp]
    · simp [List.take_append, hp]

/-- Settles O8: only 0x01 on the receive side starts a frame, and its length is that of `MODE`. -/
theorem wireItemLengthFromFirstByteAndMode : Obligations.WireItemLengthFromFirstByteAndMode :=
  ⟨fun _ => decodeWire_takes_checksum_frame, fun _ => decodeWire_takes_crc_frame,
    fun mode _ _ hb => congrArg Prod.snd (decodeWire_of_no_frame (side := .rx) mode fun _ hsoh => absurd hsoh hb),
    fun mode _ _ => congrArg Prod.snd (decodeWire_of_no_frame (side := .tx) mode nofun)⟩

/-! ### The step -/

theorem step_of_command {w : Cmd} (h : s.pending = .item (.command w) :: rest) :
    step s = exec (decodeCommand w) { s with pending := rest } := by
  simp only [step, fetch, h]

theorem step_of_wire (h : s.pending = .item (.wire side b bs) :: rest) :
    step s = exec (decodeWire (atBoundary side s) s.mode side b bs).1
      { s with pending := putBack side (decodeWire (atBoundary side s) s.mode side b bs).2 rest } := by
  simp only [step, fetch, h]

/-- Settles O1: a command word is taken off the list whole, and decoded in every state alike. -/
theorem stepRunsThePresentedCommand : Obligations.StepRunsThePresentedCommand :=
  fun _ _ _ => step_of_command

/-- Settles O2: the step decodes, and decoding the encoding gives the instruction back (O5). -/
theorem stepRunsTheEncodedInstruction : Obligations.StepRunsTheEncodedInstruction := by
  intro s i rest hwf hmode hboundary hp
  have hdec := decodeEncodeAgree i s.mode hwf hmode
  cases he : encode i with
  | command w =>
    rw [he] at hp hdec
    rw [step_of_command hp, show decodeCommand w = i from congrArg Prod.fst hdec]
  | wire side b bs =>
    rw [he] at hp hdec
    rw [step_of_wire hp, hboundary side b bs he, show decodeWire true s.mode side b bs = (i, []) from hdec]
    rfl

/-- Settles O3: away from a boundary one byte is taken, and the others are put back. -/
theorem bytesInsideAFrameAreNeverControlBytes : Obligations.BytesInsideAFrameAreNeverControlBytes := by
  intro s side b bs rest hp hb
  have hstep := step_of_wire hp
  rw [hb, decodeWire_of_not_boundary] at hstep
  refine ⟨putBack side bs rest, ?_, ?_⟩
  · cases bs with
    | nil => exact .inl ⟨rfl, rfl⟩
    | cons c cs => exact .inr ⟨c, cs, rfl, rfl⟩
  · cases side with
    | rx => exact .inl ⟨rfl, hstep⟩
    | tx => exact .inr ⟨rfl, hstep⟩

end Sys2Proof
end

section
/-!
PROOFS. The wire items are their bytes (30_encoding.md R60 to R63, log 5): the control bytes at a frame boundary of either side, and a
whole frame with a consistent header into the unpacker. And the reserved operation codes (R70).
-/

namespace Sys2Proof

open Machine Claims

variable {s t : State}

/-! ### The reserved operation codes -/

/-- A command error in a state with `ERR` = 0 records its code. -/
theorem errored_of_no_err {c : ErrCode} (he : s.err = false) :
    s.errored c = { s with err := true, ecode := c, resp := [errResp] } := by
  rw [State.errored, he]
  rfl

theorem gate_cmdError_of_no_err {c : ErrCode} (he : s.err = false) :
    gate false false s (cmdError c s) = .next { s with err := true, ecode := c, resp := [errResp] } := by
  rw [gate_of_open (n := false) he nofun, cmdError, errored_of_no_err he]

/-- Settles O30: nothing but `ERR` stands before the operation code in the order of checks. -/
theorem reservedOperationCodes : Obligations.ReservedOperationCodes := fun _ _ =>
  ⟨fun he => ⟨gate_cmdError_of_no_err he, gate_cmdError_of_no_err he⟩, fun he => ⟨gate_of_err he, gate_of_err he⟩⟩

/-! ### Control bytes -/

/-- Settles O46: each control byte is the case of phase `IDLE` for its value. -/
theorem controlBytesAtTheUnpacker : Obligations.ControlBytesAtTheUnpacker := by
  rintro s ⟨he, hr⟩ hp
  have h := fun b => takeRxByte_of_idle (b := b) he hr hp
  exact ⟨h Config.soh, h Config.eot, h Config.ack, h Config.nak, h Config.can, h Config.crq⟩

/-- A response byte once the whole frame has been handed out (44_packer.md R166 to R168). -/
theorem takeResponse_of_awaiting (b : Byte) (he : s.err = false) (hr : s.ready = true) (hf : s.fvalid = true)
    (hl : s.txp = s.flen) : takeResponse b s =
      if b = Config.ack then rspAck s else if b = Config.nak then resend s else respond 0 none .txRepoll s := by
  rw [takeResponse, gate_of_open he fun _ => hr, notAwaiting_eq_false.mpr ⟨hf, hl⟩]
  rfl

/-- Settles O47: each control byte is the case of its value. -/
theorem controlBytesAtThePacker : Obligations.ControlBytesAtThePacker := by
  rintro s ⟨he, hr⟩ hf hl
  have h := fun b => takeResponse_of_awaiting b he hr hf hl
  exact ⟨h Config.ack, h Config.nak, h Config.soh, h Config.eot, h Config.can, h Config.crq⟩

/-! ### Items and their bytes -/

/-- A sequence of received bytes is a run of `RX_BYTE`, with the responses of all of them kept. -/
theorem feedRx_eq_next_iff_execAll {bs : List Byte} : feedRx bs s = .next t ↔
    ∃ u, execAll (bs.map .rxByte) s = some (t.resp, u) ∧ t = { u with resp := t.resp } := by
  induction bs generalizing s t with
  | nil =>
    constructor
    · rintro ⟨⟩
      exact ⟨s, rfl, rfl⟩
    · rintro ⟨u, hrun, ht⟩
      obtain ⟨hresp, rfl⟩ : [] = t.resp ∧ s = u := by simpa [execAll_nil] using hrun
      rw [ht, ← hresp]
      rfl
  | cons b bs ih =>
    rw [feedRx_cons_eq_next]
    constructor
    · rintro ⟨s1, s2, h1, h2, rfl⟩
      obtain ⟨u, hrun, hs2⟩ := ih.mp h2
      exact ⟨u, execAll_cons_of h1 hrun, by rw [hs2]⟩
    · rintro ⟨u, hrun, ht⟩
      obtain ⟨s1, rs, h1, hrest, hresp⟩ := execAll_cons_eq_some.mp hrun
      exact ⟨s1, { u with resp := rs }, h1, ih.mpr ⟨u, hrest, rfl⟩, by rw [ht, hresp]⟩

/-- Settles O48: a control byte is one byte of its side by definition, and a frame is a sequence of received bytes. -/
theorem wireItemsAreTheirBytes : Obligations.WireItemsAreTheirBytes :=
  ⟨fun _ => ⟨rfl, rfl, rfl, rfl, rfl, rfl, rfl, rfl, rfl, rfl, rfl, rfl⟩, fun _ _ _ _ _ _ => feedRx_eq_next_iff_execAll,
    fun _ _ _ _ _ _ _ => feedRx_eq_next_iff_execAll⟩

/-! ### A whole frame with a consistent header -/

theorem hdrOk_complement (n : Byte) : hdrOk n (255 - n) = true := by
  have hsum : n.toNat + (255 - n : Byte).toNat = 255 := by bv_omega
  exact beq_iff_eq.mpr (by rw [hsum])

/-- The accepting verdict (43_unpacker.md R141). -/
theorem verdictAccept_eq (s : State) : verdictAccept s = .next (acceptedState s) := by
  rw [verdictAccept, verdictAcceptWith_eq, acceptedState]
  have hdup : isDuplicate Config.dupSuppress s = true ↔ Config.dupSuppress = true ∧ s.lastv = true ∧ s.rbn = s.last := by
    simp [isDuplicate]
    tauto
  simp only [hdup]
  rfl

/-- The rejecting verdict (R142). -/
theorem verdictReject_eq (s : State) : verdictReject s = .next (rejectedState s) :=
  rfl

/-- The state that either verdict leaves. The phase and the responses are its own, whatever they were before. -/
def judged (p : Prop) [Decidable p] (s : State) : State :=
  if p then acceptedState s else rejectedState s

theorem verdict_eq_judged (p : Prop) [Decidable p] (s : State) :
    (if p then verdictAccept s else verdictReject s) = .next (judged p s) := by
  unfold judged
  split
  · exact verdictAccept_eq s
  · exact verdictReject_eq s

/-- The checksum byte (R138). -/
theorem takeRxByte_of_ver1_checksum {b : Byte} {p : List Byte} (he : s.err = false) (hr : s.ready = true) (hp : s.ph = .ver1)
    (hm : s.mode = .checksum) (hpay : payloadOf s = p) : takeRxByte b s =
      .next (judged (checksum p = b) { s with rver := BitVec.ofNat 16 b.toNat, sum := checksum p }) := by
  rw [takeRxByte_of_ver1 he hr hp, rxVer1_of_checksum hm, hpay, verdict_eq_judged, BitVec.ofNat_toNat]

/-- The high byte of the CRC (R139). -/
theorem takeRxByte_of_ver1_crc {b : Byte} (he : s.err = false) (hr : s.ready = true) (hp : s.ph = .ver1)
    (hm : s.mode = .crc) : takeRxByte b s = .next { s with rver := inHighByte b, ph := .ver2, resp := [okResp] } := by
  rw [takeRxByte_of_ver1 he hr hp, rxVer1_of_crc hm]
  rfl

/-- Two bytes, the first put in the high half and the second beside it. -/
theorem inHighByte_and_or (hi lo : Byte) : (inHighByte hi &&& 0xFF00) ||| lo.setWidth 16 = hi ++ lo := by
  apply BitVec.eq_of_getLsbD_eq
  intro k hk
  rw [BitVec.getLsbD_append]
  interval_cases k <;> simp [inHighByte]

/-- The low byte of the CRC, after its high byte (R140). -/
theorem takeRxByte_of_ver2_after_high {hi lo : Byte} {p : List Byte} (he : s.err = false) (hr : s.ready = true)
    (hp : s.ph = .ver2) (hv : s.rver = inHighByte hi) (hpay : payloadOf s = p) : takeRxByte lo s =
      .next (judged (crc16 p = hi ++ lo) { s with rver := hi ++ lo, crc := crc16 p }) := by
  rw [takeRxByte_of_ver2 he hr hp, rxVer2_eq, hpay, hv, inHighByte_and_or, verdict_eq_judged]

/-- The state in which the verification field of a frame is awaited: the header is kept and the payload is in `RBUF`. -/
def awaitingVer (s : State) (n : Byte) (p : List Byte) : State :=
  { s with
    rbuf := s.rbuf.writeSeq 0 p, rvalid := false, rbn := n, rcp := 255 - n, ph := .ver1,
    resp := List.replicate 131 okResp }

theorem feedRx_header_payload {n : Byte} {p : List Byte} (he : s.err = false) (hr : s.ready = true) (hp : s.ph = .idle)
    (hi : s.idx = 0) (hl : p.length = 128) : feedRx (Config.soh :: n :: (255 - n) :: p) s = .next (awaitingVer s n p) := by
  rw [feedRx_front he hr hp (hdrOk_complement n) hl, ← hi]
  rfl

/-- The payload of a frame that has been stored in `RBUF` is the payload that is judged. -/
theorem payloadOf_of_stored {m : Memory} {p : List Byte} (hb : s.rbuf = m.writeSeq 0 p) (hw : m.wf = true)
    (hl : p.length = 128) : payloadOf s = p := by
  rw [payloadOf, hb, show Config.blk = p.length from hl.symm]
  exact Memory.readSeq_writeSeq 0 p hw

/-- The stored payload is read back byte by byte, and above it nothing has changed. -/
theorem read_writeSeq_payload {m : Memory} {p : List Byte} (hw : m.wf = true) (hl : p.length = 128) :
    (∀ k (h : k < p.length), (m.writeSeq 0 p).read k = p[k]) ∧ ∀ a, 128 ≤ a → (m.writeSeq 0 p).read a = m.read a := by
  refine ⟨fun k hk => ?_, fun a ha => ?_⟩
  · simp [Memory.read_writeSeq 0 p k hw, hk]
  · rw [Memory.read_writeSeq 0 p a hw, if_neg (by omega)]

/-- Settles O49: header and payload bring the unpacker to the verification field, and its one byte brings the verdict. -/
theorem checksumFrameIsJudged : Obligations.ChecksumFrameIsJudged := by
  rintro s n v p ⟨he, hr⟩ hp hm hi hl hw
  obtain ⟨hin, hout⟩ := read_writeSeq_payload hw hl
  have hfront := feedRx_header_payload (n := n) he hr hp hi hl
  have hlast := takeRxByte_of_ver1_checksum (s := awaitingVer s n p) (b := v) he hr rfl hm (payloadOf_of_stored rfl hw hl)
  exact ⟨s.rbuf.writeSeq 0 p, hin, hout, feedRx_append_of hfront (feedRx_single hlast)⟩

/-- Settles O50: header and payload bring the unpacker to the verification field, whose high byte is kept for the verdict. -/
theorem crcFrameIsJudged : Obligations.CrcFrameIsJudged := by
  rintro s n hi lo p ⟨he, hr⟩ hp hm hidx hl hw
  obtain ⟨hin, hout⟩ := read_writeSeq_payload hw hl
  have hfront := feedRx_header_payload (n := n) he hr hp hidx hl
  have hhigh := takeRxByte_of_ver1_crc (s := awaitingVer s n p) (b := hi) he hr rfl hm
  have hlow := takeRxByte_of_ver2_after_high (lo := lo)
    (s := { awaitingVer s n p with rver := inHighByte hi, ph := .ver2, resp := [okResp] }) he hr rfl rfl (payloadOf_of_stored rfl hw hl)
  exact ⟨s.rbuf.writeSeq 0 p, hin, hout, feedRx_append_of hfront (feedRx_cons_of hhigh (feedRx_single hlow))⟩

end Sys2Proof
end

section
/-!
PROOFS. The response records (30_encoding.md R71): how many an instruction leaves and what their fields may be. A response is a refusal, or
it carries the data of its instruction, and only an unpacker step puts a byte on the channel.
-/

namespace Sys2Proof

open Machine Claims

variable {s t u : State} {d : Half} {tr : Bool}

/-- The fields of a response that can carry `d`, and `ACK` or `NAK` if `tr`. -/
inductive ResponseFields (d : Half) (tr : Bool) : Response → Prop
  | refusal : ResponseFields d tr Response.refusal
  | ok {x : Option Byte} {e : Event} (hx : ∀ b ∈ x, tr = true ∧ (b = Config.ack ∨ b = Config.nak)) :
      ResponseFields d tr (Response.ok d x e)

/-- One response, with those fields. -/
def AnsweredOnce (d : Half) (tr : Bool) (t : State) : Prop :=
  ∃ r, t.resp = [r] ∧ ResponseFields d tr r

/-! ### The ends of a step -/

theorem answeredOnce_turnedAway (s : State) : AnsweredOnce d tr s.turnedAway :=
  ⟨_, rfl, .refusal⟩

theorem answeredOnce_errored (s : State) (c : ErrCode) : AnsweredOnce d tr (s.errored c) :=
  ⟨_, rfl, .refusal⟩

/-- A normal end with nothing for the channel. -/
theorem answeredOnce_quiet (u : State) (e : Event) : AnsweredOnce d tr (u.answered d none e) :=
  ⟨_, rfl, .ok nofun⟩

/-- A normal end of an unpacker step that transmits (43_unpacker.md R133, R136, R141 to R143). -/
theorem answeredOnce_transmit {b : Byte} (u : State) (e : Event) (hb : b = Config.ack ∨ b = Config.nak) :
    AnsweredOnce d true (u.answered d (some b) e) :=
  ⟨_, rfl, .ok fun _ hx => ⟨rfl, by rwa [← Option.mem_some.mp hx]⟩⟩

theorem answeredOnce_of_gate {r n : Bool} {body : Result} (hg : gate r n s body = .next t)
    (hbody : body = .next t → AnsweredOnce d tr t) : AnsweredOnce d tr t := by
  rcases gate_eq_next.mp hg with ⟨_, rfl⟩ | ⟨_, _, rfl⟩ | ⟨_, _, _, _, rfl⟩ | ⟨_, _, _, hb⟩
  · exact answeredOnce_turnedAway s
  · exact answeredOnce_errored s _
  · exact answeredOnce_errored s _
  · exact hbody hb

theorem answeredOnce_of_respond {e : Event} (h : respond d none e u = .next t) : AnsweredOnce d tr t :=
  respond_eq_next.mp h ▸ answeredOnce_quiet u e

theorem answeredOnce_of_cmdError {c : ErrCode} (h : cmdError c s = .next t) : AnsweredOnce d tr t :=
  cmdError_eq_next.mp h ▸ answeredOnce_errored s c

/-! ### The unpacker -/

theorem Verdict.answeredOnce {p : Prop} (hj : Verdict p u t) : AnsweredOnce 0 true t := by
  cases hj with
  | duplicate | accept => exact answeredOnce_transmit _ _ (.inl rfl)
  | reject => exact answeredOnce_transmit _ _ (.inr rfl)

theorem takeRxByte_answeredOnce {b : Byte} (h : takeRxByte b s = .next t) : AnsweredOnce 0 true t := by
  cases takeRxByte_outcome h with
  | frozen => exact answeredOnce_turnedAway s
  | notReady | overrun => exact answeredOnce_errored s _
  | start | ignored | number | header | lastPayload | payload | high => exact answeredOnce_quiet _ _
  | finish => exact answeredOnce_transmit _ _ (.inl rfl)
  | badHeader => exact answeredOnce_transmit _ _ (.inr rfl)
  | judgedSum _ _ _ _ hj | judgedCrc _ _ _ hj => exact Verdict.answeredOnce hj

theorem execRxTmo_answeredOnce {a : Byte} (h : execRxTmo a s = .next t) : AnsweredOnce 0 true t := by
  cases execRxTmo_outcome h with
  | frozen => exact answeredOnce_turnedAway s
  | badOperand | notReady | overrun => exact answeredOnce_errored s _
  | atBoundary => exact answeredOnce_quiet s _
  | truncated => exact answeredOnce_transmit _ _ (.inr rfl)

/-- With the reserved bit clear the operand of `RB_RD` is the index (R144). -/
theorem payloadIndex_eq_toNat {a : Byte} (h : reservedBit7 a = false) : payloadIndex a = a.toNat := by
  have hlt : a.toNat < 2 ^ 7 := BitVec.toNat_lt_of_msb_false h
  rw [payloadIndex, BitVec.extractLsb'_toNat, Nat.shiftRight_zero, Nat.mod_eq_of_lt hlt]

theorem execRbRd_answeredOnce {a : Byte} (h : execRbRd a s = .next t) :
    AnsweredOnce ((s.rbuf.read a.toNat).setWidth 16) false t := by
  rcases execRbRd_eq_next.mp h with ⟨_, rfl⟩ | ⟨_, _, rfl⟩ | ⟨_, _, _, rfl⟩ | ⟨_, _, _, _, rfl⟩ | ⟨_, ha, _, _, rfl⟩
  · exact answeredOnce_turnedAway s
  iterate 3 exact answeredOnce_errored s _
  rw [payloadIndex_eq_toNat ha]
  exact answeredOnce_quiet s _

/-- A sequence of received bytes leaves a response for each of them. -/
theorem feedRx_responses {bs : List Byte} (h : feedRx bs s = .next t) :
    t.resp.length = bs.length ∧ ∀ r ∈ t.resp, ResponseFields 0 true r := by
  induction bs generalizing s t with
  | nil =>
    cases h
    exact ⟨rfl, nofun⟩
  | cons b bs ih =>
    obtain ⟨s1, s2, h1, h2, rfl⟩ := feedRx_cons_eq_next.mp h
    obtain ⟨r, hr, hfields⟩ := takeRxByte_answeredOnce h1
    obtain ⟨hlen, hall⟩ := ih h2
    simp only [hr, List.singleton_append]
    exact ⟨congrArg (· + 1) hlen, List.forall_mem_cons.mpr ⟨hfields, hall⟩⟩

/-! ### The packer -/

theorem execPkPut_answeredOnce {b : Byte} (h : execPkPut b s = .next t) : AnsweredOnce 0 false t := by
  cases execPkPut_outcome h with
  | frozen => exact answeredOnce_turnedAway s
  | notReady | busy | full => exact answeredOnce_errored s _
  | put => exact answeredOnce_quiet _ _

theorem execPkBuild_answeredOnce {a : Byte} (h : execPkBuild a s = .next t) :
    AnsweredOnce (t.flen.setWidth 16) false t := by
  refine answeredOnce_of_gate h fun hb => ?_
  split at hb
  · exact answeredOnce_of_cmdError hb
  · split at hb
    · exact answeredOnce_of_cmdError hb
    · obtain rfl := respond_eq_next.mp hb
      exact answeredOnce_quiet (buildFrame s) _

theorem execTxNext_answeredOnce {a : Byte} (h : execTxNext a s = .next t) :
    AnsweredOnce ((s.fbuf.read s.txp.toNat).setWidth 16) false t := by
  cases execTxNext_outcome h with
  | frozen => exact answeredOnce_turnedAway s
  | badOperand | notReady | nothing => exact answeredOnce_errored s _
  | out => exact answeredOnce_quiet _ _

theorem takeResponse_answeredOnce {b : Byte} (h : takeResponse b s = .next t) : AnsweredOnce 0 false t := by
  cases takeResponse_outcome h with
  | frozen => exact answeredOnce_turnedAway s
  | notReady | unexpected => exact answeredOnce_errored s _
  | ack | nak | other => exact answeredOnce_quiet _ _

theorem execTxTmo_answeredOnce {a : Byte} (h : execTxTmo a s = .next t) : AnsweredOnce 0 false t := by
  refine answeredOnce_of_gate h fun hb => ?_
  split at hb
  · exact answeredOnce_of_cmdError hb
  · exact answeredOnce_of_respond hb

/-! ### Every instruction -/

/-- The data of a response that is not refused (R71), from `s` to `t`. -/
def responseData (i : Instr) (s t : State) : Half :=
  match i with
  | .rd x => readRegister x s
  | .rbRd a => (s.rbuf.read a.toNat).setWidth 16
  | .txNext _ => (s.fbuf.read s.txp.toNat).setWidth 16
  | .pkBuild _ => t.flen.setWidth 16
  | _ => 0

theorem responseData_of_not_returnsData {i : Instr} (h : returnsData i = false) : responseData i s t = 0 := by
  cases i with
  | rd | rbRd | txNext | pkBuild => cases h
  | _ => rfl

/-- What R71 says of the responses of an instruction. -/
def Responds (i : Instr) (s t : State) : Prop :=
  t.resp.length = i.steps ∧ ∀ r ∈ t.resp, ResponseFields (responseData i s t) (receives i) r

theorem responds_of_answeredOnce {i : Instr} (hi : i.steps = 1) (h : AnsweredOnce (responseData i s t) (receives i) t) :
    Responds i s t := by
  obtain ⟨r, hr, hfields⟩ := h
  rw [Responds, hr, hi]
  exact ⟨rfl, List.forall_mem_singleton.mpr hfields⟩

theorem takeByte_answeredOnce {side : Side} {b : Byte} (h : takeByte side b s = .next t) :
    AnsweredOnce 0 (side == .rx) t := by
  cases side with
  | rx => exact takeRxByte_answeredOnce h
  | tx => exact takeResponse_answeredOnce h

theorem exec_responds {i : Instr} (h : exec i s = .next t) : Responds i s t := by
  cases i with
  | init | sumClr | sumUpd | crcClr | crcUpd => exact responds_of_answeredOnce rfl (answeredOnce_of_gate h answeredOnce_of_respond)
  | rd r =>
    refine responds_of_answeredOnce rfl ?_
    rcases execRd_eq_next.mp h with ⟨_, rfl⟩ | ⟨_, rfl⟩
    · exact answeredOnce_errored s _
    · exact answeredOnce_quiet s _
  | rxByte b => exact responds_of_answeredOnce rfl (takeRxByte_answeredOnce h)
  | rxTmo a => exact responds_of_answeredOnce rfl (execRxTmo_answeredOnce h)
  | rbRd a => exact responds_of_answeredOnce rfl (execRbRd_answeredOnce h)
  | pkPut b => exact responds_of_answeredOnce rfl (execPkPut_answeredOnce h)
  | pkBuild a => exact responds_of_answeredOnce rfl (execPkBuild_answeredOnce h)
  | txNext a => exact responds_of_answeredOnce rfl (execTxNext_answeredOnce h)
  | txRsp b => exact responds_of_answeredOnce rfl (takeResponse_answeredOnce h)
  | txTmo a => exact responds_of_answeredOnce rfl (execTxTmo_answeredOnce h)
  | reservedOpE | reservedOpF => exact responds_of_answeredOnce rfl (answeredOnce_of_gate h answeredOnce_of_cmdError)
  | frameChecksum | frameCrc =>
    obtain ⟨hlen, hall⟩ := feedRx_responses h
    exact ⟨by rw [hlen]; simp [Instr.steps], hall⟩
  | soh | eot | ack | nak | can | crq => exact responds_of_answeredOnce rfl (takeByte_answeredOnce h)

/-- A refusal has every other field 0, and `tx` is 0 unless there is a byte for the channel. -/
theorem ResponseFields.fields {r : Response} (h : ResponseFields d tr r) :
    (r.err = true → r = errResp) ∧ (r.txv = false → r.tx = 0x00) ∧
    (r.txv = true → (r.tx = 0x06 ∨ r.tx = 0x15) ∧ tr = true) ∧ (r.err = false → r.data = d) := by
  cases h with
  | refusal => exact ⟨fun _ => rfl, fun _ => rfl, nofun, nofun⟩
  | @ok x e hx =>
    cases x with
    | none => exact ⟨nofun, fun _ => rfl, nofun, fun _ => rfl⟩
    | some b => exact ⟨nofun, nofun, fun _ => (hx b rfl).symm, fun _ => rfl⟩

/-- Settles O22: every response is a refusal or carries the data of its instruction, and only received bytes are answered on the channel. -/
theorem oneResponseForEachCommand : Obligations.OneResponseForEachCommand := by
  intro i s t h
  obtain ⟨hlen, hall⟩ := exec_responds h
  refine ⟨hlen, fun r hr => ?_⟩
  obtain ⟨herr, htx, htxv, hdata⟩ := (hall r hr).fields
  refine ⟨herr, htx, htxv, fun hi => ?_, ?_, ?_, ?_, ?_⟩
  · cases he : r.err with
    | true => rw [herr he]; rfl
    | false => rw [hdata he, responseData_of_not_returnsData hi]
  all_goals
    rintro _ rfl
    exact hdata

end Sys2Proof
end

section
/-!
PROOFS. The additive checksum (40_checksum.md R90 to R95): as the sum of a list in the ring of bytes, and as the sum of the numbers of the
bytes. And the stand-alone operations on `SUM` and `CRC`, one at a time and over a sequence of bytes (R92 to R94, 41_crc16.md R108).
-/

namespace Sys2Proof

open Machine Claims

variable {s : State}

/-! ### Sums modulo 256 -/

theorem sumByte_toNat (a b : Byte) : (sumByte a b).toNat = (a.toNat + b.toNat) % 256 :=
  BitVec.toNat_add a b

theorem sumByte_eq_ofNat (a b : Byte) : sumByte a b = BitVec.ofNat 8 ((a.toNat + b.toNat) % 256) := by
  rw [← sumByte_toNat, BitVec.ofNat_toNat, BitVec.setWidth_eq]

theorem checksum_toNat (bs : List Byte) : (checksum bs).toNat = (bs.map fun b => b.toNat).sum % 256 := by
  induction bs with
  | nil => rfl
  | cons b bs ih => rw [checksum_cons, BitVec.toNat_add, ih, List.map_cons, List.sum_cons, Nat.add_mod_mod]

/-- Settles O9: a byte more adds its number, and the carry out of bit 7 is what the reduction modulo 256 drops. -/
theorem checksumIsTheSumModulo256 : Obligations.ChecksumIsTheSumModulo256 :=
  ⟨sumByte_toNat, checksum_toNat⟩

/-! ### The arithmetic laws -/

/-- Addition of bytes is that of a commutative ring, so the library's lemmas about sums of lists apply. -/
theorem checksum_eq_sum (bs : List Byte) : checksum bs = bs.sum := by
  induction bs with
  | nil => rfl
  | cons b bs ih => rw [checksum_cons, ih, List.sum_cons]

theorem checksum_append (a b : List Byte) : checksum (a ++ b) = checksum a + checksum b := by
  simp only [checksum_eq_sum, List.sum_append]

/-- The checksum follows a change of one byte by its difference (R95 item 4). -/
theorem checksum_replace (a c : List Byte) (x y : Byte) : checksum (a ++ y :: c) = checksum (a ++ x :: c) + (y - x) := by
  simp only [checksum_append, checksum_cons]
  ring

/-- Only the lowest bit of `v` survives in `128 * v` (R95 item 6). -/
theorem checksum_replicate_128 (v : Byte) : checksum (List.replicate 128 v) = if v.getLsbD 0 then 0x80 else 0x00 := by
  have hsum : (checksum (List.replicate 128 v)).toNat = 128 * v.toNat % 256 := by
    rw [checksum_toNat, List.map_replicate, List.sum_replicate, smul_eq_mul]
  have hbit : v.getLsbD 0 = decide (v.toNat % 2 = 1) := Nat.testBit_zero _
  apply BitVec.eq_of_toNat_eq
  rw [hsum, hbit]
  by_cases hodd : v.toNat % 2 = 1
  · rw [if_pos (decide_eq_true hodd)]
    exact (by omega : 128 * v.toNat % 256 = 128)
  · rw [if_neg (by simpa using hodd)]
    exact (by omega : 128 * v.toNat % 256 = 0)

/-- Settles O10: each law is one of sums in a commutative ring, and the last is one of parity. -/
theorem checksumArithmeticLaws : Obligations.ChecksumArithmeticLaws := by
  refine ⟨fun a => Nat.le_of_lt_succ (checksum a).isLt, fun a b hperm => ?_, checksum_append,
    fun a c x y => ⟨checksum_replace a c x y, fun hne heq => ?_⟩, fun a b c x y d => ?_, checksum_replicate_128⟩
  · rw [checksum_eq_sum, checksum_eq_sum, hperm.sum_eq]
  · rw [checksum_replace a c x y] at heq
    exact hne (sub_eq_zero.mp (add_eq_left.mp heq)).symm
  · simp only [checksum_append, checksum_cons]
    ring

/-! ### The stand-alone operations, one at a time -/

theorem exec_sumClr (he : s.err = false) : exec (.sumClr 0) s = .next { s with sum := 0x00, resp := [okResp] } :=
  execSumClr_eq_next.mpr (.inr (.inr ⟨he, rfl, rfl⟩))

theorem exec_sumUpd (he : s.err = false) (b : Byte) :
    exec (.sumUpd b) s = .next { s with sum := sumByte s.sum b, resp := [okResp] } :=
  execSumUpd_eq_next.mpr (.inr ⟨he, rfl⟩)

theorem exec_crcClr (he : s.err = false) : exec (.crcClr 0) s = .next { s with crc := Config.crcInit, resp := [okResp] } :=
  execCrcClr_eq_next.mpr (.inr (.inr ⟨he, rfl, rfl⟩))

theorem exec_crcUpd (he : s.err = false) (b : Byte) :
    exec (.crcUpd b) s = .next { s with crc := crcByte s.crc b, resp := [okResp] } :=
  execCrcUpd_eq_next.mpr (.inr ⟨he, rfl⟩)

/-- Settles O27: `ERR` and the operand are all that is checked, so `READY` plays no part. -/
theorem sumOperations : Obligations.SumOperations := by
  refine ⟨rfl, fun b => congrArg Encoded.command (append_byte_eq_ofNat 3 b), fun s => ⟨fun he => ⟨fun a => ?_, fun b => ?_⟩,
    fun he => ⟨exec_sumClr he, fun a ha => ?_, fun b => ?_⟩⟩⟩
  · exact execSumClr_eq_next.mpr (.inl ⟨he, rfl⟩)
  · exact execSumUpd_eq_next.mpr (.inl ⟨he, rfl⟩)
  · exact execSumClr_eq_next.mpr (.inr (.inl ⟨he, bne_iff_ne.mpr ha, (errored_of_no_err he).symm⟩))
  · rw [exec_sumUpd he, sumByte_eq_ofNat]

/-! ### The stand-alone operations over a sequence -/

/-- When an operation on a byte takes the state with value `x` to the state with value `f x b`, a run of it folds `f`. -/
theorem execAll_map_foldl {α : Type} {op : Byte → Instr} {put : α → State} {f : α → Byte → α}
    (hstep : ∀ x b, exec (op b) (put x) = .next (put (f x b))) (bs : List Byte) (x : α) :
    ∃ rs, execAll (bs.map op) (put x) = some (rs, put (bs.foldl f x)) := by
  induction bs generalizing x with
  | nil => exact ⟨_, execAll_nil⟩
  | cons b bs ih =>
    obtain ⟨rs, hrest⟩ := ih (f x b)
    exact ⟨_, execAll_cons_of (hstep x b) hrest⟩

/-- Settles O29: after the clear each update is one step of the fold that `checksum` and `crc16` are. -/
theorem standaloneSumAndCrcOfASequence : Obligations.StandaloneSumAndCrcOfASequence := by
  intro s bs he
  obtain ⟨_, hsum⟩ := execAll_map_foldl (op := .sumUpd) (put := fun x => { s with sum := x, resp := [okResp] }) (f := sumByte)
    (fun _ => exec_sumUpd he) bs 0x00
  obtain ⟨_, hcrc⟩ := execAll_map_foldl (op := .crcUpd) (put := fun x => { s with crc := x, resp := [okResp] }) (f := crcByte)
    (fun _ => exec_crcUpd he) bs Config.crcInit
  exact ⟨⟨_, _, execAll_cons_of (exec_sumClr he) hsum⟩, _, _, execAll_cons_of (exec_crcClr he) hcrc⟩

end Sys2Proof
end

section
/-!
PROOFS. The CRC (41_crc16.md R100 to R112): its bits, its equivalent forms, linearity, the residue and the detection of errors. All rest on
three facts: `crc_bit` is linear over xor, only 0 goes to 0, and a byte enters the register by an xor. And the stand-alone operations
(R105, R106).
-/

namespace Sys2Proof

open Machine Claims

/-! ### The register and its bytes -/

/-- Two bytes side by side, the first in the high half. -/
theorem append_eq_inHighByte_xor (hi lo : Byte) : hi ++ lo = inHighByte hi ^^^ lo.setWidth 16 := by
  have hhi : hiByte (hi ++ lo) = hi := BitVec.extractLsb'_append_eq_left
  have hlo : loByte (hi ++ lo) = lo := BitVec.extractLsb'_append_eq_right
  rw [eq_high_xor_low (hi ++ lo), hhi, hlo]

theorem hiByte_append_loByte (r : Half) : hiByte r ++ loByte r = r := by
  rw [append_eq_inHighByte_xor, ← eq_high_xor_low]

theorem append_zero_eq_inHighByte (b : Byte) : b ++ (0 : Byte) = inHighByte b := by
  rw [append_eq_inHighByte_xor]
  exact BitVec.xor_zero

/-- The high byte is shifted out and the low byte takes its place. -/
theorem shiftLeft_eq_inHighByte (r : Half) : r <<< 8 = inHighByte (loByte r) := by
  apply BitVec.eq_of_getLsbD_eq
  intro k hk
  simp only [inHighByte, loByte, BitVec.getLsbD_shiftLeft, BitVec.getLsbD_setWidth, BitVec.getLsbD_extractLsb']
  grind

/-! ### One byte -/

theorem crcBits_zero (n : Nat) : crcBits n 0 = 0 := by
  induction n with
  | zero => rfl
  | succ n ih => exact ih

theorem crcBits_eq_zero_iff {n : Nat} {r : Half} : crcBits n r = 0 ↔ r = 0 :=
  ⟨crcBits_eq_zero, fun h => h ▸ crcBits_zero n⟩

theorem crcByte_zero_data (r : Half) : crcByte r 0x00 = crcBits 8 r :=
  congrArg (crcBits 8) BitVec.xor_zero

theorem crcByte_zero_start (b : Byte) : crcByte 0 b = crcBits 8 (inHighByte b) :=
  congrArg (crcBits 8) BitVec.zero_xor

/-- The byte step is linear (R109). -/
theorem crcByte_xor (r q : Half) (a b : Byte) : crcByte (r ^^^ q) (a ^^^ b) = crcByte r a ^^^ crcByte q b := by
  unfold crcByte
  rw [← crcBits_xor, inHighByte_xor]
  ac_rfl

/-- The register and the byte take separate ways through a step. -/
theorem crcByte_eq_crcBits_xor (r : Half) (b : Byte) : crcByte r b = crcBits 8 r ^^^ crcByte 0 b := by
  rw [crcByte_zero_start, ← crcBits_xor]
  rfl

/-- A change of the register runs through a step as if the byte were zero. -/
theorem crcByte_xor_register (r q : Half) (b : Byte) : crcByte (r ^^^ q) b = crcByte r b ^^^ crcBits 8 q := by
  rw [← crcByte_zero_data, ← crcByte_xor]
  exact congrArg (crcByte _) BitVec.xor_zero.symm

/-! ### A sequence of bytes -/

theorem crcFold_append (r : Half) (a b : List Byte) : crcFold r (a ++ b) = crcFold (crcFold r a) b :=
  List.foldl_append

/-- Settles O11: the bits of one step, eight of them, and the fold. -/
theorem crcStepsAreAsTheRulesGive : Obligations.CrcStepsAreAsTheRulesGive :=
  ⟨fun r _ => crcBit_getLsbD r, fun r b => by rw [append_zero_eq_inHighByte]; rfl, rfl, fun bs b => crcFold_append _ bs [b]⟩

/-- The fold is linear in the register and the bytes together. -/
theorem crcFold_zipWith_xor {a b : List Byte} (h : a.length = b.length) (r q : Half) :
    crcFold (r ^^^ q) (List.zipWith (fun x y => x ^^^ y) a b) = crcFold r a ^^^ crcFold q b := by
  induction a generalizing b r q with
  | nil =>
    obtain rfl := List.length_eq_zero_iff.mp h.symm
    rfl
  | cons x a ih =>
    obtain ⟨y, b, rfl⟩ := List.exists_cons_of_length_eq_add_one h.symm
    exact (congrArg (crcFold · _) (crcByte_xor r q x y)).trans (ih (Nat.succ.inj h) _ _)

/-- Settles O14: the step is linear, and the initial value 0x0000 adds nothing (R109). -/
theorem crcIsLinear : Obligations.CrcIsLinear :=
  ⟨crcByte_xor, fun _ _ h => crcFold_zipWith_xor h Config.crcInit Config.crcInit⟩

theorem crc16_zeros (k : Nat) : crc16 (List.replicate k 0x00) = 0 := by
  induction k with
  | zero => rfl
  | succ k ih => exact ih

/-- Settles O15: a zero byte leaves the register 0x0000 as it is. -/
theorem crcOfLeadingZeros : Obligations.CrcOfLeadingZeros :=
  ⟨crcBits_zero 8, fun k bs => (crcFold_append ..).trans (congrArg (crcFold · bs) (crc16_zeros k)), crc16_zeros, crc16_zeros 128⟩

/-! ### The equivalent forms -/

theorem crcSerialBit_getLsbD (r : Half) (d : Bool) {k : Nat} (hk : k < 16) : (crcSerialBit r d).getLsbD k =
    if k = 0 then r.getLsbD 15 ^^ d
    else if k = 5 ∨ k = 12 then r.getLsbD (k - 1) ^^ (r.getLsbD 15 ^^ d)
    else r.getLsbD (k - 1) := by
  rw [crcSerialBit, BitVec.getLsbD_ofFnLE, dif_pos hk]

/-- The data bit enters by an xor, so the register may be split before it does. -/
theorem crcSerialBit_xor (r q : Half) (d : Bool) : crcSerialBit (r ^^^ q) d = crcBit r ^^^ crcSerialBit q d := by
  apply BitVec.eq_of_getLsbD_eq
  intro k hk
  rw [BitVec.getLsbD_xor, crcBit_getLsbD r hk, crcSerialBit_getLsbD _ d hk, crcSerialBit_getLsbD _ d hk]
  by_cases h0 : k = 0
  · simp [h0]
  · have hmoves : (k != 0) = true := bne_iff_ne.mpr h0
    by_cases htap : k = 5 ∨ k = 12
    · have htap' : (k == 0 || k == 5 || k == 12) = true := by simpa [h0] using htap
      simp only [h0, hmoves, htap, htap', BitVec.getLsbD_xor, if_true, if_false, Bool.true_and, Bool.and_true, Bool.xor_assoc,
        Bool.xor_left_comm]
    · have htap' : (k == 0 || k == 5 || k == 12) = false := by simpa [h0] using htap
      simp [h0, hmoves, htap, htap']

/-- A part of the register runs through the serial steps as through `crc_bit`, whatever the data bits. -/
theorem foldl_crcSerialBit_xor (b : Byte) (ks : List Nat) (r q : Half) :
    ks.foldl (fun r k => crcSerialBit r (b.getLsbD k)) (r ^^^ q) =
      crcBits ks.length r ^^^ ks.foldl (fun r k => crcSerialBit r (b.getLsbD k)) q := by
  induction ks generalizing r q with
  | nil => rfl
  | cons k ks ih => rw [List.foldl_cons, crcSerialBit_xor, ih]; rfl

/-- From the register 0x0000 there are 256 cases, each evaluated. -/
theorem crcSerialByte_zero_start : ∀ b : Byte, crcSerialByte 0 b = crcByte 0 b := by
  decide +kernel

theorem crcSerialByte_eq_crcByte (r : Half) (b : Byte) : crcSerialByte r b = crcByte r b :=
  calc crcSerialByte r b = crcSerialByte (r ^^^ 0) b := congrArg (crcSerialByte · b) BitVec.xor_zero.symm
    _ = crcBits 8 r ^^^ crcSerialByte 0 b := foldl_crcSerialBit_xor b _ r 0
    _ = crcByte r b := by rw [crcSerialByte_zero_start, ← crcByte_eq_crcBits_xor]

/-- Settles O12: both forms split into the way of the register and the way of the byte, and the table of the bytes is the same. -/
theorem crcBitSerialFormAgrees : Obligations.CrcBitSerialFormAgrees :=
  ⟨fun r d _ => crcSerialBit_getLsbD r d, crcSerialByte_eq_crcByte⟩

/-- The table form (R107): the low byte of the register moves up untouched, and only the high byte meets the polynomial. -/
theorem crcByte_eq_shift_xor_table (r : Half) (b : Byte) : crcByte r b = (r <<< 8) ^^^ crcByte 0 (hiByte r ^^^ b) := by
  have hsplit : r ^^^ inHighByte b = (loByte r).setWidth 16 ^^^ inHighByte (hiByte r ^^^ b) := by
    rw [inHighByte_xor]
    conv_lhs => rw [eq_high_xor_low r]
    ac_rfl
  rw [crcByte_zero_start, crcByte, hsplit, crcBits_xor, crcBits_low, shiftLeft_eq_inHighByte]

/-- The formula for the table (R107), for each of its 256 entries. -/
theorem crcParallelByte_zero_start : ∀ b : Byte, crcParallelByte 0 b = crcByte 0 b := by
  decide +kernel

theorem crcParallelByte_eq_shift_xor_table (r : Half) (b : Byte) :
    crcParallelByte r b = (r <<< 8) ^^^ crcParallelByte 0 (hiByte r ^^^ b) := by
  simp [crcParallelByte, hiByte, BitVec.xor_assoc]

/-- Settles O13: the byte-parallel form is the table form with a formula for the table. -/
theorem crcByteParallelFormAgrees : Obligations.CrcByteParallelFormAgrees := by
  refine ⟨fun r b => ?_, crcByte_eq_shift_xor_table, by decide +kernel, by decide +kernel, by decide +kernel⟩
  rw [crcByte_eq_shift_xor_table, ← crcParallelByte_zero_start, ← crcParallelByte_eq_shift_xor_table]
  rfl

/-! ### The residue -/

/-- Two bytes are sixteen steps on the register xored with both of them. -/
theorem crcByte_crcByte (r : Half) (hi lo : Byte) : crcByte (crcByte r hi) lo = crcBits 16 (r ^^^ (hi ++ lo)) := by
  rw [crcByte, crcByte, ← crcBits_low lo, ← crcBits_xor, crcBits_crcBits, append_eq_inHighByte_xor, BitVec.xor_assoc]

theorem crc16_append_two_eq_zero_iff (bs : List Byte) (hi lo : Byte) : crc16 (bs ++ [hi, lo]) = 0 ↔ crc16 bs = hi ++ lo := by
  have hstep : crc16 (bs ++ [hi, lo]) = crcBits 16 (crc16 bs ^^^ (hi ++ lo)) := (crcFold_append ..).trans (crcByte_crcByte ..)
  rw [hstep, crcBits_eq_zero_iff]
  exact BitVec.xor_eq_zero_iff

/-- Settles O16: two bytes bring the register to 0x0000 exactly when they cancel it (R111). -/
theorem crcResidueIsZero : Obligations.CrcResidueIsZero :=
  ⟨fun bs => (crc16_append_two_eq_zero_iff ..).mpr (hiByte_append_loByte (crc16 bs)).symm, crc16_append_two_eq_zero_iff⟩

/-! ### Error detection -/

/-- A change of the register changes the CRC by what it alone leaves after all the bytes. -/
theorem crcFold_xor_register (r q : Half) (bs : List Byte) : crcFold (r ^^^ q) bs = crcFold r bs ^^^ crcBits (8 * bs.length) q := by
  induction bs generalizing r q with
  | nil => rfl
  | cons x bs ih =>
    calc crcFold (r ^^^ q) (x :: bs) = crcFold (crcByte r x ^^^ crcBits 8 q) bs := congrArg (crcFold · bs) (crcByte_xor_register r q x)
      _ = crcFold r (x :: bs) ^^^ crcBits (8 * (x :: bs).length) q := by
        rw [ih, crcBits_crcBits, List.length_cons, Nat.mul_succ, Nat.add_comm]
        rfl

/-- A change of one byte changes the CRC by what that change alone leaves after the bytes behind it. -/
theorem crcFold_modify_xor {bs : List Byte} {p : Nat} (hp : p < bs.length) (r : Half) (e : Byte) :
    crcFold r (bs.modify p fun b => b ^^^ e) = crcFold r bs ^^^ crcBits (8 * (bs.length - p)) (inHighByte e) := by
  induction bs generalizing p r with
  | nil => exact absurd hp (Nat.not_lt_zero p)
  | cons x bs ih =>
    cases p with
    | zero =>
      have hbyte : crcByte r (x ^^^ e) = crcByte (r ^^^ inHighByte e) x := by
        rw [crcByte, crcByte, inHighByte_xor, BitVec.xor_assoc, BitVec.xor_comm (inHighByte x)]
      exact (congrArg (crcFold · bs) hbyte).trans (crcFold_xor_register r _ (x :: bs))
    | succ p =>
      rw [List.modify_succ_cons, List.length_cons, Nat.add_sub_add_right]
      exact ih (Nat.lt_of_succ_lt_succ hp) (crcByte r x)

/-- How many steps on the value 1 leave the trace of an error at bit `k`, in a block of `len` bytes. -/
def errorSteps (len k : Nat) : Nat :=
  8 + k % 8 + 8 * (len - k / 8)

/-- The steps tell the bits of a block apart. -/
theorem errorSteps_ne {len k l : Nat} (hl : l < 8 * len) (hne : k ≠ l) : errorSteps len k ≠ errorSteps len l := by
  unfold errorSteps
  omega

theorem errorSteps_lt_add {len k : Nat} (hk : k < 8 * len) (l : Nat) : errorSteps len l < errorSteps len k + 8 * len := by
  have hbyte : k / 8 < len := Nat.div_lt_of_lt_mul hk
  unfold errorSteps
  omega

theorem inHighByte_twoPow : ∀ j < 8, inHighByte (BitVec.twoPow 8 j) = crcBits (8 + j) 1 := by
  decide

/-- An error at bit `k` adds the same trace to the CRC of every block. -/
theorem crc16_flipBit {bs : List Byte} {k : Nat} (hk : k < 8 * bs.length) :
    crc16 (flipBit bs k) = crc16 bs ^^^ crcBits (errorSteps bs.length k) 1 := by
  have hbyte : k / 8 < bs.length := Nat.div_lt_of_lt_mul hk
  have hbit : k % 8 < 8 := Nat.mod_lt k (by decide)
  rw [crc16, flipBit, crcFold_modify_xor hbyte, inHighByte_twoPow _ hbit, crcBits_crcBits]
  rfl

theorem crcBits_one_ne_zero (n : Nat) : crcBits n 1 ≠ 0 :=
  mt crcBits_eq_zero (by decide)

theorem crcBits_eq_iterate (n : Nat) (r : Half) : crcBits n r = crcBit^[n] r := by
  induction n generalizing r with
  | zero => rfl
  | succ n ih => exact ih (crcBit r)

/-- 1023 steps from the value 1, evaluated: none comes back to it. -/
theorem one_notMem_iterate_crcBit : (1 : Half) ∉ List.iterate crcBit (crcBit 1) 1023 := by
  decide +kernel

theorem crcBits_one_ne_one {d : Nat} (hpos : 0 < d) (hd : d < 1024) : crcBits d 1 ≠ 1 := by
  intro h
  obtain ⟨m, rfl⟩ := Nat.exists_eq_add_one_of_ne_zero hpos.ne'
  exact one_notMem_iterate_crcBit (List.mem_iterate.mpr ⟨m, by omega, h.symm.trans (crcBits_eq_iterate m (crcBit 1))⟩)

/-- Fewer than 1024 steps apart the traces of two errors differ: else the trace of their difference would be none. -/
theorem crcBits_one_ne_of_lt {m n : Nat} (hlt : m < n) (hn : n < m + 1024) : crcBits m 1 ≠ crcBits n 1 := by
  intro h
  have hdiff : crcBits m (1 ^^^ crcBits (n - m) 1) = 0 := by
    rw [crcBits_xor, crcBits_crcBits, Nat.sub_add_cancel hlt.le, h]
    exact BitVec.xor_self
  exact crcBits_one_ne_one (d := n - m) (by omega) (by omega) (BitVec.xor_eq_zero_iff.mp (crcBits_eq_zero hdiff)).symm

theorem crcBits_errorSteps_ne {k l : Nat} (hk : k < 1024) (hl : l < 1024) (hne : k ≠ l) :
    crcBits (errorSteps 128 k) 1 ≠ crcBits (errorSteps 128 l) 1 := by
  rcases Nat.lt_or_gt_of_ne (errorSteps_ne (len := 128) hl hne) with h | h
  · exact crcBits_one_ne_of_lt h (errorSteps_lt_add hk l)
  · exact (crcBits_one_ne_of_lt h (errorSteps_lt_add hl k)).symm

theorem crc16_flipBit_block {bs : List Byte} {k : Nat} (hbs : bs.length = 128) (hk : k < 1024) :
    crc16 (flipBit bs k) = crc16 bs ^^^ crcBits (errorSteps 128 k) 1 := by
  rw [crc16_flipBit (by omega), hbs]

theorem crc16_flipBit_zeros {k : Nat} (hk : k < 1024) :
    crc16 (flipBit (List.replicate 128 0x00) k) = crcBits (errorSteps 128 k) 1 := by
  rw [crc16_flipBit_block List.length_replicate hk, crc16_zeros]
  exact BitVec.zero_xor

theorem crc16_flipBit_flipBit_ne {bs : List Byte} {k l : Nat} (hbs : bs.length = 128) (hk : k < 1024) (hl : l < 1024) (hne : k ≠ l) :
    crc16 (flipBit (flipBit bs k) l) ≠ crc16 bs := by
  have hlen : (flipBit bs k).length = 128 := (List.length_modify ..).trans hbs
  rw [crc16_flipBit_block hlen hl, crc16_flipBit_block hbs hk, BitVec.xor_assoc]
  exact fun h => crcBits_errorSteps_ne hk hl hne (BitVec.xor_eq_zero_iff.mp (xor_left_eq_self_iff.mp h))

/-- Settles O17: an error at bit `k` adds the trace of that bit alone, which is never 0 and differs from that of every other bit. -/
theorem crcDetectsOneAndTwoBitErrors : Obligations.CrcDetectsOneAndTwoBitErrors := by
  refine ⟨fun bs k hbs hk h => ?_, fun _ _ _ => crc16_flipBit_flipBit_ne, fun k hk => ?_, fun k l hk hl hne => ?_⟩
  · rw [crc16_flipBit_block hbs hk] at h
    exact crcBits_one_ne_zero _ (xor_left_eq_self_iff.mp h)
  · rw [crc16_flipBit_zeros hk]
    exact crcBits_one_ne_zero _
  · rw [crc16_flipBit_zeros hk, crc16_flipBit_zeros hl]
    exact crcBits_errorSteps_ne hk hl hne

/-! ### The stand-alone operations -/

/-- Settles O28: `ERR` and the operand are all that is checked, so `READY` plays no part. -/
theorem crcOperations : Obligations.CrcOperations := by
  refine ⟨rfl, fun b => congrArg Encoded.command (append_byte_eq_ofNat 5 b), fun s => ⟨fun he => ⟨fun a => ?_, fun b => ?_⟩,
    fun he => ⟨exec_crcClr he, fun a ha => ?_, exec_crcUpd he⟩⟩⟩
  · exact execCrcClr_eq_next.mpr (.inl ⟨he, rfl⟩)
  · exact execCrcUpd_eq_next.mpr (.inl ⟨he, rfl⟩)
  · exact execCrcClr_eq_next.mpr (.inr (.inl ⟨he, bne_iff_ne.mpr ha, (errored_of_no_err he).symm⟩))

end Sys2Proof
end

section
/-!
PROOFS. The block-sequencing functions (42_sequencing.md R115 to R117), and the block counter (R118): each response that reports an
accepted or an acknowledged block comes with one advance of `SEQ`, and no other end of a step writes `SEQ`.
-/

namespace Sys2Proof

open Machine Claims

variable {s t u : State}

/-! ### The functions -/

theorem cpl_eq_not (n : Byte) : cpl n = ~~~n :=
  BitVec.allOnes_sub_eq_not n

theorem cpl_toNat (n : Byte) : (cpl n).toNat = 255 - n.toNat := by
  rw [cpl_eq_not]
  exact BitVec.toNat_not

theorem cpl_eq_xor (n : Byte) : cpl n = n ^^^ 0xFF := by
  rw [cpl_eq_not]
  exact BitVec.xor_allOnes.symm

theorem cpl_cpl (n : Byte) : cpl (cpl n) = n := by
  rw [cpl_eq_not, cpl_eq_not, BitVec.not_not]

theorem hdrOk_iff_mod {n c : Byte} : hdrOk n c = true ↔ (n.toNat + c.toNat) % 256 = 255 :=
  beq_iff_eq

/-- Two bytes add up to less than 511, so a remainder of 255 is the sum itself. -/
theorem hdrOk_iff_sum {n c : Byte} : hdrOk n c = true ↔ n.toNat + c.toNat = 255 := by
  rw [hdrOk_iff_mod]
  have hn := n.isLt
  have hc := c.isLt
  omega

theorem hdrOk_iff_eq_cpl {n c : Byte} : hdrOk n c = true ↔ c = cpl n := by
  rw [hdrOk_iff_sum, ← BitVec.toNat_inj, cpl_toNat]
  have hn := n.isLt
  omega

theorem hdrOk_iff_xor {n c : Byte} : hdrOk n c = true ↔ n ^^^ c = 0xFF :=
  calc hdrOk n c = true ↔ c = n ^^^ 0xFF := by rw [hdrOk_iff_eq_cpl, cpl_eq_xor]
    _ ↔ n ^^^ c = n ^^^ (n ^^^ 0xFF) := (BitVec.xor_right_inj n).symm
    _ ↔ n ^^^ c = 0xFF := by rw [← BitVec.xor_assoc, BitVec.xor_self, BitVec.zero_xor]

/-- Settles O18: `cpl` is the bitwise complement, and a sum of two bytes that is 255 modulo 256 is 255. -/
theorem sequencingFunctions : Obligations.SequencingFunctions :=
  ⟨fun n => ⟨cpl_toNat n, cpl_eq_xor n, cpl_cpl n⟩,
    fun _ _ => ⟨hdrOk_iff_mod, hdrOk_iff_eq_cpl, hdrOk_iff_xor, hdrOk_iff_sum⟩, fun n => BitVec.toNat_add n 1⟩

/-! ### The block counter -/

/-- From `s` to `t` the counter moves by the number of blocks that the responses report. -/
def SeqCounted (s t : State) : Prop :=
  t.seq = s.seq + BitVec.ofNat 8 (blocksDone t.resp)

theorem blocksDone_append (rs rs' : List Response) : blocksDone (rs ++ rs') = blocksDone rs + blocksDone rs' :=
  List.countP_append

/-- The event of a response that reports an accepted or an acknowledged block. -/
def completesBlock (e : Event) : Bool :=
  e == .rxAccept || e == .txAdvance

theorem blocksDone_ok (d : Half) (x : Option Byte) (e : Event) : blocksDone [Response.ok d x e] = (completesBlock e).toNat := by
  cases e <;> rfl

theorem seqCounted_of_no_block (hs : t.seq = s.seq) (hb : blocksDone t.resp = 0) : SeqCounted s t := by
  rw [SeqCounted, hs, hb]
  exact (BitVec.add_zero _).symm

theorem seqCounted_turnedAway (s : State) : SeqCounted s s.turnedAway :=
  seqCounted_of_no_block rfl rfl

theorem seqCounted_errored (s : State) (c : ErrCode) : SeqCounted s (s.errored c) :=
  seqCounted_of_no_block rfl rfl

/-- A normal end that reports no block. -/
theorem seqCounted_quiet {d : Half} {x : Option Byte} {e : Event} (hs : u.seq = s.seq) (he : completesBlock e = false) :
    SeqCounted s (u.answered d x e) :=
  seqCounted_of_no_block hs (by rw [State.answered_resp, blocksDone_ok, he]; rfl)

/-- A normal end that reports a block. -/
theorem seqCounted_advance {d : Half} {x : Option Byte} {e : Event} (hs : u.seq = seqNext s.seq) (he : completesBlock e = true) :
    SeqCounted s (u.answered d x e) := by
  rw [SeqCounted, State.answered_resp, blocksDone_ok, he]
  exact hs

theorem seqCounted_of_respond {d : Half} {x : Option Byte} {e : Event} (hb : respond d x e u = .next t) (hs : u.seq = s.seq)
    (he : completesBlock e = false) : SeqCounted s t :=
  respond_eq_next.mp hb ▸ seqCounted_quiet hs he

theorem seqCounted_of_cmdError {c : ErrCode} (hb : cmdError c s = .next t) : SeqCounted s t :=
  cmdError_eq_next.mp hb ▸ seqCounted_errored s c

theorem seqCounted_of_gate {r n : Bool} {body : Result} (hg : gate r n s body = .next t)
    (hbody : body = .next t → SeqCounted s t) : SeqCounted s t := by
  rcases gate_eq_next.mp hg with ⟨_, rfl⟩ | ⟨_, _, rfl⟩ | ⟨_, _, _, _, rfl⟩ | ⟨_, _, _, hb⟩
  · exact seqCounted_turnedAway s
  · exact seqCounted_errored s _
  · exact seqCounted_errored s _
  · exact hbody hb

/-! ### The receive side -/

/-- Of the verdicts only the accepting one advances the counter (43_unpacker.md R141 and R142). -/
theorem Verdict.seqCounted {p : Prop} (hj : Verdict p u t) (hs : u.seq = s.seq) : SeqCounted s t := by
  cases hj with
  | accept => exact seqCounted_advance (congrArg seqNext hs) rfl
  | duplicate | reject => exact seqCounted_quiet hs rfl

theorem takeRxByte_seqCounted {b : Byte} (h : takeRxByte b s = .next t) : SeqCounted s t := by
  cases takeRxByte_outcome h with
  | frozen => exact seqCounted_turnedAway s
  | notReady | overrun => exact seqCounted_errored s _
  | start | finish | ignored | number | header | badHeader | lastPayload | payload | high => exact seqCounted_quiet rfl rfl
  | judgedSum _ _ _ _ hj | judgedCrc _ _ _ hj => exact Verdict.seqCounted hj rfl

/-- Over a sequence of bytes the advances add up, as the reported blocks do. -/
theorem feedRx_seqCounted {bs : List Byte} (h : feedRx bs s = .next t) : SeqCounted s t := by
  induction bs generalizing s t with
  | nil =>
    cases h
    exact seqCounted_of_no_block rfl rfl
  | cons b bs ih =>
    obtain ⟨s1, s2, h1, h2, rfl⟩ := feedRx_cons_eq_next.mp h
    have hfirst : s1.seq = s.seq + BitVec.ofNat 8 (blocksDone s1.resp) := takeRxByte_seqCounted h1
    calc s2.seq = s1.seq + BitVec.ofNat 8 (blocksDone s2.resp) := ih h2
      _ = s.seq + BitVec.ofNat 8 (blocksDone (s1.resp ++ s2.resp)) := by
        rw [hfirst, blocksDone_append, BitVec.ofNat_add, BitVec.add_assoc]

theorem execRxTmo_seqCounted {a : Byte} (h : execRxTmo a s = .next t) : SeqCounted s t := by
  cases execRxTmo_outcome h with
  | frozen => exact seqCounted_turnedAway s
  | badOperand | notReady | overrun => exact seqCounted_errored s _
  | atBoundary | truncated => exact seqCounted_quiet rfl rfl

theorem execRbRd_seqCounted {a : Byte} (h : execRbRd a s = .next t) : SeqCounted s t := by
  refine seqCounted_of_gate h fun hb => ?_
  split at hb
  · exact seqCounted_of_respond hb rfl rfl
  · exact seqCounted_of_cmdError hb

/-! ### The send side -/

theorem execPkPut_seqCounted {b : Byte} (h : execPkPut b s = .next t) : SeqCounted s t := by
  cases execPkPut_outcome h with
  | frozen => exact seqCounted_turnedAway s
  | notReady | busy | full => exact seqCounted_errored s _
  | put => exact seqCounted_quiet rfl rfl

theorem execPkBuild_seqCounted {a : Byte} (h : execPkBuild a s = .next t) : SeqCounted s t := by
  refine seqCounted_of_gate h fun hb => ?_
  split at hb
  · exact seqCounted_of_cmdError hb
  · split at hb
    · exact seqCounted_of_cmdError hb
    · exact seqCounted_of_respond hb buildFrame_seq rfl

theorem execTxNext_seqCounted {a : Byte} (h : execTxNext a s = .next t) : SeqCounted s t := by
  cases execTxNext_outcome h with
  | frozen => exact seqCounted_turnedAway s
  | badOperand | notReady | nothing => exact seqCounted_errored s _
  | out => exact seqCounted_quiet rfl (by split <;> rfl)

/-- Of the response bytes only `ACK` advances the counter (44_packer.md R166 to R168). -/
theorem takeResponse_seqCounted {b : Byte} (h : takeResponse b s = .next t) : SeqCounted s t := by
  cases takeResponse_outcome h with
  | frozen => exact seqCounted_turnedAway s
  | notReady | unexpected => exact seqCounted_errored s _
  | ack => exact seqCounted_advance rfl rfl
  | nak | other => exact seqCounted_quiet rfl rfl

theorem execTxTmo_seqCounted {a : Byte} (h : execTxTmo a s = .next t) : SeqCounted s t := by
  refine seqCounted_of_gate h fun hb => ?_
  split at hb
  · exact seqCounted_of_cmdError hb
  · exact seqCounted_of_respond hb rfl rfl

theorem takeByte_seqCounted {side : Side} {b : Byte} (h : takeByte side b s = .next t) : SeqCounted s t := by
  cases side with
  | rx => exact takeRxByte_seqCounted h
  | tx => exact takeResponse_seqCounted h

/-! ### Every instruction -/

theorem exec_seqCounted {i : Instr} (hi : isInit i = false) (h : exec i s = .next t) : SeqCounted s t := by
  cases i with
  | init a => exact nomatch hi
  | rd r =>
    rcases execRd_eq_next.mp h with ⟨_, rfl⟩ | ⟨_, rfl⟩
    · exact seqCounted_errored s _
    · exact seqCounted_quiet rfl rfl
  | sumClr | sumUpd | crcClr | crcUpd => exact seqCounted_of_gate h fun hb => seqCounted_of_respond hb rfl rfl
  | rxByte b => exact takeRxByte_seqCounted h
  | rxTmo a => exact execRxTmo_seqCounted h
  | rbRd a => exact execRbRd_seqCounted h
  | pkPut b => exact execPkPut_seqCounted h
  | pkBuild a => exact execPkBuild_seqCounted h
  | txNext a => exact execTxNext_seqCounted h
  | txRsp b => exact takeResponse_seqCounted h
  | txTmo a => exact execTxTmo_seqCounted h
  | reservedOpE | reservedOpF => exact seqCounted_of_gate h seqCounted_of_cmdError
  | frameChecksum | frameCrc => exact feedRx_seqCounted h
  | soh | eot | ack | nak | can | crq => exact takeByte_seqCounted h

/-- An `INIT` that is taken sets `SEQ` to 1; one that is not leaves `ERR` set. -/
theorem execInit_seq {a : Byte} (h : execInit a s = .next t) (ht : t.err = false) : t.seq = 0x01 := by
  rcases execInit_eq_next.mp h with ⟨he, rfl⟩ | ⟨_, _, rfl⟩ | ⟨_, _, rfl⟩
  · exact nomatch he.symm.trans ht
  · exact nomatch ht
  · rfl

/-- Settles O55: one byte or command reports at most one block, and then advances `SEQ` once; a frame is its bytes. -/
theorem blockCounterAdvancesOnAcceptanceOnly : Obligations.BlockCounterAdvancesOnAcceptanceOnly :=
  ⟨fun _ _ _ => exec_seqCounted, fun _ _ _ => execInit_seq⟩

end Sys2Proof
end

section
/-!
PROOFS. The unpacker, one operation at a time (43_unpacker.md R130 to R144): a received byte in each phase, the timeout, the read of an
accepted payload, and that phase `DONE` is left by `INIT` alone.
-/

namespace Sys2Proof

open Machine Claims

variable {s t u : State}

/-! ### The header (R132 to R136) -/

/-- Settles O31: each value of the byte has its case of phase `IDLE`. -/
theorem rxByteAtTheBoundary : Obligations.RxByteAtTheBoundary := by
  rintro s ⟨he, hr⟩ hp
  have h := fun b => takeRxByte_of_idle (b := b) he hr hp
  exact ⟨h Config.soh, h Config.eot, fun b hsoh heot => (h b).trans ((if_neg hsoh).trans (if_neg heot))⟩

/-- Settles O32: the header check of R136 is `hdr_ok` as R116 gives it. -/
theorem rxByteInTheHeader : Obligations.RxByteInTheHeader := by
  rintro s b ⟨he, hr⟩
  refine ⟨fun hp => takeRxByte_of_num he hr hp, fun hp hsum => ?_, fun hp hsum => ?_⟩
  · exact (takeRxByte_of_cmp he hr hp).trans (rxCmp_of_ok (hdrOk_iff_mod.mpr hsum))
  · exact (takeRxByte_of_cmp he hr hp).trans (if_neg (mt hdrOk_iff_mod.mp hsum))

/-! ### The payload (R137) -/

/-- Settles O33: the byte has a place in `RBUF`, and the position is the last one or moves on. -/
theorem rxByteInThePayload : Obligations.RxByteInThePayload := by
  rintro s b ⟨he, hr⟩ hp hidx hw
  have hlt : s.idx.toNat < rbufSize := Nat.lt_succ_of_le hidx
  refine ⟨s.rbuf.write s.idx.toNat b, Memory.read_write_same _ b hw, fun a ha => Memory.read_write_other b hw ha, ?_⟩
  exact (takeRxByte_of_pay he hr hp).trans (storeRbuf_of_lt hlt)

/-! ### The verification field (R138 to R142) -/

/-- The payload that is judged is `RBUF[0..127]`. -/
theorem payloadOf_eq_payload (s : State) : payloadOf s = payload s := by
  simp [payloadOf, payload, Memory.readSeq_eq_map, Config.blk]

theorem next_judged (p : Prop) [Decidable p] (s : State) : (.next (judged p s) : Result) =
    if p then .next (acceptedState s) else .next (rejectedState s) :=
  apply_ite _ p _ _

/-- Settles O34: the verdict is on the checksum of the payload. -/
theorem rxChecksumVerdict : Obligations.RxChecksumVerdict := by
  rintro s b ⟨he, hr⟩ hp hm
  exact (takeRxByte_of_ver1_checksum he hr hp hm (payloadOf_eq_payload s)).trans (next_judged _ _)

/-- A byte put in the low half of a register leaves the high half as it was. -/
theorem and_or_eq_hiByte_append (v : Half) (lo : Byte) : (v &&& 0xFF00) ||| lo.setWidth 16 = hiByte v ++ lo := by
  apply BitVec.eq_of_getLsbD_eq
  intro k hk
  rw [BitVec.getLsbD_append]
  interval_cases k <;> simp [hiByte]

/-- The low byte of the CRC, whatever the high byte (R140). -/
theorem takeRxByte_of_ver2_judged (b : Byte) (he : s.err = false) (hr : s.ready = true) (hp : s.ph = .ver2) : takeRxByte b s =
    .next (judged (crc16 (payload s) = hiByte s.rver ++ b) { s with rver := hiByte s.rver ++ b, crc := crc16 (payload s) }) := by
  rw [takeRxByte_of_ver2 he hr hp, rxVer2_eq, and_or_eq_hiByte_append, payloadOf_eq_payload, verdict_eq_judged]

/-- Settles O35: the high byte is kept for the verdict, which is on all 16 bits. -/
theorem rxCrcVerdict : Obligations.RxCrcVerdict := by
  rintro s b ⟨he, hr⟩
  refine ⟨fun hp hm => ?_, fun hp => ?_⟩
  · rw [append_zero_eq_inHighByte]
    exact takeRxByte_of_ver1_crc he hr hp hm
  · exact (takeRxByte_of_ver2_judged b he hr hp).trans (next_judged _ _)

/-! ### The common checks, with the error that each records (60_exceptions.md R205 and R206) -/

theorem gate_errs_reserved {r n : Bool} {body : Result} (he : s.err = false) (hres : r = true) :
    gate r n s body = .next { s with err := true, ecode := .reservedBits, resp := [errResp] } := by
  rw [hres, gate_of_reserved he, errored_of_no_err he]

theorem gate_errs_notReady {r : Bool} {body : Result} (he : s.err = false) (hres : r = false) (hr : s.ready = false) :
    gate r true s body = .next { s with err := true, ecode := .notReady, resp := [errResp] } := by
  rw [hres, gate_of_notReady he hr, errored_of_no_err he]

/-- Nothing in the common checks stands against the operation, and it is an error of its own. -/
theorem gate_errs_body {r : Bool} {c : ErrCode} {body : Result} (he : s.err = false) (hres : r = false) (hr : s.ready = true)
    (hb : body = cmdError c s) : gate r true s body = .next { s with err := true, ecode := c, resp := [errResp] } := by
  rw [hres, gate_of_open he fun _ => hr, hb, cmdError, errored_of_no_err he]

/-! ### The timeout (R143) -/

theorem execRxTmo_of_idle (he : s.err = false) (hr : s.ready = true) (hp : s.ph = .idle) :
    execRxTmo 0 s = respond 0 none .none s := by
  refine (gate_of_open he fun _ => hr).trans ?_
  rw [hp]

theorem execRxTmo_inside_frame (he : s.err = false) (hr : s.ready = true) (hi : s.ph ≠ .idle) (hd : s.ph ≠ .done) :
    execRxTmo 0 s = respond 0 (some Config.nak) .rxTrunc { s with ph := .idle, idx := 0 } := by
  refine (gate_of_open he fun _ => hr).trans ?_
  cases hp : s.ph with
  | idle => exact absurd hp hi
  | done => exact absurd hp hd
  | num | cmp | pay | ver1 | ver2 => rfl

theorem errsWith_rxTmo_of_done (he : s.err = false) (hr : s.ready = true) (hp : s.ph = .done) :
    ErrsWith (.rxTmo 0) s .rxDone :=
  gate_errs_body he rfl hr (by rw [hp])

/-- Settles O36: the checks of R131 in their order, and then the phase is at a boundary, inside a frame, or `DONE`. -/
theorem rxTimeout : Obligations.RxTimeout := by
  refine ⟨rfl, fun s a he => gate_of_err he, fun s a he ha => gate_errs_reserved he (bne_iff_ne.mpr ha),
    fun s he hr => gate_errs_notReady he rfl hr, ?_⟩
  rintro s ⟨he, hr⟩
  exact ⟨execRxTmo_of_idle he hr, execRxTmo_inside_frame he hr, errsWith_rxTmo_of_done he hr⟩

/-! ### The accepted payload (R144) -/

theorem reservedBit7_eq_decide (a : Byte) : reservedBit7 a = decide (128 ≤ a.toNat) :=
  BitVec.msb_eq_decide a

theorem reservedBit7_of_lt {a : Byte} (ha : a.toNat < 128) : reservedBit7 a = false := by
  rw [reservedBit7_eq_decide, decide_eq_false (Nat.not_le_of_lt ha)]

/-- `RB_RD` of an index of the payload, once one is accepted. -/
theorem exec_rbRd {a : Byte} (he : s.err = false) (hr : s.ready = true) (ha : a.toNat < 128) (hv : s.rvalid = true) :
    exec (.rbRd a) s = .next { s with resp := [dataResp ((s.rbuf.read a.toNat).setWidth 16)] } := by
  have hres := reservedBit7_of_lt ha
  rw [← payloadIndex_eq_toNat hres]
  exact execRbRd_eq_next.mpr (.inr (.inr (.inr (.inr ⟨he, hres, hr, hv, rfl⟩))))

/-- Settles O37: the checks of R144 in their order, and then the byte. -/
theorem payloadRead : Obligations.PayloadRead := by
  refine ⟨fun a => congrArg Encoded.command (append_byte_eq_ofNat 8 a), fun s a => ?_⟩
  refine ⟨gate_of_err, fun he ha => gate_errs_reserved he ?_, fun he ha hr => gate_errs_notReady he (reservedBit7_of_lt ha) hr,
    fun ⟨he, hr⟩ ha hv => gate_errs_body he (reservedBit7_of_lt ha) hr (if_neg (by simp [hv])), fun ⟨he, hr⟩ ha hv => ?_⟩
  · rw [reservedBit7_eq_decide, decide_eq_true ha]
  · rw [BitVec.ofNat_toNat]
    exact exec_rbRd he hr ha hv

/-! ### Phase `DONE` (R131) -/

/-- What the common checks answer leaves the phase alone. -/
theorem ph_eq_of_gate {r n : Bool} {body : Result} {q : Phase} (hs : s.ph = q) (hg : gate r n s body = .next t)
    (hbody : body = .next t → t.ph = q) : t.ph = q := by
  rcases gate_eq_next.mp hg with ⟨_, rfl⟩ | ⟨_, _, rfl⟩ | ⟨_, _, _, _, rfl⟩ | ⟨_, _, _, hb⟩
  · exact hs
  · exact hs
  · exact hs
  · exact hbody hb

theorem ph_eq_of_respond {d : Half} {x : Option Byte} {e : Event} {q : Phase} (hu : u.ph = q) (hb : respond d x e u = .next t) :
    t.ph = q :=
  respond_eq_next.mp hb ▸ hu

theorem ph_eq_of_cmdError {c : ErrCode} {q : Phase} (hs : s.ph = q) (hb : cmdError c s = .next t) : t.ph = q :=
  cmdError_eq_next.mp hb ▸ hs

theorem takeRxByte_done {b : Byte} (hs : s.ph = .done) (h : takeRxByte b s = .next t) : t.ph = .done := by
  refine ph_eq_of_gate hs h fun hb => ?_
  rw [hs] at hb
  exact ph_eq_of_cmdError hs hb

theorem feedRx_done {bs : List Byte} (hs : s.ph = .done) (h : feedRx bs s = .next t) : t.ph = .done :=
  feedRx_induction (P := fun u => u.ph = .done) (fun _ _ => id) (fun _ _ _ hu hb => takeRxByte_done hu hb) hs h

theorem execRxTmo_done {a : Byte} (hs : s.ph = .done) (h : execRxTmo a s = .next t) : t.ph = .done := by
  refine ph_eq_of_gate hs h fun hb => ?_
  rw [hs] at hb
  exact ph_eq_of_cmdError hs hb

theorem execRbRd_ph {a : Byte} (h : execRbRd a s = .next t) : t.ph = s.ph := by
  refine ph_eq_of_gate rfl h fun hb => ?_
  split at hb
  · exact ph_eq_of_respond rfl hb
  · exact ph_eq_of_cmdError rfl hb

theorem execPkPut_ph {b : Byte} (h : execPkPut b s = .next t) : t.ph = s.ph := by
  cases execPkPut_outcome h <;> rfl

theorem execPkBuild_ph {a : Byte} (h : execPkBuild a s = .next t) : t.ph = s.ph := by
  refine ph_eq_of_gate rfl h fun hb => ?_
  split at hb
  · exact ph_eq_of_cmdError rfl hb
  · split at hb
    · exact ph_eq_of_cmdError rfl hb
    · exact ph_eq_of_respond buildFrame_ph hb

theorem execTxNext_ph {a : Byte} (h : execTxNext a s = .next t) : t.ph = s.ph := by
  cases execTxNext_outcome h <;> rfl

theorem takeResponse_ph {b : Byte} (h : takeResponse b s = .next t) : t.ph = s.ph := by
  cases takeResponse_outcome h <;> rfl

theorem execTxTmo_ph {a : Byte} (h : execTxTmo a s = .next t) : t.ph = s.ph := by
  refine ph_eq_of_gate rfl h fun hb => ?_
  split at hb
  · exact ph_eq_of_cmdError rfl hb
  · exact ph_eq_of_respond (u := { s with txp := 0 }) rfl hb

theorem takeByte_done {side : Side} {b : Byte} (hs : s.ph = .done) (h : takeByte side b s = .next t) : t.ph = .done := by
  cases side with
  | rx => exact takeRxByte_done hs h
  | tx => exact (takeResponse_ph h).trans hs

theorem exec_done {i : Instr} (hs : s.ph = .done) (hi : isInit i = false) (h : exec i s = .next t) : t.ph = .done := by
  cases i with
  | init a => exact nomatch hi
  | rd r => rcases execRd_eq_next.mp h with ⟨_, rfl⟩ | ⟨_, rfl⟩ <;> exact hs
  | sumClr | sumUpd | crcClr | crcUpd => exact ph_eq_of_gate hs h (ph_eq_of_respond hs)
  | rxByte b => exact takeRxByte_done hs h
  | rxTmo a => exact execRxTmo_done hs h
  | rbRd a => exact (execRbRd_ph h).trans hs
  | pkPut b => exact (execPkPut_ph h).trans hs
  | pkBuild a => exact (execPkBuild_ph h).trans hs
  | txNext a => exact (execTxNext_ph h).trans hs
  | txRsp b => exact (takeResponse_ph h).trans hs
  | txTmo a => exact (execTxTmo_ph h).trans hs
  | reservedOpE | reservedOpF => exact ph_eq_of_gate hs h (ph_eq_of_cmdError hs)
  | frameChecksum | frameCrc => exact feedRx_done hs h
  | soh | eot | ack | nak | can | crq => exact takeByte_done hs h

/-- Settles O38: receive input in phase `DONE` is the error `E_RX_DONE`, and only the unpacker and `INIT` write the phase. -/
theorem doneIsLeftOnlyByInit : Obligations.DoneIsLeftOnlyByInit := by
  refine ⟨fun _ _ _ => exec_done, fun s b hover hr => ?_⟩
  obtain ⟨hp, he⟩ : s.ph = .done ∧ s.err = false := hover
  exact ⟨gate_errs_body he rfl hr (by rw [hp]), errsWith_rxTmo_of_done he hr hp⟩

end Sys2Proof
end

section
/-!
PROOFS. The round trip of a frame (43_unpacker.md R147). The packer leaves the frame of the padded chunk in `FBUF` and hands it out; the
unpacker takes that frame as its bytes, and the verification field agrees with the payload by construction.
-/

namespace Sys2Proof

open Machine Claims

variable {s r t : State} {n : Byte} {p : List Byte}

/-! ### The bytes that the packer hands out -/

/-- The payload of the frame that `PK_BUILD` leaves: the chunk and its padding. -/
def builtPayload (s : State) : List Byte :=
  (framed s).readSeq payloadOff Config.blk

theorem builtPayload_length (s : State) : (builtPayload s).length = 128 :=
  Memory.readSeq_length _ _ _

theorem builtPayload_getElem {k : Nat} (hp : s.plen.toNat ≤ 128) (hw : s.fbuf.wf = true) (hk : k < (builtPayload s).length) :
    (builtPayload s)[k] = if k < s.plen.toNat then s.fbuf.read (3 + k) else Config.fill := by
  have hk' : k < 128 := builtPayload_length s ▸ hk
  simp only [builtPayload, Memory.readSeq_eq_map, List.getElem_map, List.getElem_range, framed_read hp hw, payloadOff]
  by_cases hlt : k < s.plen.toNat
  · rw [if_pos hlt, if_neg (by omega), if_neg (by omega), if_neg (by omega), if_neg (by omega)]
  · rw [if_neg hlt, if_neg (by omega), if_neg (by omega), if_neg (by omega), if_pos (by omega)]

theorem readSeq_add (m : Memory) (a k l : Nat) : m.readSeq a (k + l) = m.readSeq a k ++ m.readSeq (a + k) l := by
  simp [Memory.readSeq_eq_map, List.range_add, Nat.add_assoc]

/-- `FBUF` holds the frame of the padded chunk in wire order (20_memory.md R41, 44_packer.md R162 and R163). -/
theorem buildFrame_readSeq (hp : s.plen.toNat ≤ 128) (hw : s.fbuf.wf = true) :
    (buildFrame s).fbuf.readSeq 0 (frameLen s.mode) = frameBytes s.mode s.seq (builtPayload s) := by
  have hfront : (buildFrame s).fbuf.readSeq 0 131 = [Config.soh, s.seq, cpl s.seq] ++ builtPayload s :=
    calc (buildFrame s).fbuf.readSeq 0 131 = (framed s).readSeq 0 131 :=
          Memory.readSeq_congr fun k hk => buildFrame_read_front hw (by omega)
      _ = (framed s).readSeq 0 3 ++ builtPayload s := readSeq_add (framed s) 0 3 128
      _ = [Config.soh, s.seq, cpl s.seq] ++ builtPayload s := by simp [Memory.readSeq, framed_read hp hw]
  have hver : (buildFrame s).fbuf.readSeq 131 (verField s.mode (builtPayload s)).length = verField s.mode (builtPayload s) := by
    rw [buildFrame_fbuf]
    exact Memory.readSeq_writeSeq 131 _ (framed_wf hw)
  rw [← verField_length s.mode (builtPayload s), readSeq_add, hfront, hver]
  simp [frameBytes]

theorem buildFrame_flen_toNat (s : State) : (buildFrame s).flen.toNat = frameLen s.mode := by
  rw [buildFrame_flen]
  cases s.mode <;> rfl

/-- `PK_BUILD` and `FLEN` steps of `TX_NEXT` hand out the built frame byte by byte. -/
theorem execAll_build_and_next (he : s.err = false) (hr : s.ready = true) (hf : s.fvalid = false) (hne : s.plen ≠ 0)
    (hp : s.plen.toNat ≤ 128) (hw : s.fbuf.wf = true) : ∃ x rs t,
      execAll (.pkBuild 0 :: List.replicate (frameLen s.mode) (.txNext 0)) s = some (x :: rs, t) ∧
      (rs.map fun y => y.data.setWidth 8) = frameBytes s.mode s.seq (builtPayload s) := by
  obtain ⟨k, hk, hle⟩ : ∃ k, frameLen s.mode = k + 1 ∧ k + 1 ≤ 133 := by cases s.mode <;> exact ⟨_, rfl, by decide⟩
  have hflen : (buildFrame s).flen.toNat = k + 1 := (buildFrame_flen_toNat s).trans hk
  have hbuild : exec (.pkBuild 0) s = .next ((buildFrame s).answered ((buildFrame s).flen.setWidth 16) none .none) :=
    execPkBuild_eq_next.mpr (.inr (.inr (.inr (.inr (.inr ⟨he, rfl, hr, hf, hne, rfl⟩)))))
  obtain ⟨rs, u, hnext, hdata⟩ := execAll_txNext (n := k)
    (s := (buildFrame s).answered ((buildFrame s).flen.setWidth 16) none .none) (buildFrame_err.trans he) (buildFrame_ready.trans hr)
    rfl ((Nat.zero_add _).trans hflen.symm) (hflen.trans_le hle)
  refine ⟨_, rs, _, execAll_cons_of hbuild (hk ▸ hnext), ?_⟩
  calc (rs.map fun y => y.data.setWidth 8) = (rs.map fun y => y.data).map fun d => d.setWidth 8 := by simp
    _ = (buildFrame s).fbuf.readSeq 0 (k + 1) := by simp [hdata, Function.comp_def]
    _ = frameBytes s.mode s.seq (builtPayload s) := by rw [← hk, buildFrame_readSeq hp hw]

/-! ### The unpacker takes the frame -/

/-- `t` has taken the header and the payload of a frame since `r`, and its block counter is as it was. -/
structure FrameTaken (r : State) (n : Byte) (p : List Byte) (t : State) : Prop where
  rbn : t.rbn = n
  rcp : t.rcp = 255 - n
  seq : t.seq = r.seq
  last : t.last = r.last
  lastv : t.lastv = r.lastv
  stored : ∀ k (h : k < p.length), t.rbuf.read k = p[k]

/-- A frame whose verification field is that of its payload gets the accepting verdict, in either mode. -/
theorem feedRx_frameBytes (hopen : Open r) (hp : r.ph = .idle) (hi : r.idx = 0) (hw : r.rbuf.wf = true) (hl : p.length = 128)
    (n : Byte) : ∃ t k, FrameTaken r n p t ∧ feedRx (frameBytes r.mode n p) r =
      .next { acceptedState t with resp := List.replicate k okResp ++ (acceptedState t).resp } := by
  cases hm : r.mode with
  | checksum =>
    obtain ⟨m, hin, _, hx⟩ := checksumFrameIsJudged r n (checksum p) p hopen hp hm hi hl hw
    simp only [if_true] at hx
    refine ⟨_, 131, ?_, hx⟩
    exact ⟨rfl, rfl, rfl, rfl, rfl, hin⟩
  | crc =>
    obtain ⟨m, hin, _, hx⟩ := crcFrameIsJudged r n (hiByte (crc16 p)) (loByte (crc16 p)) p hopen hp hm hi hl hw
    simp only [hiByte_append_loByte, if_true] at hx
    refine ⟨_, 132, ?_, hx⟩
    exact ⟨rfl, rfl, rfl, rfl, rfl, hin⟩

/-- A frame that repeats no accepted block number is accepted (42_sequencing.md R121, 43_unpacker.md R141). -/
theorem acceptedState_of_new (h : Config.dupSuppress = false ∨ s.lastv = false ∨ s.last ≠ s.rbn) : acceptedState s = { s with
    rvalid := true, seq := s.seq + 1, last := s.rbn, lastv := true, ph := .idle, levt := .rxAccept,
    resp := [txResp 0x06 .rxAccept] } := by
  refine if_neg fun ⟨hd, hv, hn⟩ => ?_
  rcases h with h | h | h
  · exact nomatch hd.symm.trans h
  · exact nomatch hv.symm.trans h
  · exact h hn.symm

/-- A frame that repeats no accepted block number, as a run of `RX_BYTE`: every byte but the last is answered plainly, and the last brings
the block. -/
theorem execAll_frameBytes_accepted (hopen : Open r) (hp : r.ph = .idle) (hi : r.idx = 0) (hw : r.rbuf.wf = true)
    (hl : p.length = 128) (hnew : Config.dupSuppress = false ∨ r.lastv = false ∨ r.last ≠ n) : ∃ k u,
      execAll ((frameBytes r.mode n p).map .rxByte) r = some (List.replicate k okResp ++ [txResp 0x06 .rxAccept], u) ∧
      u.rbn = n ∧ u.rcp = 255 - n ∧ u.rvalid = true ∧ u.seq = r.seq + 1 ∧ ∀ k (h : k < p.length), u.rbuf.read k = p[k] := by
  obtain ⟨t, k, ht, hfeed⟩ := feedRx_frameBytes hopen hp hi hw hl n
  rw [acceptedState_of_new (by rwa [ht.rbn, ht.last, ht.lastv])] at hfeed
  obtain ⟨u, hrun, hu⟩ := feedRx_eq_next_iff_execAll.mp hfeed
  have hbuf : t.rbuf = u.rbuf := (congrArg State.rbuf hu :)
  exact ⟨k, u, hrun, (congrArg State.rbn hu).symm.trans ht.rbn, (congrArg State.rcp hu).symm.trans ht.rcp,
    (congrArg State.rvalid hu).symm, (congrArg State.seq hu).symm.trans (congrArg (· + 1) ht.seq), hbuf ▸ ht.stored⟩

/-- Settles O51: the bytes handed out are the frame of the padded chunk, and that frame is accepted. -/
theorem packedFrameIsUnpacked : Obligations.PackedFrameIsUnpacked := by
  rintro s r ⟨hes, hrs⟩ hf hne hplen hws hopen hmode hph hidx hwr hnew
  have hl := builtPayload_length s
  obtain ⟨x, rs, t, hsend, hbytes⟩ := execAll_build_and_next hes hrs hf hne hplen hws
  obtain ⟨k, u, hrun, hrbn, hrcp, hrvalid, hseq, hstored⟩ := execAll_frameBytes_accepted hopen hph hidx hwr hl hnew
  rw [hmode, ← hbytes, List.map_map] at hrun
  have hread : ∀ i, i < 128 → u.rbuf.read i = if i < s.plen.toNat then s.fbuf.read (3 + i) else 0x1A := fun i hi =>
    (hstored i (hl ▸ hi)).trans (builtPayload_getElem hplen hws _)
  refine ⟨x :: rs, t, _, u, hsend, hrun, ?_, List.getLast?_concat, hrbn, hrcp, hrvalid, hseq, fun i hi => ?_, fun i hi hlt => ?_⟩
  · intro y hy
    rw [List.dropLast_concat] at hy
    rw [List.eq_of_mem_replicate hy]
    rfl
  · rw [hread i (by omega), if_pos hi]
  · rw [hread i hlt, if_neg (by omega)]

end Sys2Proof
end

section
/-!
PROOFS. The packer (44_packer.md R161 to R171): one operation at a time, one pass over a built frame, that an outstanding frame is kept by
every instruction, and that the packer leaves the receive side alone.
-/

namespace Sys2Proof

open Machine Claims

variable {s t u : State}

/-! ### The chunk (R161) -/

/-- `PK_PUT` while the chunk has room. -/
theorem exec_pkPut (b : Byte) (he : s.err = false) (hr : s.ready = true) (hf : s.fvalid = false) (hl : s.plen.toNat < 128) :
    exec (.pkPut b) s = .next { s with
      fbuf := s.fbuf.write (3 + s.plen.toNat) b, plen := s.plen + 1, resp := [okResp] } := by
  have hfree : ¬s.fvalid = true := by simp [hf]
  have hfull : s.plen ≠ 128 := fun h => by simp [h] at hl
  have hlt : payloadOff + s.plen.toNat < fbufSize := by
    simp only [payloadOff, fbufSize]
    omega
  exact (gate_of_open he fun _ => hr).trans ((if_neg hfree).trans ((if_neg hfull).trans (storeFbuf_of_lt hlt)))

/-- Settles O39: the checks of R161 in their order, and then the byte is stored behind the chunk. -/
theorem chunkByteIsLoaded : Obligations.ChunkByteIsLoaded := by
  refine ⟨fun b => congrArg Encoded.command (append_byte_eq_ofNat 9 b), fun s b => ?_⟩
  refine ⟨gate_of_err, fun he hr => gate_errs_notReady he rfl hr, fun ⟨he, hr⟩ hf => gate_errs_body he rfl hr (if_pos hf),
    fun ⟨he, hr⟩ hf hl => gate_errs_body he rfl hr ((if_neg (by simp [hf])).trans (if_pos hl)), fun ⟨he, hr⟩ hf hl hw => ?_⟩
  exact ⟨_, Memory.read_write_same _ b hw, fun a ha => Memory.read_write_other b hw ha, exec_pkPut b he hr hf hl⟩

/-! ### The built frame (R162, R163, R170) -/

/-- The payload of the built frame is the chunk and then the filler. -/
theorem buildFrame_read_payload (hp : s.plen.toNat ≤ 128) (hw : s.fbuf.wf = true) {k : Nat} (hk : k < 128) :
    (buildFrame s).fbuf.read (3 + k) = if k < s.plen.toNat then s.fbuf.read (3 + k) else Config.fill := by
  rw [buildFrame_read_front hw (by omega), ← builtPayload_getElem hp hw ((builtPayload_length s).symm ▸ hk)]
  simp [builtPayload, Memory.readSeq_eq_map, payloadOff]

/-- Behind the payload stands the verification field, and the rest of the buffer is as before. -/
theorem buildFrame_read_back (hp : s.plen.toNat ≤ 128) (hw : s.fbuf.wf = true) {a : Nat} (ha : 131 ≤ a) :
    (buildFrame s).fbuf.read a =
      if a < frameLen s.mode then (verField s.mode (builtPayload s)).getD (a - 131) Memory.unlisted else s.fbuf.read a := by
  have hrest : (framed s).read a = s.fbuf.read a := by
    rw [framed_read hp hw, if_neg (by omega), if_neg (by omega), if_neg (by omega), if_neg (by simp only [payloadOff]; omega)]
  rw [buildFrame_fbuf, Memory.read_writeSeq _ _ _ (framed_wf hw), verField_length, hrest]
  simp [ha, builtPayload]

/-- The state after `PK_BUILD` is taken. -/
def afterBuild (s : State) : State :=
  (buildFrame s).answered ((buildFrame s).flen.setWidth 16) none .none

/-- The payload in the buffer is the one that the verification field was computed over. -/
theorem framePayload_afterBuild (hw : s.fbuf.wf = true) : framePayload (afterBuild s) = builtPayload s :=
  calc framePayload (afterBuild s) = (buildFrame s).fbuf.readSeq 3 128 := (Memory.readSeq_eq_map _ 3 128).symm
    _ = builtPayload s := Memory.readSeq_congr fun k hk => buildFrame_read_front hw (by omega)

theorem exec_pkBuild (he : s.err = false) (hr : s.ready = true) (hf : s.fvalid = false) (hne : s.plen ≠ 0) :
    exec (.pkBuild 0) s = .next (afterBuild s) :=
  execPkBuild_eq_next.mpr (.inr (.inr (.inr (.inr (.inr ⟨he, rfl, hr, hf, hne, rfl⟩)))))

theorem afterBuild_checksum (hm : s.mode = .checksum) : afterBuild s = { s with
    fbuf := (buildFrame s).fbuf, sum := checksum (builtPayload s), flen := 132, txp := 0, fvalid := true,
    resp := [dataResp 132] } :=
  congrArg (fun u : State => u.answered (u.flen.setWidth 16) none .none) (buildFrame_checksum hm)

theorem afterBuild_crc (hm : s.mode = .crc) : afterBuild s = { s with
    fbuf := (buildFrame s).fbuf, crc := crc16 (builtPayload s), flen := 133, txp := 0, fvalid := true,
    resp := [dataResp 133] } :=
  congrArg (fun u : State => u.answered (u.flen.setWidth 16) none .none) (buildFrame_crc hm)

/-- Settles O40: the checks of R163 in their order, and then the frame, read from its front and from its back. -/
theorem frameIsBuilt : Obligations.FrameIsBuilt := by
  refine ⟨rfl, fun s a he => gate_of_err he, fun s a he ha => gate_errs_reserved he (bne_iff_ne.mpr ha),
    fun s he hr => gate_errs_notReady he rfl hr, fun s ⟨he, hr⟩ hf => gate_errs_body he rfl hr (if_pos hf),
    fun s ⟨he, hr⟩ hf hl => gate_errs_body he rfl hr ((if_neg (by simp [hf])).trans (if_pos hl)), ?_⟩
  rintro s ⟨he, hr⟩ hf hne hp hw
  have hhead : ∀ {a}, a < 3 → (afterBuild s).fbuf.read a = _ := fun ha =>
    (buildFrame_read_front hw (by omega)).trans (framed_read hp hw _)
  have hpay : ∀ {k}, k < 128 → (afterBuild s).fbuf.read (3 + k) = _ := buildFrame_read_payload hp hw
  have hback : ∀ {a}, 131 ≤ a → (afterBuild s).fbuf.read a = _ := buildFrame_read_back hp hw
  refine ⟨afterBuild s, exec_pkBuild he hr hf hne, hhead (by decide), hhead (by decide), hhead (by decide),
    fun k hk => (hpay (by omega)).trans (if_pos hk), fun k hk hlt => (hpay hlt).trans (if_neg (by omega)), fun a ha => ?_, ?_⟩
  · have hbehind : frameLen s.mode ≤ a := (frameLen_le_fbufSize s.mode).trans ha
    exact (hback (by omega)).trans (if_neg (by omega))
  · rw [framePayload_afterBuild hw]
    refine ⟨fun hm => ⟨?_, ?_, afterBuild_checksum hm⟩, fun hm => ⟨?_, ?_, afterBuild_crc hm⟩⟩
    all_goals simp [hback, hm, frameLen, Config.flenSum, Config.flenCrc, verField, hiByte, loByte]

/-! ### The frame handed out (R164, R171) -/

/-- The byte handed out is the last one of the frame. -/
theorem txp_add_one_eq_flen_iff (hl : s.txp.toNat < s.flen.toNat) : s.txp + 1 = s.flen ↔ s.txp.toNat = s.flen.toNat - 1 := by
  bv_omega

/-- Settles O41: the checks of R164 in their order, and then the byte at `TXP`, which is the last one or not. -/
theorem nextFrameByte : Obligations.NextFrameByte := by
  refine ⟨rfl, fun s a he => gate_of_err he, fun s a he ha => gate_errs_reserved he (bne_iff_ne.mpr ha),
    fun s he hr => gate_errs_notReady he rfl hr, fun s ⟨he, hr⟩ hnone => gate_errs_body he rfl hr (if_pos ?_), ?_⟩
  · simpa [BitVec.le_def] using hnone
  · rintro s ⟨he, hr⟩ hf hl hb
    refine (execTxNext_out he hr hf hl hb).trans ?_
    simp only [txp_add_one_eq_flen_iff hl, BitVec.ofNat_toNat]
    split <;> rfl

/-- Settles O44: `FLEN` is not 0, so the pass has a last byte. -/
theorem onePassHandsOutTheFrame : Obligations.OnePassHandsOutTheFrame := by
  rintro s ⟨he, hr⟩ hf hstart hpos hb
  obtain ⟨n, hn⟩ := Nat.exists_eq_add_one_of_ne_zero hpos.ne'
  have htxp : s.txp.toNat = 0 := congrArg BitVec.toNat hstart
  obtain ⟨rs, u, hrun, hdata⟩ := execAll_txNext (n := n) he hr hf (by omega) hb
  refine ⟨rs, u, hn ▸ hrun, ?_⟩
  rw [hdata, htxp, Memory.readSeq_eq_map, hn]
  simp

/-! ### The answer to a frame (R165 to R169) -/

/-- Settles O42: the checks of R165 in their order, and then the byte is `ACK`, `NAK` or another one. -/
theorem responseByteTaken : Obligations.ResponseByteTaken := by
  refine ⟨fun b => congrArg Encoded.command (append_byte_eq_ofNat 12 b), fun s b => ?_⟩
  exact ⟨gate_of_err, fun he hr => gate_errs_notReady he rfl hr,
    fun ⟨he, hr⟩ hw => gate_errs_body he rfl hr (if_pos (notAwaiting_eq_true.mpr hw)),
    fun ⟨he, hr⟩ hf hl => takeResponse_of_awaiting b he hr hf hl⟩

/-- Settles O43: the checks of R165 in their order, and then the frame is rewound. -/
theorem responseTimeout : Obligations.ResponseTimeout := by
  refine ⟨rfl, fun s a he => gate_of_err he, fun s a he ha => gate_errs_reserved he (bne_iff_ne.mpr ha),
    fun s he hr => gate_errs_notReady he rfl hr,
    fun s ⟨he, hr⟩ hw => gate_errs_body he rfl hr (if_pos (notAwaiting_eq_true.mpr hw)), ?_⟩
  rintro s ⟨he, hr⟩ hf hl
  exact execTxTmo_eq_next.mpr (.inr (.inr (.inr (.inr ⟨he, rfl, hr, notAwaiting_eq_false.mpr ⟨hf, hl⟩, rfl⟩))))

/-! ### The outstanding frame (R171, 42_sequencing.md R124) -/

/-- From `s` to `t` the buffer, the frame in it and the chunk are as they were. -/
structure FrameKept (s t : State) : Prop where
  fbuf : t.fbuf = s.fbuf
  flen : t.flen = s.flen
  fvalid : t.fvalid = s.fvalid
  plen : t.plen = s.plen

/-- And so is the block counter. -/
structure LockStep (s t : State) : Prop extends FrameKept s t where
  seq : t.seq = s.seq

theorem FrameKept.trans (h : FrameKept s t) (h' : FrameKept t u) : FrameKept s u where
  fbuf := h'.fbuf.trans h.fbuf
  flen := h'.flen.trans h.flen
  fvalid := h'.fvalid.trans h.fvalid
  plen := h'.plen.trans h.plen

theorem lockStep_of_respond {d : Half} {x : Option Byte} {e : Event} (hb : respond d x e u = .next t) (hu : LockStep s u) :
    LockStep s t := by
  obtain ⟨⟨hfbuf, hflen, hfvalid, hplen⟩, hseq⟩ := hu
  exact respond_eq_next.mp hb ▸ ⟨⟨hfbuf, hflen, hfvalid, hplen⟩, hseq⟩

theorem lockStep_errored (s : State) (c : ErrCode) : LockStep s (s.errored c) :=
  ⟨⟨rfl, rfl, rfl, rfl⟩, rfl⟩

theorem lockStep_of_cmdError {c : ErrCode} (hb : cmdError c s = .next t) : LockStep s t :=
  cmdError_eq_next.mp hb ▸ lockStep_errored s c

theorem lockStep_of_gate {r n : Bool} {body : Result} (hg : gate r n s body = .next t)
    (hbody : body = .next t → LockStep s t) : LockStep s t := by
  rcases gate_eq_next.mp hg with ⟨_, rfl⟩ | ⟨_, _, rfl⟩ | ⟨_, _, _, _, rfl⟩ | ⟨_, _, _, hb⟩
  · exact ⟨⟨rfl, rfl, rfl, rfl⟩, rfl⟩
  · exact lockStep_errored s _
  · exact lockStep_errored s _
  · exact hbody hb

theorem Verdict.frameKept {p : Prop} (hj : Verdict p u t) (hu : FrameKept s u) : FrameKept s t := by
  obtain ⟨hfbuf, hflen, hfvalid, hplen⟩ := hu
  cases hj <;> exact ⟨hfbuf, hflen, hfvalid, hplen⟩

theorem takeRxByte_frameKept {b : Byte} (h : takeRxByte b s = .next t) : FrameKept s t := by
  cases takeRxByte_outcome h with
  | frozen | notReady | overrun | start | finish | ignored | number | header | badHeader | lastPayload | payload | high =>
    exact ⟨rfl, rfl, rfl, rfl⟩
  | judgedSum _ _ _ _ hj | judgedCrc _ _ _ hj => exact Verdict.frameKept hj ⟨rfl, rfl, rfl, rfl⟩

theorem feedRx_frameKept {bs : List Byte} (h : feedRx bs s = .next t) : FrameKept s t :=
  feedRx_rel (fun _ _ => ⟨rfl, rfl, rfl, rfl⟩) (fun _ _ _ => FrameKept.trans) (fun _ _ _ => takeRxByte_frameKept) h

theorem execRxTmo_frameKept {a : Byte} (h : execRxTmo a s = .next t) : FrameKept s t := by
  cases execRxTmo_outcome h <;> exact ⟨rfl, rfl, rfl, rfl⟩

/-- The unpacker does not write the send side. -/
theorem exec_frameKept_of_receives {i : Instr} (hi : receives i = true) (h : exec i s = .next t) : FrameKept s t := by
  cases i with
  | rxByte b => exact takeRxByte_frameKept h
  | rxTmo a => exact execRxTmo_frameKept h
  | frameChecksum | frameCrc => exact feedRx_frameKept h
  | soh side | eot side | ack side | nak side | can side | crq side =>
    obtain rfl : side = .rx := eq_of_beq hi
    exact takeRxByte_frameKept h
  | _ => exact nomatch hi

/-- While a frame is outstanding no byte is loaded. -/
theorem execPkPut_lockStep {b : Byte} (hf : s.fvalid = true) (h : execPkPut b s = .next t) : LockStep s t := by
  cases execPkPut_outcome h with
  | frozen | notReady | busy => exact ⟨⟨rfl, rfl, rfl, rfl⟩, rfl⟩
  | full _ _ hfree | put _ _ hfree => exact nomatch hf.symm.trans hfree

/-- While a frame is outstanding no other one is built. -/
theorem execPkBuild_lockStep {a : Byte} (hf : s.fvalid = true) (h : execPkBuild a s = .next t) : LockStep s t :=
  lockStep_of_gate h fun hb => lockStep_of_cmdError ((if_pos hf).symm.trans hb)

theorem execTxNext_lockStep {a : Byte} (h : execTxNext a s = .next t) : LockStep s t := by
  cases execTxNext_outcome h <;> exact ⟨⟨rfl, rfl, rfl, rfl⟩, rfl⟩

theorem takeResponse_lockStep {b : Byte} (hb : b ≠ Config.ack) (h : takeResponse b s = .next t) : LockStep s t := by
  cases takeResponse_outcome h with
  | frozen | notReady | unexpected | nak | other => exact ⟨⟨rfl, rfl, rfl, rfl⟩, rfl⟩
  | ack _ _ _ _ hack => exact absurd hack hb

/-- Even the `ACK` that ends the block leaves the buffer as it was. -/
theorem takeResponse_fbuf {b : Byte} (h : takeResponse b s = .next t) : t.fbuf = s.fbuf := by
  cases takeResponse_outcome h <;> rfl

theorem execTxTmo_lockStep {a : Byte} (h : execTxTmo a s = .next t) : LockStep s t := by
  refine lockStep_of_gate h fun hb => ?_
  split at hb
  · exact lockStep_of_cmdError hb
  · exact lockStep_of_respond (u := { s with txp := 0 }) hb ⟨⟨rfl, rfl, rfl, rfl⟩, rfl⟩

theorem execRbRd_lockStep {a : Byte} (h : execRbRd a s = .next t) : LockStep s t := by
  refine lockStep_of_gate h fun hb => ?_
  split at hb
  · exact lockStep_of_respond hb ⟨⟨rfl, rfl, rfl, rfl⟩, rfl⟩
  · exact lockStep_of_cmdError hb

/-- `INIT` starts a session with the buffer as it was. -/
theorem execInit_fbuf {a : Byte} (h : execInit a s = .next t) : t.fbuf = s.fbuf := by
  rcases execInit_eq_next.mp h with ⟨_, rfl⟩ | ⟨_, _, rfl⟩ | ⟨_, _, rfl⟩ <;> rfl

theorem exec_lockStep {i : Instr} (hf : s.fvalid = true) (hi : isInit i = false) (hrx : receives i = false)
    (hrsp : i ≠ .txRsp Config.ack) (hack : i ≠ .ack .tx) (h : exec i s = .next t) : LockStep s t := by
  cases i with
  | init => exact nomatch hi
  | rxByte | rxTmo | frameChecksum | frameCrc => exact nomatch hrx
  | rd r => rcases execRd_eq_next.mp h with ⟨_, rfl⟩ | ⟨_, rfl⟩ <;> exact ⟨⟨rfl, rfl, rfl, rfl⟩, rfl⟩
  | sumClr | sumUpd | crcClr | crcUpd =>
    exact lockStep_of_gate h fun hb => lockStep_of_respond hb ⟨⟨rfl, rfl, rfl, rfl⟩, rfl⟩
  | rbRd a => exact execRbRd_lockStep h
  | pkPut b => exact execPkPut_lockStep hf h
  | pkBuild a => exact execPkBuild_lockStep hf h
  | txNext a => exact execTxNext_lockStep h
  | txRsp b => exact takeResponse_lockStep (fun hb => hrsp (congrArg _ hb)) h
  | txTmo a => exact execTxTmo_lockStep h
  | reservedOpE | reservedOpF => exact lockStep_of_gate h lockStep_of_cmdError
  | ack side =>
    cases side with
    | rx => exact nomatch hrx
    | tx => exact absurd rfl hack
  | soh side | eot side | nak side | can side | crq side =>
    cases side with
    | rx => exact nomatch hrx
    | tx => exact takeResponse_lockStep (by decide) h

/-- While a frame is outstanding no instruction changes the buffer. -/
theorem exec_fbuf {i : Instr} (hf : s.fvalid = true) (h : exec i s = .next t) : t.fbuf = s.fbuf := by
  by_cases hrx : receives i = true
  · exact (exec_frameKept_of_receives hrx h).fbuf
  by_cases hrsp : i = .txRsp Config.ack
  · subst hrsp
    exact takeResponse_fbuf h
  by_cases hack : i = .ack .tx
  · subst hack
    exact takeResponse_fbuf h
  cases hi : isInit i with
  | true =>
    cases i with
    | init a => exact execInit_fbuf h
    | _ => exact nomatch hi
  | false => exact (exec_lockStep hf hi (by simpa using hrx) hrsp hack h).fbuf

/-- Settles O45: the unpacker does not write the send side, the packer writes the buffer only while no frame is outstanding, and of the
others only `INIT` and `ACK` write the registers of the frame. -/
theorem outstandingFrameIsKept : Obligations.OutstandingFrameIsKept := by
  intro i s t hf h
  refine ⟨fun a => by rw [exec_fbuf hf h], fun hi hrsp hack => ?_⟩
  cases hrx : receives i with
  | true =>
    have hk := exec_frameKept_of_receives hrx h
    exact ⟨hk.flen, hk.fvalid.trans hf, hk.plen, nofun⟩
  | false =>
    have hk := exec_lockStep hf hi hrx hrsp hack h
    exact ⟨hk.flen, hk.fvalid.trans hf, hk.plen, fun _ => hk.seq⟩

/-! ### The receive side -/

/-- The registers and the buffer of the receive side, `READY`, `MODE` and the inputs to come, with every other field at reset. -/
def receiveSide (s : State) : State :=
  { State.reset with
    ready := s.ready, mode := s.mode, last := s.last, lastv := s.lastv, ph := s.ph, idx := s.idx, rbn := s.rbn, rcp := s.rcp,
    rver := s.rver, rbuf := s.rbuf, rvalid := s.rvalid, pending := s.pending }

theorem buildFrame_receiveSide (s : State) : receiveSide (buildFrame s) = receiveSide s := by
  simp [receiveSide]

theorem execPkPut_receiveSide {b : Byte} (h : execPkPut b s = .next t) : receiveSide t = receiveSide s := by
  cases execPkPut_outcome h <;> rfl

theorem execPkBuild_receiveSide {a : Byte} (h : execPkBuild a s = .next t) : receiveSide t = receiveSide s := by
  rcases execPkBuild_eq_next.mp h with ⟨_, rfl⟩ | ⟨_, _, rfl⟩ | ⟨_, _, _, rfl⟩ | ⟨_, _, _, _, rfl⟩ | ⟨_, _, _, _, _, rfl⟩ |
    ⟨_, _, _, _, _, rfl⟩
  iterate 5 rfl
  exact buildFrame_receiveSide s

theorem execTxNext_receiveSide {a : Byte} (h : execTxNext a s = .next t) : receiveSide t = receiveSide s := by
  cases execTxNext_outcome h <;> rfl

theorem takeResponse_receiveSide {b : Byte} (h : takeResponse b s = .next t) : receiveSide t = receiveSide s := by
  cases takeResponse_outcome h <;> rfl

theorem execTxTmo_receiveSide {a : Byte} (h : execTxTmo a s = .next t) : receiveSide t = receiveSide s := by
  rcases execTxTmo_eq_next.mp h with ⟨_, rfl⟩ | ⟨_, _, rfl⟩ | ⟨_, _, _, rfl⟩ | ⟨_, _, _, _, rfl⟩ | ⟨_, _, _, _, rfl⟩ <;> rfl

theorem exec_receiveSide_of_sends {i : Instr} (hi : sends i = true) (h : exec i s = .next t) : receiveSide t = receiveSide s := by
  cases i with
  | pkPut b => exact execPkPut_receiveSide h
  | pkBuild a => exact execPkBuild_receiveSide h
  | txNext a => exact execTxNext_receiveSide h
  | txRsp b => exact takeResponse_receiveSide h
  | txTmo a => exact execTxTmo_receiveSide h
  | soh side | eot side | ack side | nak side | can side | crq side =>
    obtain rfl : side = .tx := eq_of_beq hi
    exact takeResponse_receiveSide h
  | _ => exact nomatch hi

/-- Settles O53: each field named is a field of the receive side as a whole, which no packer step writes. -/
theorem packerLeavesTheReceiveSide : Obligations.PackerLeavesTheReceiveSide := by
  intro i s t hi h
  have hk := exec_receiveSide_of_sends hi h
  have hfield : ∀ {α : Type} (f : State → α), f (receiveSide t) = f (receiveSide s) := fun f => congrArg f hk
  have hrbuf : t.rbuf = s.rbuf := hfield State.rbuf
  exact ⟨fun a => by rw [hrbuf], hfield State.ph, hfield State.idx, hfield State.rbn, hfield State.rcp, hfield State.rver,
    hfield State.rvalid, hfield State.last, hfield State.lastv, hfield State.ready, hfield State.mode, hfield State.pending⟩

end Sys2Proof
end

section
/-!
PROOFS. `INIT` (45_system.md R185), and what the other system, checksum and CRC operations leave alone: no instruction but `INIT` writes
`READY` or `MODE`, and an operation outside the two codecs writes only `SUM`, `CRC`, `ERR`, `ECODE` and the response.
-/

namespace Sys2Proof

open Machine Claims

variable {s t u : State}

/-! ### The start of a session -/

theorem reservedAbove0_iff {a : Byte} : reservedAbove0 a = true ↔ 1 < a.toNat := by
  rw [reservedAbove0, bne_iff_ne]
  bv_omega

/-- An `INIT` that is taken answers the new session. -/
theorem exec_init {a : Byte} (he : s.err = false) (ha : reservedAbove0 a = false) :
    exec (.init a) s = .next ((s.newSession (modeOperand a)).answered 0 none .none) :=
  execInit_eq_next.mpr (.inr (.inr ⟨he, ha, rfl⟩))

/-- Settles O26: `ERR` and the operand are all that is checked, and bit 0 of the operand is the mode of the session. -/
theorem initStartsASession : Obligations.InitStartsASession := by
  refine ⟨rfl, rfl, fun s => ⟨fun a he => gate_of_err he, fun a he ha => gate_errs_reserved he (reservedAbove0_iff.mpr ha),
    fun m he => ?_⟩⟩
  cases m with
  | checksum => exact exec_init he rfl
  | crc => exact exec_init he rfl

/-! ### `READY` and `MODE` -/

/-- From `s` to `t` the session goes on: its mode is the same, and `READY` too. -/
def SameSession (s t : State) : Prop :=
  t.mode = s.mode ∧ t.ready = s.ready

theorem SameSession.trans (h : SameSession s t) (h' : SameSession t u) : SameSession s u := by
  obtain ⟨hmode, hready⟩ := h
  obtain ⟨hmode', hready'⟩ := h'
  exact ⟨hmode'.trans hmode, hready'.trans hready⟩

/-- None of the three ends of a step writes `READY` or `MODE`. -/
theorem Ended.sameSession (h : Ended s t) : SameSession s t := by
  cases h with
  | turnedAway | errored => exact ⟨rfl, rfl⟩
  | answered hu => exact ⟨hu.mode, hu.ready⟩

theorem feedRx_sameSession {bs : List Byte} (h : feedRx bs s = .next t) : SameSession s t :=
  feedRx_rel (fun _ _ => ⟨rfl, rfl⟩) (fun _ _ _ => .trans) (fun _ _ _ hb => (takeRxByte_ended hb).sameSession) h

theorem exec_sameSession {i : Instr} (hi : isInit i = false) (h : exec i s = .next t) : SameSession s t := by
  rcases exec_ended_or_frame hi h with hend | ⟨bs, hbs⟩
  · exact hend.sameSession
  · exact feedRx_sameSession hbs

/-! ### The operations outside the two codecs -/

/-- From `s` to `t` nothing changes but `SUM`, `CRC`, `ERR`, `ECODE` and the response. -/
def CodecsKept (s t : State) : Prop :=
  t = { s with sum := t.sum, crc := t.crc, err := t.err, ecode := t.ecode, resp := t.resp }

theorem codecsKept_of_cmdError {c : ErrCode} (hb : cmdError c s = .next t) : CodecsKept s t :=
  cmdError_eq_next.mp hb ▸ rfl

/-- A normal end without an event, which leaves `LEVT` alone too. -/
theorem codecsKept_of_respond {d : Half} {x : Option Byte} (hb : respond d x .none u = .next t) (hu : CodecsKept s u) :
    CodecsKept s t := by
  obtain rfl := respond_eq_next.mp hb
  exact congrArg (State.answered · d x .none) hu

theorem codecsKept_of_gate {r n : Bool} {body : Result} (hg : gate r n s body = .next t)
    (hbody : body = .next t → CodecsKept s t) : CodecsKept s t := by
  rcases gate_eq_next.mp hg with ⟨_, rfl⟩ | ⟨_, _, rfl⟩ | ⟨_, _, _, _, rfl⟩ | ⟨_, _, _, hb⟩
  · rfl
  · rfl
  · rfl
  · exact hbody hb

theorem execRd_codecsKept {r : Byte} (h : execRd r s = .next t) : CodecsKept s t := by
  rcases execRd_eq_next.mp h with ⟨_, rfl⟩ | ⟨_, rfl⟩
  · rfl
  · rfl

theorem execRbRd_codecsKept {a : Byte} (h : execRbRd a s = .next t) : CodecsKept s t := by
  refine codecsKept_of_gate h fun hb => ?_
  split at hb
  · exact codecsKept_of_respond hb rfl
  · exact codecsKept_of_cmdError hb

theorem exec_codecsKept {i : Instr} (hi : isInit i = false) (hrx : receives i = false) (htx : sends i = false)
    (h : exec i s = .next t) : CodecsKept s t := by
  cases i with
  | init => exact nomatch hi
  | rd r => exact execRd_codecsKept h
  | sumClr | sumUpd | crcClr | crcUpd => exact codecsKept_of_gate h fun hb => codecsKept_of_respond hb rfl
  | rbRd a => exact execRbRd_codecsKept h
  | reservedOpE | reservedOpF => exact codecsKept_of_gate h codecsKept_of_cmdError
  | rxByte | rxTmo | frameChecksum | frameCrc => exact nomatch hrx
  | pkPut | pkBuild | txNext | txRsp | txTmo => exact nomatch htx
  | soh side | eot side | ack side | nak side | can side | crq side =>
    cases side with
    | rx => exact nomatch hrx
    | tx => exact nomatch htx

/-- Settles O54: no end of a step writes `READY` or `MODE`, and outside the codecs every normal end is without an event and
writes `SUM` or `CRC` at most. -/
theorem modeIsFixedForTheSession : Obligations.ModeIsFixedForTheSession :=
  ⟨fun _ _ _ => exec_sameSession, fun _ _ _ => exec_codecsKept⟩

end Sys2Proof
end

section
/-!
PROOFS. The order of the checks on a command (60_exceptions.md R206), the unit while `ERR` is 1 (R205, 70_reset_and_hazards.md R256), and
what a frame error, like every other unpacker step, leaves alone (R201, R251).
-/

namespace Sys2Proof

open Machine Claims

variable {s t u : State}

/-! ### The common checks, of every command at once (R206) -/

/-- Every command but `RD` starts with the common checks, on the reserved bits and the need for `READY` that its row gives. -/
theorem exec_eq_gate {i : Instr} (hi : i.isCommand = true) (hrd : isRd i = false) (s : State) :
    ∃ body, exec i s = gate (!i.reservedClear) i.needsReady s body := by
  cases i with
  | rd => exact nomatch hrd
  | rbRd a =>
    rw [Instr.reservedClear, Bool.not_not]
    exact ⟨_, rfl⟩
  | frameChecksum | frameCrc | soh | eot | ack | nak | can | crq => exact nomatch hi
  | _ => exact ⟨_, rfl⟩

theorem isRd_of_not_reservedClear {i : Instr} (h : i.reservedClear = false) : isRd i = false := by
  cases i with
  | rd => exact nomatch h
  | _ => rfl

theorem isRd_of_needsReady {i : Instr} (h : i.needsReady = true) : isRd i = false := by
  cases i with
  | rd => exact nomatch h
  | _ => rfl

theorem refuses_of_err {i : Instr} (hi : i.isCommand = true) (hrd : isRd i = false) (he : s.err = true) : Refuses i s := by
  obtain ⟨body, hgate⟩ := exec_eq_gate hi hrd s
  exact hgate.trans (gate_of_err he)

theorem errsWith_of_reserved {i : Instr} (hi : i.isCommand = true) (he : s.err = false) (hres : i.reservedClear = false) :
    ErrsWith i s .reservedBits := by
  obtain ⟨body, hgate⟩ := exec_eq_gate hi (isRd_of_not_reservedClear hres) s
  exact hgate.trans (gate_errs_reserved he (by rw [hres]; rfl))

theorem errsWith_of_not_ready {i : Instr} (hi : i.isCommand = true) (he : s.err = false) (hres : i.reservedClear = true)
    (hneeds : i.needsReady = true) (hr : s.ready = false) : ErrsWith i s .notReady := by
  obtain ⟨body, hgate⟩ := exec_eq_gate hi (isRd_of_needsReady hneeds) s
  rw [hneeds] at hgate
  exact hgate.trans (gate_errs_notReady he (by rw [hres]; rfl) hr)

/-- Settles O19: every command but `RD` starts with the same checks, and once they are passed it starts with its own. -/
theorem orderOfCommandChecks : Obligations.OrderOfCommandChecks := by
  refine ⟨fun r s => ⟨fun hr => exec_rd_of_outside s (BitVec.lt_def.mpr hr), fun hr => ⟨_, exec_rd s (BitVec.le_def.mpr hr)⟩⟩,
    fun i s => refuses_of_err, fun a s he => ⟨gate_cmdError_of_no_err he, gate_cmdError_of_no_err he⟩,
    fun i s => errsWith_of_reserved, fun i s => errsWith_of_not_ready, ?_⟩
  rintro s ⟨he, hr⟩
  have hfree (hf : s.fvalid = false) : ¬s.fvalid = true := by simp [hf]
  refine ⟨fun b hp => ⟨?_, errsWith_rxTmo_of_done he hr hp⟩, fun a ha hv => ?_, fun b hf => ⟨?_, ?_⟩, fun b hf hl => ?_,
    fun hf hl => ?_, fun hnone => ?_, fun b hw => ⟨?_, ?_⟩⟩
  · exact gate_errs_body he rfl hr (by rw [hp])
  · exact gate_errs_body he ha hr (if_neg (by simp [hv]))
  · exact gate_errs_body he rfl hr (if_pos hf)
  · exact gate_errs_body he rfl hr (if_pos hf)
  · exact gate_errs_body he rfl hr ((if_neg (hfree hf)).trans (if_pos hl))
  · exact gate_errs_body he rfl hr ((if_neg (hfree hf)).trans (if_pos hl))
  · exact gate_errs_body he rfl hr (if_pos (by simpa [BitVec.le_def] using hnone))
  · exact gate_errs_body he rfl hr (if_pos (notAwaiting_eq_true.mpr hw))
  · exact gate_errs_body he rfl hr (if_pos (notAwaiting_eq_true.mpr hw))

/-! ### The frozen unit (R205, R256) -/

/-- While `ERR` is 1 a command error latches nothing: it is a refusal. -/
theorem errored_of_err {c : ErrCode} (he : s.err = true) : s.errored c = s.turnedAway := by
  rw [State.errored, if_pos he, ← he]
  rfl

/-- `RD` is the one command that is not refused, and even a bad index changes nothing. -/
theorem exec_rd_of_err {r : Byte} (he : s.err = true) : ∃ rs, exec (.rd r) s = .next { s with resp := rs } := by
  by_cases hr : lastRegister < r
  · exact ⟨[errResp], (exec_rd_of_outside s hr).trans (congrArg Host.Outcome.next (errored_of_err (c := .reg) he))⟩
  · exact ⟨_, exec_rd s (BitVec.not_lt.mp hr)⟩

theorem takeByte_of_err {side : Side} {b : Byte} (he : s.err = true) : takeByte side b s = .next s.turnedAway := by
  cases side with
  | rx => exact gate_of_err he
  | tx => exact gate_of_err he

/-- A sequence of `n` received bytes is refused `n` times. -/
theorem feedRx_refused {bs : List Byte} {n : Nat} (he : s.err = true) (hn : bs.length = n) :
    feedRx bs s = .next { s with resp := List.replicate n errResp } :=
  hn ▸ feedRx_of_err he

/-- Every other instruction is refused once for each of its bytes. -/
theorem exec_of_err {i : Instr} (he : s.err = true) (hrd : isRd i = false) :
    exec i s = .next { s with resp := List.replicate i.steps errResp } := by
  cases i with
  | rd => exact nomatch hrd
  | frameChecksum | frameCrc => exact feedRx_refused he (by simp [Instr.steps])
  | soh | eot | ack | nak | can | crq => exact takeByte_of_err he
  | _ => exact refuses_of_err rfl hrd he

/-- Settles O20: `RD` writes nothing, and every other instruction is refused byte by byte. -/
theorem frozenWhileErrIsSet : Obligations.FrozenWhileErrIsSet := by
  intro i s he
  cases hrd : isRd i with
  | false => exact ⟨_, exec_of_err he hrd, fun _ => rfl⟩
  | true =>
    cases i with
    | rd r =>
      obtain ⟨rs, hrs⟩ := exec_rd_of_err (r := r) he
      exact ⟨rs, hrs, nofun⟩
    | _ => exact nomatch hrd

/-! ### What an unpacker step leaves alone (R201, R251) -/

/-- An unpacker step takes a received byte, the bytes of a frame, or a timeout. -/
theorem exec_eq_next_of_receives {i : Instr} (hi : receives i = true) (h : exec i s = .next t) :
    (∃ b, takeRxByte b s = .next t) ∨ (∃ bs, feedRx bs s = .next t) ∨ ∃ a, execRxTmo a s = .next t := by
  cases i with
  | rxByte b => exact .inl ⟨b, h⟩
  | frameChecksum | frameCrc => exact .inr (.inl ⟨_, h⟩)
  | rxTmo a => exact .inr (.inr ⟨a, h⟩)
  | soh side | eot side | ack side | nak side | can side | crq side =>
    obtain rfl : side = .rx := eq_of_beq hi
    exact .inl ⟨_, h⟩
  | _ => exact nomatch hi

theorem isInit_of_receives {i : Instr} (hi : receives i = true) : isInit i = false := by
  cases i with
  | init => exact nomatch hi
  | _ => rfl

/-- No instruction writes the inputs still to be presented: it does the same with that very list put in their place (O56). -/
theorem exec_pending {i : Instr} (h : exec i s = .next t) : t.pending = s.pending := by
  have hsame : exec i s = .next (t.facing s.pending) := (exec_facing i s s.pending).trans (congrArg (facing s.pending) h)
  have hfaced : t = t.facing s.pending := Host.Outcome.next.inj (h.symm.trans hsame)
  calc t.pending = (t.facing s.pending).pending := congrArg State.pending hfaced
    _ = s.pending := rfl

/-- From `s` to `t` the register of `SUM` and `CRC` that the mode does not use, and `TXP`, are as they were. Phase `VER2`, which writes
`CRC`, is not entered in checksum mode. -/
structure InactiveKept (s t : State) : Prop where
  txp : t.txp = s.txp
  mode : t.mode = s.mode
  sum : s.mode = .crc → t.sum = s.sum
  crc : s.mode = .checksum → s.ph ≠ .ver2 → t.crc = s.crc ∧ t.ph ≠ .ver2

theorem InactiveKept.trans (h : InactiveKept s t) (h' : InactiveKept t u) : InactiveKept s u where
  txp := h'.txp.trans h.txp
  mode := h'.mode.trans h.mode
  sum hm := (h'.sum (h.mode.trans hm)).trans (h.sum hm)
  crc hm hp := by
    obtain ⟨hcrc, hph⟩ := h.crc hm hp
    obtain ⟨hcrc', hph'⟩ := h'.crc (h.mode.trans hm) hph
    exact ⟨hcrc'.trans hcrc, hph'⟩

/-- Neither verdict writes `TXP`, `MODE`, `SUM` or `CRC`, and both go to phase `IDLE`. -/
theorem Verdict.inactiveKept {p : Prop} (hj : Verdict p u t) (htxp : u.txp = s.txp) (hmode : u.mode = s.mode)
    (hsum : s.mode = .crc → u.sum = s.sum) (hcrc : s.mode = .checksum → s.ph ≠ .ver2 → u.crc = s.crc) : InactiveKept s t := by
  cases hj with
  | duplicate | accept | reject => exact ⟨htxp, hmode, hsum, fun hm hp => ⟨hcrc hm hp, nofun⟩⟩

theorem takeRxByte_inactiveKept {b : Byte} (h : takeRxByte b s = .next t) : InactiveKept s t := by
  cases takeRxByte_outcome h with
  | frozen | notReady | overrun | ignored | payload => exact ⟨rfl, rfl, fun _ => rfl, fun _ hp => ⟨rfl, hp⟩⟩
  | start | finish | number | header | badHeader | lastPayload => exact ⟨rfl, rfl, fun _ => rfl, fun _ _ => ⟨rfl, nofun⟩⟩
  | high _ _ _ hcrc => exact ⟨rfl, rfl, fun _ => rfl, fun hm => nomatch hm.symm.trans hcrc⟩
  | judgedSum _ _ _ hsum hj => exact Verdict.inactiveKept hj rfl rfl (fun hm => nomatch hm.symm.trans hsum) fun _ _ => rfl
  | judgedCrc _ _ hver2 hj => exact Verdict.inactiveKept hj rfl rfl (fun _ => rfl) fun _ hp => absurd hver2 hp

theorem feedRx_inactiveKept {bs : List Byte} (h : feedRx bs s = .next t) : InactiveKept s t :=
  feedRx_rel (fun _ _ => ⟨rfl, rfl, fun _ => rfl, fun _ hp => ⟨rfl, hp⟩⟩) (fun _ _ _ => .trans)
    (fun _ _ _ => takeRxByte_inactiveKept) h

theorem execRxTmo_inactiveKept {a : Byte} (h : execRxTmo a s = .next t) : InactiveKept s t := by
  cases execRxTmo_outcome h with
  | frozen | badOperand | notReady | overrun | atBoundary => exact ⟨rfl, rfl, fun _ => rfl, fun _ hp => ⟨rfl, hp⟩⟩
  | truncated => exact ⟨rfl, rfl, fun _ => rfl, fun _ _ => ⟨rfl, nofun⟩⟩

theorem exec_inactiveKept_of_receives {i : Instr} (hi : receives i = true) (h : exec i s = .next t) : InactiveKept s t := by
  rcases exec_eq_next_of_receives hi h with ⟨b, hb⟩ | ⟨bs, hbs⟩ | ⟨a, ha⟩
  · exact takeRxByte_inactiveKept hb
  · exact feedRx_inactiveKept hbs
  · exact execRxTmo_inactiveKept ha

/-- Settles O52: no unpacker step writes the frame, the session or the inputs to come, and a verdict writes the register of its mode. -/
theorem unpackerLeavesTheSendSide : Obligations.UnpackerLeavesTheSendSide := by
  intro i s t hi h
  obtain ⟨hfbuf, hflen, hfvalid, hplen⟩ := exec_frameKept_of_receives hi h
  obtain ⟨hmode, hready⟩ := exec_sameSession (isInit_of_receives hi) h
  obtain ⟨htxp, _, hsum, hcrc⟩ := exec_inactiveKept_of_receives hi h
  exact ⟨fun a => by rw [hfbuf], hplen, hflen, htxp, hfvalid, hready, hmode, exec_pending h, fun hm hp => (hcrc hm hp).1, hsum⟩

end Sys2Proof
end

section
/-!
PROOFS. The reset input (70_reset_and_hazards.md R240 and R241) and the step that finds no input (60_exceptions.md R219).
-/

namespace Sys2Proof

open Machine

variable {s : State} {rest : List Input}

theorem step_of_reset (h : s.pending = .reset :: rest) : step s = .next { s with pending := rest }.assertReset := by
  simp only [step, fetch, h]

theorem step_of_no_input (h : s.pending = []) : step s = .next s := by
  simp only [step, fetch, h]

/-- Each flag and each field of `STATUS` reads 0 at reset (R30). -/
theorem statusWord_assertReset (s : State) : statusWord s.assertReset = 0 := by
  simp [statusWord, flagBit, modeBit, phaseCode, eventCode]

/-- Settles O4: the reset step asserts reset on the state with the input taken off, and the value of each register is its law in
`Laws/State`; with nothing to take, the step is the idle one. -/
theorem resetInputAndIdleStep : Obligations.ResetInputAndIdleStep := by
  refine ⟨fun s rest h => ⟨_, step_of_reset h, ?_⟩, fun s => step_of_no_input⟩
  simp [statusWord_assertReset, Config.crcInit, Config.seqInit]

end Sys2Proof
end
